-- ==== Sys2Proof/Word.lean ====
section
/-! DEFINITION. The plain types of words, bytes and bit strings (00_scope.md R7 to R9). -/

namespace Sys2Proof

/-- A 32-bit register, command or value word (00_scope.md R8). -/
abbrev Word := BitVec 32

/-- A byte of the wire buffer, the schema text or a field name. -/
abbrev Byte := BitVec 8

/-- The source's bit string (00_scope.md R9): position 0 is the head, the character `1` is `true`. -/
abbrev BitString := List Bool

end Sys2Proof
end

