-- ==== Sys2Proof/Syntax.lean ====
section
/-! DEFINITION. The commands of spec/opcode_table.json, one constructor each (30_encoding.md R140, R142), and their
assembler syntax (R148). -/

namespace Sys2Proof

/-- The bank operand `B` (30_encoding.md R144). -/
inductive Bank where
  | bank0
  | bank1
deriving DecidableEq, Repr

/-- One constructor per row of the opcode table. `w` is the width operand `W`, an unsigned integer (30_encoding.md R143);
`Instr.wellFormed` bounds it by 255. -/
inductive Instr where
  /-- `NOP` (45_control.md R295). -/
  | nop
  /-- `B2S`, bytesToBits (40_bitorder.md R170). -/
  | b2s
  /-- `S2B`, bitsToBytes (40_bitorder.md R171). -/
  | s2b
  /-- `BITRD`, Bool window read (40_bitorder.md R172). -/
  | bitrd
  /-- `BITWR`, Bool window write (40_bitorder.md R173). -/
  | bitwr
  /-- `U8RD`, UInt8 window read (40_bitorder.md R174). -/
  | u8rd
  /-- `U8WR`, UInt8 window write (40_bitorder.md R175). -/
  | u8wr
  /-- `SWDEC w`, signed word decode (41_signed_word.md R202). -/
  | swdec (w : Nat)
  /-- `SWENC w`, signed word encode (41_signed_word.md R204). -/
  | swenc (w : Nat)
  /-- `FWDEC`, float word decode (42_float_word.md R222). -/
  | fwdec
  /-- `FWENC`, float word encode (42_float_word.md R224). -/
  | fwenc
  /-- `PARSE b`, parse schema text (43_schema.md R240). -/
  | parse (b : Bank)
  /-- `DECODE b`, decodeRecord (44_record.md R281). -/
  | decode (b : Bank)
  /-- `ENCODE b`, encodeRecord (44_record.md R282). -/
  | encode (b : Bank)
deriving DecidableEq, Repr

/-- The bank's number, 0 or 1 (30_encoding.md R144). -/
def Bank.number : Bank → Nat
  | .bank0 => 0
  | .bank1 => 1

/-- The mnemonic of 30_encoding.md R142. -/
def Instr.mnemonic : Instr → String
  | .nop => "NOP"
  | .b2s => "B2S"
  | .s2b => "S2B"
  | .bitrd => "BITRD"
  | .bitwr => "BITWR"
  | .u8rd => "U8RD"
  | .u8wr => "U8WR"
  | .swdec _ => "SWDEC"
  | .swenc _ => "SWENC"
  | .fwdec => "FWDEC"
  | .fwenc => "FWENC"
  | .parse _ => "PARSE"
  | .decode _ => "DECODE"
  | .encode _ => "ENCODE"

/-- The operand a command is written with, if it takes one (30_encoding.md R148). -/
def Instr.operand : Instr → Option Nat
  | .nop | .b2s | .s2b | .bitrd | .bitwr | .u8rd | .u8wr | .fwdec | .fwenc => none
  | .swdec w | .swenc w => some w
  | .parse b | .decode b | .encode b => some b.number

/-- The assembler line of a command (30_encoding.md R148). -/
def Instr.toAssembler (i : Instr) : String :=
  match i.operand with
  | none => i.mnemonic
  | some n => i.mnemonic ++ " " ++ toString n

end Sys2Proof
end

