-- ==== Sys2Proof/WellFormed.lean ====
section
/-! DEFINITION. Which instruction terms an encoding exists for (30_encoding.md R140, R143). -/

namespace Sys2Proof

/-- The width operand fits the 8-bit field `W` (30_encoding.md R140, R143). Widths other than 16 and 32 are legal encodings
that fail when they run. -/
def widthFits (w : Nat) : Bool := decide (w ≤ 255)

/-- An instruction that a command word can spell. -/
def Instr.wellFormed : Instr → Bool
  | .nop | .b2s | .s2b | .bitrd | .bitwr | .u8rd | .u8wr | .fwdec | .fwenc => true
  | .swdec w | .swenc w => widthFits w
  | .parse _ | .decode _ | .encode _ => true

end Sys2Proof
end

