-- ==== Sys2Proof/Decode.lean ====
section
/-! DEFINITION. The command decoder of 30_encoding.md R140 and the encoder of R148. -/

namespace Sys2Proof

/-- Why a word spells no command, in the order the engine checks (30_encoding.md R140). Each is `IllegalCommand(0, 0)`. -/
inductive DecodeReject where
  /-- `OP` is not in the table of R142. -/
  | unknownOpcode
  /-- A bit of [15:9] or [31:24] is set. -/
  | reservedBits
  /-- `B` is set on a command that takes no bank. -/
  | bankNotTaken
  /-- `W` is not 0 on a command that takes no width. -/
  | widthNotTaken
deriving DecidableEq, Repr

/-- The field `OP`, bits [7:0] (30_encoding.md R140). -/
def opField (c : Word) : BitVec 8 := c.extractLsb' 0 8

/-- The field `B`, bit 8 (30_encoding.md R140). -/
def bankField (c : Word) : Bank := if c.getLsbD 8 then .bank1 else .bank0

/-- The field `W`, bits [23:16], unsigned (30_encoding.md R140, R143). -/
def widthField (c : Word) : Nat := (c.extractLsb' 16 8).toNat

/-- The reserved fields [15:9] and [31:24] are 0 (30_encoding.md R140). -/
def reservedClear (c : Word) : Bool := c.extractLsb' 9 7 == 0#7 && c.extractLsb' 24 8 == 0#8

/-- The opcode map of 30_encoding.md R142, with the operands `b` and `w`. -/
def instrOfOp (op : BitVec 8) (b : Bank) (w : Nat) : Option Instr :=
  match op with
  | 0x00#8 => some .nop
  | 0x01#8 => some .b2s
  | 0x02#8 => some .s2b
  | 0x10#8 => some .bitrd
  | 0x11#8 => some .bitwr
  | 0x12#8 => some .u8rd
  | 0x13#8 => some .u8wr
  | 0x14#8 => some (.swdec w)
  | 0x15#8 => some (.swenc w)
  | 0x16#8 => some .fwdec
  | 0x17#8 => some .fwenc
  | 0x20#8 => some (.parse b)
  | 0x21#8 => some (.decode b)
  | 0x22#8 => some (.encode b)
  | _ => none

/-- Whether the command uses the field `B` (30_encoding.md R140). -/
def Instr.takesBank : Instr → Bool
  | .nop | .b2s | .s2b | .bitrd | .bitwr | .u8rd | .u8wr | .fwdec | .fwenc => false
  | .swdec _ | .swenc _ => false
  | .parse _ | .decode _ | .encode _ => true

/-- Whether the command uses the field `W` (30_encoding.md R140). -/
def Instr.takesWidth : Instr → Bool
  | .nop | .b2s | .s2b | .bitrd | .bitwr | .u8rd | .u8wr | .fwdec | .fwenc => false
  | .swdec _ | .swenc _ => true
  | .parse _ | .decode _ | .encode _ => false

/-- The decoder of 30_encoding.md R140, its checks in the rule's order. -/
def decodeWord (c : Word) : Except DecodeReject Instr :=
  match instrOfOp (opField c) (bankField c) (widthField c) with
  | none => .error .unknownOpcode
  | some i =>
    if !reservedClear c then .error .reservedBits
    else if !i.takesBank && bankField c == .bank1 then .error .bankNotTaken
    else if !i.takesWidth && widthField c != 0 then .error .widthNotTaken
    else .ok i

/-- The opcode of 30_encoding.md R142. -/
def Instr.opcode : Instr → BitVec 8
  | .nop => 0x00#8
  | .b2s => 0x01#8
  | .s2b => 0x02#8
  | .bitrd => 0x10#8
  | .bitwr => 0x11#8
  | .u8rd => 0x12#8
  | .u8wr => 0x13#8
  | .swdec _ => 0x14#8
  | .swenc _ => 0x15#8
  | .fwdec => 0x16#8
  | .fwenc => 0x17#8
  | .parse _ => 0x20#8
  | .decode _ => 0x21#8
  | .encode _ => 0x22#8

/-- The operand `B` of a command, 0 where it takes none (30_encoding.md R140). -/
def Instr.bankOperand : Instr → Nat
  | .nop | .b2s | .s2b | .bitrd | .bitwr | .u8rd | .u8wr | .fwdec | .fwenc => 0
  | .swdec _ | .swenc _ => 0
  | .parse b | .decode b | .encode b => b.number

/-- The operand `W` of a command, 0 where it takes none (30_encoding.md R140). -/
def Instr.widthOperand : Instr → Nat
  | .nop | .b2s | .s2b | .bitrd | .bitwr | .u8rd | .u8wr | .fwdec | .fwenc => 0
  | .swdec w | .swenc w => w
  | .parse _ | .decode _ | .encode _ => 0

/-- The command word `OP | (B << 8) | (W << 16)` (30_encoding.md R148). -/
def encode (i : Instr) : Word :=
  i.opcode.setWidth 32 ||| (BitVec.ofNat 32 i.bankOperand <<< 8) ||| (BitVec.ofNat 32 i.widthOperand <<< 16)

/-- The `match` word of the command's row in the table of 30_encoding.md R142. -/
def Instr.tableMatch (i : Instr) : Word := i.opcode.setWidth 32

/-- The `mask` word of the command's row in the table of 30_encoding.md R142. -/
def Instr.tableMask : Instr → Word
  | .nop | .b2s | .s2b | .bitrd | .bitwr | .u8rd | .u8wr | .fwdec | .fwenc => 0xFFFFFFFF#32
  | .swdec _ | .swenc _ => 0xFF00FFFF#32
  | .parse _ | .decode _ | .encode _ => 0xFFFFFEFF#32

/-- The command word an opcode-table row's bits make: a command is one 32-bit word that is never laid out in bytes by the
engine, and bits above `nbits` are 0 (30_encoding.md R141; log 16). -/
def commandOfTableBits (nbits w : Nat) : Word := BitVec.ofNat 32 (w % 2 ^ nbits)

/-- The instruction the decoder reads from an opcode-table row's bits. -/
def decodeTableWord (nbits w : Nat) : Option Instr :=
  match decodeWord (commandOfTableBits nbits w) with
  | .ok i => some i
  | .error _ => none

end Sys2Proof
end

