-- ==== Sys2Proof/Config.lean ====
section
/-! DEFINITION. What an implementation fixes (00_scope.md R6, 10_state.md R30) and the values the spec leaves open. -/

namespace Sys2Proof

/-- The parameters of 00_scope.md R6. They are configuration; `State.params` holds them beside the state and no step writes
them (log 1, DESIGN CHOICE). -/
structure Params where
  /-- `N_B`: capacity of WBUF in bytes; BSTR holds `8 * N_B` bits. -/
  nB : Nat
  /-- `N_T`: capacity of STXT in bytes. -/
  nT : Nat
  /-- `N_F`: maximum number of fields of a bank. -/
  nF : Nat
  /-- `NAME_MAX`: maximum length of a field name in bytes. -/
  nameMax : Nat
  /-- `N_V`: capacity of a bank's value memory in words. -/
  nV : Nat
  /-- `OVERLAP_IS_ERROR`: whether overlapping fields are refused (43_schema.md R253). -/
  overlapIsError : Bool
deriving DecidableEq, Repr

/-- The reference values of 00_scope.md R6. -/
def Params.reference : Params :=
  { nB := 4096, nT := 16384, nF := 256, nameMax := 64, nV := 4096, overlapIsError := false }

/-- The legal ranges of 00_scope.md R6. -/
abbrev Params.Legal (p : Params) : Prop :=
  (1 ≤ p.nB ∧ p.nB ≤ 65536) ∧ (1 ≤ p.nT ∧ p.nT ≤ 65536) ∧ (1 ≤ p.nF ∧ p.nF ≤ 1024) ∧
    (1 ≤ p.nameMax ∧ p.nameMax ≤ 255) ∧ (1 ≤ p.nV ∧ p.nV ≤ 65536)

/-- The constant of the `ID` register (10_state.md R30): "SG", command-set version 1. -/
def Config.engineId : Word := 0x53470001#32

/-- The size of the engine's window in bytes (20_memory.md R100). -/
def Config.windowSize : Nat := 0x300000

/-- `ENGINE_BASE`, where the platform places the window (20_memory.md R100): OPEN, so no value (log 13). -/
opaque Config.engineBase : Nat

/-- `IRQ_ROUTE`, the host interrupt line `IRQ` drives (60_exceptions.md R310): OPEN, so no value (log 13). -/
opaque Config.irqRoute : Nat

/-- The word the n-th violating host read returns: "any 32-bit word" (70_reset_and_hazards.md R350), a free value (log 5). -/
opaque Config.violationRead : Nat → Word

end Sys2Proof
end

