-- ==== Sys2Proof/Machine/State.lean ====
section
/-! DEFINITION. The state of the engine (10_state.md R55), the host's turns, the fault and refusal reasons, and reset
(70_reset_and_hazards.md R340). -/

namespace Sys2Proof.Machine

/-- A byte memory (WBUF, STXT): the listed bytes in rising address order, none of them 0; an unlisted byte reads 0, its
reset value (10_state.md R47, R49). -/
abbrev Memory := List Host.Cell

/-- A bit memory (BSTR, PRESENT): the positions that hold 1, each with `true`, rising (10_state.md R48, R52). -/
abbrev BitStore := List (Nat × Bool)

/-- A word memory (VAL): the listed words in rising order, none of them 0 (10_state.md R53). -/
abbrev WordStore := List (Nat × Word)

/-- The field types of 00_scope.md R12; `float32Array` takes its count from `ALEN`. Codes 6 and 7 are never written, so
they have no constructor. -/
inductive FieldKind where
  | bool
  | uint8
  | int16
  | int32
  | float32
  | float32Array
deriving DecidableEq, Repr

/-- The side of a field (44_record.md R280). -/
inductive Side where
  | read
  | write
deriving DecidableEq, Repr

/-- One entry `FTAB_b[f]` with its name `NAME_b[f]` (10_state.md R50, R51). -/
structure FieldEntry where
  /-- `TYPE`, by name instead of by code. -/
  kind : FieldKind
  /-- `SIDE`. -/
  side : Side
  /-- `NAMELEN`. -/
  nameLen : BitVec 8
  /-- `OFFSET`, the bitOffset. -/
  offset : Word
  /-- `ALEN`, the array length, 0 for every other type. -/
  alen : Word
  /-- `VBASE`, the slot's first word. -/
  vbase : Word
  /-- `LINE`, the 1-based schema line. -/
  line : Word
  /-- `WIDTH`, the field's bit width. -/
  width : Word
  /-- `KEYOFF`, where the key starts in the name. -/
  keyOff : Word
  /-- `NAME_b[f]`, the name's bytes. -/
  name : List Byte
deriving DecidableEq, Repr

/-- The all-zero entry that an entry beyond `NFIELDS_b` reads as (10_state.md R50, R51). -/
def FieldEntry.zero : FieldEntry :=
  { kind := .bool, side := .read, nameLen := 0#8, offset := 0#32, alen := 0#32, vbase := 0#32, line := 0#32,
    width := 0#32, keyOff := 0#32, name := [] }

/-- One bank: a schema and its record (10_state.md R42, R43, R50 to R53). -/
structure BankState where
  /-- `NFIELDS_b`. -/
  nfields : Word
  /-- `NWORDS_b`. -/
  nwords : Word
  /-- `BFLAGS_b` bit 0, `OVERLAP`. -/
  overlap : Bool
  /-- `BFLAGS_b` bit 1, `LOADED`. -/
  loaded : Bool
  /-- The entries `f < NFIELDS_b` of `FTAB_b` and `NAME_b`, in index order (log 9). -/
  fields : List FieldEntry
  /-- `PRESENT_b`. -/
  present : BitStore
  /-- `VAL_b`. -/
  val : WordStore
deriving DecidableEq, Repr

/-- The empty, unloaded bank of reset (70_reset_and_hazards.md R340). -/
def BankState.empty : BankState :=
  { nfields := 0#32, nwords := 0#32, overlap := false, loaded := false, fields := [], present := [], val := [] }

/-- One host bus access (20_memory.md R101): its byte address relative to `ENGINE_BASE`, its width in bytes, and the word a
write carries. -/
inductive Access where
  | read (addr width : Nat)
  | write (addr width : Nat) (data : Word)
deriving DecidableEq, Repr

/-- Which agent moves next (00_scope.md R5, 20_memory.md R120). -/
inductive Turn where
  | host (a : Access)
  | engine
deriving DecidableEq, Repr

/-- The whole state (10_state.md R55). `BUSY`, `ERRV` and `IRQ` are derived from it (Machine/Flags.lean). -/
structure State where
  /-- The parameters of 00_scope.md R6: configuration, written by no step (log 1). -/
  params : Params
  /-- `CTRL.IE`. -/
  ie : Bool
  /-- `STATUS.DONE`. -/
  done : Bool
  /-- `CMD`, the last command word written. -/
  cmd : Word
  /-- `INFLIGHT`, the command word in flight (10_state.md R46). -/
  inflight : Option Word
  /-- `ERR.CODE`. -/
  errCode : BitVec 4
  /-- `ERR.SUB`. -/
  errSub : BitVec 4
  /-- `ERRINFO`. -/
  errInfo : Word
  /-- `WLEN`, bytes in the wire buffer. -/
  wlen : Word
  /-- `BLEN`, bits in the bit string. -/
  blen : Word
  /-- `TLEN`, bytes in the schema text. -/
  tlen : Word
  /-- `OFF`, the window's absolute bit index. -/
  off : Word
  /-- `ARG`, the value to encode. -/
  arg : Word
  /-- `RES`, the result. -/
  res : Word
  /-- `WBUF`. -/
  wbuf : Memory
  /-- `BSTR`. -/
  bstr : BitStore
  /-- `STXT`. -/
  stxt : Memory
  /-- Bank 0. -/
  bank0 : BankState
  /-- Bank 1. -/
  bank1 : BankState
  /-- `HOSTFAULT` (70_reset_and_hazards.md R350). -/
  hostFault : Bool
  /-- The model's own: the turns still to come, in order (log 2). -/
  agenda : List Turn
  /-- The model's own: the word the host's last read returned (log 4). -/
  hostRead : Word
  /-- The model's own: how many free values were drawn (log 5). -/
  draws : Nat
deriving DecidableEq, Repr

/-- Why the machine stops with a fault. It has no constructor: an error of the engine is a completion that writes ERR
(60_exceptions.md R300), and a host-protocol violation sets `HOSTFAULT` (70_reset_and_hazards.md R350), so no step of this
hardware stops with a fault. Safe: a fault could only hide behaviour. -/
inductive Fault where
deriving DecidableEq, Repr

/-- Why the model gives no meaning. -/
inductive Refusal where
  /-- An instruction that has no meaning yet, raised by an arm of `exec`. Safe: nothing can be proved about it. No arm
  raises it now. -/
  | notModelled (mnemonic : String)
  /-- A host access at or beyond offset 0x30_0000, raised by `busAccess`: outside the engine's window, the platform decides
  (20_memory.md R108; I9). Safe: no run goes on through it. -/
  | outsideWindow
deriving DecidableEq, Repr

/-- The launch state for the parameters `p` (70_reset_and_hazards.md R340). -/
def State.resetWith (p : Params) : State :=
  { params := p, ie := false, done := false, cmd := 0#32, inflight := none, errCode := 0#4, errSub := 0#4,
    errInfo := 0#32, wlen := 0#32, blen := 0#32, tlen := 0#32, off := 0#32, arg := 0#32, res := 0#32,
    wbuf := [], bstr := [], stxt := [], bank0 := .empty, bank1 := .empty, hostFault := false, agenda := [],
    hostRead := 0#32, draws := 0 }

/-- The machine right after reset (70_reset_and_hazards.md R340), at the reference parameters of 00_scope.md R6 (log 1). -/
def State.reset : State := State.resetWith Params.reference

end Sys2Proof.Machine
end

