-- ==== Sys2Proof/Machine/Ops.lean ====
section
/-! DEFINITION. The named operations over memories, banks and the error registers. Each memory is a canonical sparse list
(INVENTORY.md, Memory and ordering); every read and write of one goes through `storeGet`, `storePut`, `storeFill` and
`storeRead`. -/

namespace Sys2Proof.Machine

/-! ## Sparse memories -/

/-- The content of position `a`; an unlisted position reads `d`. -/
def storeGet {α : Type} (d : α) : List (Nat × α) → Nat → α
  | [], _ => d
  | (k, v) :: r, a => if a = k then v else storeGet d r a

/-- The list without position `a`. -/
def storeErase {α : Type} : List (Nat × α) → Nat → List (Nat × α)
  | [], _ => []
  | (k, v) :: r, a => if a = k then storeErase r a else (k, v) :: storeErase r a

/-- The list with `(a, v)` put before the first higher position. -/
def storeInsert {α : Type} (a : Nat) (v : α) : List (Nat × α) → List (Nat × α)
  | [] => [(a, v)]
  | (k, w) :: r => if a < k then (a, v) :: (k, w) :: r else (k, w) :: storeInsert a v r

/-- Write `v` at `a`. Writing `d`, what an unlisted position reads as, removes the entry. -/
def storePut {α : Type} [DecidableEq α] (d : α) (m : List (Nat × α)) (a : Nat) (v : α) : List (Nat × α) :=
  if v = d then storeErase m a else storeInsert a v (storeErase m a)

/-- Write consecutive values from position `o` up. -/
def storeFill {α : Type} [DecidableEq α] (d : α) (m : List (Nat × α)) (o : Nat) : List α → List (Nat × α)
  | [] => m
  | v :: vs => storeFill d (storePut d m o v) (o + 1) vs

/-- The `n` values from position `o` up. -/
def storeRead {α : Type} (d : α) (m : List (Nat × α)) (o n : Nat) : List α :=
  (List.range n).map fun k => storeGet d m (o + k)

/-- The canonical form: positions strictly rising and no listed value equal to `d`. -/
def storeWf {α : Type} [DecidableEq α] (d : α) : List (Nat × α) → Bool
  | [] => true
  | (k, v) :: r => decide (v ≠ d) && (r.all fun p => decide (k < p.1)) && storeWf d r

/-- Every listed position lies below `n`. -/
def storeBelow {α : Type} (n : Nat) (m : List (Nat × α)) : Bool := m.all fun p => decide (p.1 < n)

/-- The canonical form of a byte memory. -/
def Memory.wf (m : Memory) : Bool := storeWf 0#8 m

/-- The canonical form of a bit memory. -/
def BitStore.wf (m : BitStore) : Bool := storeWf false m

/-- The canonical form of a word memory. -/
def WordStore.wf (m : WordStore) : Bool := storeWf 0#32 m

/-- `WBUF[a]` (10_state.md R47). -/
def State.byte (s : State) (a : Nat) : Byte := storeGet 0#8 s.wbuf a

/-- `BSTR[i]` (10_state.md R48). -/
def State.bit (s : State) (i : Nat) : Bool := storeGet false s.bstr i

/-- `STXT[a]` (10_state.md R49). -/
def State.textByte (s : State) (a : Nat) : Byte := storeGet 0#8 s.stxt a

/-- `VAL_b[v]` (10_state.md R53). -/
def BankState.word (b : BankState) (v : Nat) : Word := storeGet 0#32 b.val v

/-- `PRESENT_b[f]` (10_state.md R52). -/
def BankState.isPresent (b : BankState) (f : Nat) : Bool := storeGet false b.present f

/-! ## Banks -/

/-- The state of bank `b` (30_encoding.md R144). -/
def State.bank (s : State) : Bank → BankState
  | .bank0 => s.bank0
  | .bank1 => s.bank1

/-- The state with bank `b` replaced; the other bank is not touched. -/
def State.setBank (s : State) (b : Bank) (x : BankState) : State :=
  match b with
  | .bank0 => { s with bank0 := x }
  | .bank1 => { s with bank1 := x }

/-- The descriptors `f < NFIELDS_b`, in index order (10_state.md R50). -/
def BankState.schema (b : BankState) : List FieldEntry := b.fields.take b.nfields.toNat

/-- `FTAB_b[f]` with `NAME_b[f]`; all zero for `f ≥ NFIELDS_b` (10_state.md R50, R51). -/
def BankState.entry (b : BankState) (f : Nat) : FieldEntry := b.schema.getD f FieldEntry.zero

/-! ## Errors and completion (60_exceptions.md R300, R301) -/

/-- The error kinds of 60_exceptions.md R301. -/
inductive ErrorKind where
  | schemaError
  | lengthError
  | rangeError
  | missingFieldError
  | unsupportedWidthError
  | illegalCommand
deriving DecidableEq, Repr

/-- `raise E(sub, info)` of 00_scope.md R11. -/
structure Raise where
  kind : ErrorKind
  sub : Nat
  info : Nat
deriving DecidableEq, Repr

/-- `ERR.CODE` of an error kind (60_exceptions.md R301). -/
def ErrorKind.code : ErrorKind → BitVec 4
  | .schemaError => 1#4
  | .lengthError => 2#4
  | .rangeError => 3#4
  | .missingFieldError => 4#4
  | .unsupportedWidthError => 5#4
  | .illegalCommand => 6#4

/-- The completion every command ends with (10_state.md R46): nothing in flight, `BUSY` 0, `DONE` 1. -/
def State.finish (s : State) : State := { s with inflight := none, done := true }

/-- Completion without error: `ERR` and `ERRINFO` become 0 (60_exceptions.md R300). -/
def State.succeed (s : State) : State :=
  { s with errCode := 0#4, errSub := 0#4, errInfo := 0#32 }.finish

/-- Taking an error, the engine's one exception entry (60_exceptions.md R300, R305): the kind, the subcause and the info word
are recorded, the command completes, and nothing else changes. -/
def State.takeError (s : State) (e : Raise) : State :=
  { s with errCode := e.kind.code, errSub := BitVec.ofNat 4 e.sub, errInfo := BitVec.ofNat 32 e.info }.finish

/-- The host's write of `CMD` (10_state.md R33), which is also the only "return" from an error (60_exceptions.md R306). -/
def State.startCommand (s : State) (c : Word) : State := { s with cmd := c, inflight := some c, done := false }

/-- The command word the engine's next step takes, if any (60_exceptions.md R300). -/
def State.fetch (s : State) : Option Word := s.inflight

/-- The atomic step of 60_exceptions.md R300: apply the outcome's writes and succeed, or take the error on the state as it
was before the command. -/
def complete (s : State) (outcome : Except Raise State) : Host.Outcome State Fault Refusal :=
  match outcome with
  | .ok s' => .next s'.succeed
  | .error e => .next (s.takeError e)

/-- A word that spells no command (30_encoding.md R140, R147): `IllegalCommand(0, 0)`. -/
def illegalCommand (s : State) : Host.Outcome State Fault Refusal := complete s (.error ⟨.illegalCommand, 0, 0⟩)

end Sys2Proof.Machine
end

