-- ==== Sys2Proof/Machine/Operands.lean ====
section
/-! DEFINITION. Bit strings and windows (00_scope.md R9, R10), the codecs as the source's string algorithms
(40_bitorder.md, 41_signed_word.md, 42_float_word.md), and the widths, slots and keys of fields. -/

namespace Sys2Proof.Machine

/-! ## Bit strings (00_scope.md R9) -/

/-- `parse(S)`: an unsigned binary numeral, the first character the most significant. -/
def parseBits (S : BitString) : Nat := S.foldl (fun n b => 2 * n + b.toNat) 0

/-- `rev(S)`. -/
def rev (S : BitString) : BitString := S.reverse

/-- `compl(S)`. -/
def complBits (S : BitString) : BitString := S.map not

/-- `S[a, b)`. -/
def seg (S : BitString) (a b : Nat) : BitString := (S.drop a).take (b - a)

/-- The low `n` bits of `v`, bit 0 first. -/
def lowBits {w : Nat} (n : Nat) (v : BitVec w) : BitString := (List.range n).map fun i => v.getLsbD i

/-- The bit-reversal table `T[v]` (40_bitorder.md R176). -/
def byteString (v : Byte) : BitString := lowBits 8 v

/-- The byte of an 8-character window: reverse it and parse it (40_bitorder.md R171, R174). -/
def byteOfString (S : BitString) : Byte := BitVec.ofNat 8 (parseBits (rev S))

/-- `bytesToBits` (40_bitorder.md R170). -/
def bytesToBits (bytes : List Byte) : BitString := bytes.flatMap byteString

/-- `bitsToBytes` of the first `n` 8-character windows (40_bitorder.md R171). -/
def bitsToBytes (S : BitString) (n : Nat) : List Byte :=
  (List.range n).map fun k => byteOfString (seg S (8 * k) (8 * k + 8))

/-- The word whose bits are `S`, bit 0 first (20_memory.md R103). -/
def wordOfBits (S : BitString) : Word := BitVec.ofNat 32 (parseBits (rev S))

/-- The four bytes of a bus word, the least significant first (20_memory.md R102). -/
def wordBytes (v : Word) : List Byte :=
  [v.extractLsb' 0 8, v.extractLsb' 8 8, v.extractLsb' 16 8, v.extractLsb' 24 8]

/-! ## Windows of BSTR (00_scope.md R9, R10) -/

/-- The string window `BSTR[o .. o+n-1]`. -/
def window (m : BitStore) (o n : Nat) : BitString := storeRead false m o n

/-- BSTR with the string `S` written from position `o`. -/
def putWindow (m : BitStore) (o : Nat) (S : BitString) : BitStore := storeFill false m o S

/-- `wbyte(o, k)`, window byte `k` (00_scope.md R10), of the bits `bit`. -/
def wbyte (bit : Nat → Bool) (o k : Nat) : Nat :=
  ((List.range 8).map fun i => (bit (o + 8 * k + i)).toNat * 2 ^ i).sum

/-- `be_read(o, n)` (00_scope.md R10): the window's bytes, the first the most significant. -/
def beRead (bit : Nat → Bool) (o n : Nat) : Nat :=
  ((List.range (n / 8)).map fun k => wbyte bit o k * 2 ^ (n - 8 - 8 * k)).sum

/-- The bit `be_write(o, n, u)` puts at window position `p < n` (00_scope.md R10): with `p = 8k + i`, bit
`n - 8 - 8k + i` of `u`. -/
def beBit (n : Nat) (u : Word) (p : Nat) : Bool := u.getLsbD (n - 8 - 8 * (p / 8) + p % 8)

/-- `OFF + n > BLEN`, on exact integers (00_scope.md R8, 20_memory.md R115). -/
def State.windowPastEnd (s : State) (n : Nat) : Bool := decide (s.blen.toNat < s.off.toNat + n)

/-! ## The signed-word codec (41_signed_word.md) -/

/-- The widths the signed-word codec supports (41_signed_word.md R200). -/
def widthSupported (w : Nat) : Bool := w == 16 || w == 32

/-- The characters of the window in reassembly order, position 7 left out (41_signed_word.md R200). -/
def swReorder (S : BitString) (w : Nat) : BitString :=
  if w = 16 then seg S 8 16 ++ seg S 0 7
  else seg S 24 32 ++ seg S 16 24 ++ seg S 8 16 ++ seg S 0 7

/-- `swdec(S, w)`, the source's algorithm (41_signed_word.md R200); `none` is `UnsupportedWidthError`. -/
def swdec (S : BitString) (w : Nat) : Option Int :=
  if widthSupported w then
    let neg := S.getD 7 false
    let S' := if neg then complBits S else S
    let m : Int := parseBits (rev (swReorder S' w))
    some (if neg then -m - 1 else m)
  else none

/-- `swenc(v, w)` for a supported width, in string form, with `u = v mod 2^w` (41_signed_word.md R203). -/
def swenc (u : Word) (w : Nat) : BitString :=
  if w = 16 then byteString (u.extractLsb' 8 8) ++ byteString (u.extractLsb' 0 8)
  else byteString (u.extractLsb' 24 8) ++ byteString (u.extractLsb' 16 8) ++
    byteString (u.extractLsb' 8 8) ++ byteString (u.extractLsb' 0 8)

/-- Whether `sext_32(v)` fits in `w` signed bits (41_signed_word.md R204, R206). -/
def fitsSigned (w : Nat) (v : Word) : Bool :=
  decide (-(2 ^ (w - 1) : Int) ≤ v.toInt) && decide (v.toInt ≤ 2 ^ (w - 1) - 1)

/-! ## The float-word codec (42_float_word.md) -/

/-- The binary32 pattern of `fwdec(S)`, the source's algorithm (42_float_word.md R220): reverse, parse, render the four bytes
big-endian, read them little-endian. -/
def fwdec (S : BitString) : Word :=
  let U : Word := BitVec.ofNat 32 (parseBits (rev S))
  let c0 := U.extractLsb' 24 8
  let c1 := U.extractLsb' 16 8
  let c2 := U.extractLsb' 8 8
  let c3 := U.extractLsb' 0 8
  BitVec.ofNat 32 (c0.toNat + c1.toNat * 2 ^ 8 + c2.toNat * 2 ^ 16 + c3.toNat * 2 ^ 24)

/-- `fwenc(P)`, the source's algorithm (42_float_word.md R223): the big-endian bytes, each bit-reversed. -/
def fwenc (P : Word) : BitString :=
  byteString (P.extractLsb' 24 8) ++ byteString (P.extractLsb' 16 8) ++ byteString (P.extractLsb' 8 8) ++
    byteString (P.extractLsb' 0 8)

/-! ## Field types (00_scope.md R12, R14, R15) -/

/-- The type code of 00_scope.md R12. -/
def FieldKind.code : FieldKind → BitVec 3
  | .bool => 0#3
  | .uint8 => 1#3
  | .int16 => 2#3
  | .int32 => 3#3
  | .float32 => 4#3
  | .float32Array => 5#3

/-- `width(t)`, with `n` the array length (00_scope.md R14). -/
def FieldKind.width : FieldKind → Nat → Nat
  | .bool, _ => 1
  | .uint8, _ => 8
  | .int16, _ => 16
  | .int32, _ => 32
  | .float32, _ => 32
  | .float32Array, n => 32 * n

/-- `words(t)`, with `n` the array length (00_scope.md R15). -/
def FieldKind.words : FieldKind → Nat → Nat
  | .bool, _ | .uint8, _ | .int16, _ | .int32, _ | .float32, _ => 1
  | .float32Array, n => n

/-- The number of VAL words of a field's slot (00_scope.md R15). -/
def FieldEntry.words (e : FieldEntry) : Nat := e.kind.words e.alen.toNat

/-- One past the field's last bit, on exact integers (00_scope.md R8). -/
def FieldEntry.bitEnd (e : FieldEntry) : Nat := e.offset.toNat + e.width.toNat

/-- `SIDE` as the bit of 10_state.md R50. -/
def Side.bit : Side → Bool
  | .read => false
  | .write => true

/-! ## The read/write partition (44_record.md R280) -/

/-- The 11 bytes of `copyDbWrite` (44_record.md R280; 90_conflicts.md C1). -/
def writePrefix : List Byte :=
  [0x63#8, 0x6F#8, 0x70#8, 0x79#8, 0x44#8, 0x62#8, 0x57#8, 0x72#8, 0x69#8, 0x74#8, 0x65#8]

/-- `side(nm)` (44_record.md R280). -/
def sideOf (nm : List Byte) : Side := if nm.take 11 = writePrefix then .write else .read

/-- `keyoff(nm)` (44_record.md R280). -/
def keyOffOf (nm : List Byte) : Nat :=
  match sideOf nm with
  | .write => 11
  | .read => 0

/-- `key(nm)` (44_record.md R280). -/
def keyOf (nm : List Byte) : List Byte := nm.drop (keyOffOf nm)

/-! ## Slots (10_state.md R53, 44_record.md R283 to R285) -/

/-- `extract(b, f)`: the words DECODE puts in the slot of `e` (44_record.md R283). -/
def decodeSlot (m : BitStore) (e : FieldEntry) : List Word :=
  let o := e.offset.toNat
  match e.kind with
  | .bool => [if storeGet false m o then 1#32 else 0#32]
  | .uint8 => [BitVec.ofNat 32 (parseBits (rev (window m o 8)))]
  | .int16 => [BitVec.ofInt 32 ((swdec (window m o 16) 16).getD 0)]
  | .int32 => [BitVec.ofInt 32 ((swdec (window m o 32) 32).getD 0)]
  | .float32 => [fwdec (window m o 32)]
  | .float32Array => (List.range e.alen.toNat).map fun i => fwdec (window m (o + 32 * i) 32)

/-- The slot of `e` in `VAL_b` (10_state.md R53). -/
def slotOf (val : WordStore) (e : FieldEntry) : List Word := storeRead 0#32 val e.vbase.toNat e.words

/-- `insert(b, f)`: the string ENCODE writes at the offset of `e` (44_record.md R284). -/
def encodeSlot (val : WordStore) (e : FieldEntry) : BitString :=
  let w := storeGet 0#32 val e.vbase.toNat
  match e.kind with
  | .bool => [w.getLsbD 0]
  | .uint8 => lowBits 8 w
  | .int16 => swenc w 16
  | .int32 => swenc w 32
  | .float32 => fwenc w
  | .float32Array => (storeRead 0#32 val e.vbase.toNat e.alen.toNat).flatMap fwenc

/-- `legal(b, f)`: the range check of a slot (44_record.md R285). -/
def slotLegal (val : WordStore) (e : FieldEntry) : Bool :=
  let w := storeGet 0#32 val e.vbase.toNat
  match e.kind with
  | .bool => decide (w.toNat ≤ 1)
  | .uint8 => decide (w.toNat ≤ 255)
  | .int16 => decide ((w.extractLsb' 0 16).toInt = w.toInt)
  | .int32 | .float32 | .float32Array => true

/-- The TypedValue a slot holds (00_scope.md R12, 10_state.md R53); floats are binary32 patterns. -/
inductive TypedValue where
  | bool (v : Bool)
  | uint8 (v : Nat)
  | int16 (v : Int)
  | int32 (v : Int)
  | float32 (p : Word)
  | float32Array (ps : List Word)
deriving DecidableEq, Repr

/-- `value_b(f)`, the TypedValue of the slot of `e` (44_record.md R290, 10_state.md R53). -/
def slotValue (val : WordStore) (e : FieldEntry) : TypedValue :=
  let w := storeGet 0#32 val e.vbase.toNat
  match e.kind with
  | .bool => .bool (w.getLsbD 0)
  | .uint8 => .uint8 w.toNat
  | .int16 => .int16 w.toInt
  | .int32 => .int32 w.toInt
  | .float32 => .float32 w
  | .float32Array => .float32Array (slotOf val e)

/-- One side of the record: the keys of its fields with their values, in index order (44_record.md R290). -/
def BankState.record (b : BankState) (side : Side) : List (List Byte × TypedValue) :=
  (b.schema.filter fun e => e.side == side).map fun e => (keyOf e.name, slotValue b.val e)

end Sys2Proof.Machine
end

