-- ==== Sys2Proof/Machine/Flags.lean ====
section
/-! DEFINITION. The status words and flags the host reads (10_state.md R31 to R35, R41, R43; 60_exceptions.md R310). -/

namespace Sys2Proof.Machine

/-- `STATUS.BUSY`: a command is in flight (10_state.md R55). -/
def State.busy (s : State) : Bool := s.inflight.isSome

/-- `STATUS.ERRV`: `ERR.CODE` is not 0 (10_state.md R32). -/
def State.errv (s : State) : Bool := s.errCode != 0#4

/-- The interrupt output `IRQ` (60_exceptions.md R310). -/
def State.irq (s : State) : Bool := s.ie && s.done

/-- The host interrupt line that is raised, if any: `IRQ` on the platform's line `IRQ_ROUTE` (60_exceptions.md R310). -/
def State.irqLine (s : State) : Option Nat := if s.irq then some Config.irqRoute else none

/-- `CTRL` as read (10_state.md R31). -/
def State.ctrlWord (s : State) : Word := wordOfBits [s.ie]

/-- `STATUS` as read: `BUSY`, `DONE`, `ERRV` in bits 0 to 2 (10_state.md R32). -/
def State.statusWord (s : State) : Word := wordOfBits [s.busy, s.done, s.errv]

/-- `ERR` as read: `CODE` in [3:0], `SUB` in [11:8] (10_state.md R34). -/
def State.errWord (s : State) : Word := (s.errSub.setWidth 32 <<< 8) ||| s.errCode.setWidth 32

/-- `BFLAGS_b` as read: `OVERLAP`, `LOADED` in bits 0 and 1 (10_state.md R43). -/
def BankState.flagsWord (b : BankState) : Word := wordOfBits [b.overlap, b.loaded]

/-- `P_OPTS` as read: `OVERLAP_IS_ERROR` in bit 0 (10_state.md R44). -/
def State.optsWord (s : State) : Word := wordOfBits [s.params.overlapIsError]

/-- Word 0 of an FTAB entry: `TYPE` in [2:0], `SIDE` in bit 3, `NAMELEN` in [15:8] (20_memory.md R106). -/
def FieldEntry.headWord (e : FieldEntry) : Word :=
  wordOfBits (lowBits 3 e.kind.code ++ [e.side.bit] ++ List.replicate 4 false ++ lowBits 8 e.nameLen)

end Sys2Proof.Machine
end

