-- ==== Sys2Proof/Machine/Bus.lean ====
section
/-! DEFINITION. The host bus: the register map, the regions, reads and writes, and host-protocol violations
(20_memory.md R100 to R109; 70_reset_and_hazards.md R350). Addresses are offsets from `ENGINE_BASE`. -/

namespace Sys2Proof.Machine

/-- The registers of 20_memory.md R104. -/
inductive Reg where
  | ident
  | ctrl
  | status
  | cmd
  | err
  | errInfo
  | wlen
  | blen
  | tlen
  | off
  | arg
  | res
  | nfields (b : Bank)
  | nwords (b : Bank)
  | bflags (b : Bank)
  | pNb
  | pNt
  | pNf
  | pNameMax
  | pNv
  | pOpts
deriving DecidableEq, Repr

/-- What a word address of the window reaches (20_memory.md R104 to R106); indices are bytes, bits' bytes, entries or words
of the region. -/
inductive Target where
  | reg (r : Reg)
  | wbuf (k : Nat)
  | bstr (k : Nat)
  | stxt (k : Nat)
  | ftab (b : Bank) (f w : Nat)
  | present (b : Bank) (k : Nat)
  | name (b : Bank) (f j : Nat)
  | val (b : Bank) (v : Nat)
  | unmapped
deriving DecidableEq, Repr

/-- The register map (20_memory.md R104). -/
def regAt (a : Nat) : Option Reg :=
  match a with
  | 0x000 => some .ident
  | 0x004 => some .ctrl
  | 0x008 => some .status
  | 0x00C => some .cmd
  | 0x010 => some .err
  | 0x014 => some .errInfo
  | 0x018 => some .wlen
  | 0x01C => some .blen
  | 0x020 => some .tlen
  | 0x024 => some .off
  | 0x028 => some .arg
  | 0x02C => some .res
  | 0x040 => some (.nfields .bank0)
  | 0x044 => some (.nwords .bank0)
  | 0x048 => some (.bflags .bank0)
  | 0x050 => some (.nfields .bank1)
  | 0x054 => some (.nwords .bank1)
  | 0x058 => some (.bflags .bank1)
  | 0x100 => some .pNb
  | 0x104 => some .pNt
  | 0x108 => some .pNf
  | 0x10C => some .pNameMax
  | 0x110 => some .pNv
  | 0x114 => some .pOpts
  | _ => none

/-- The bank layout (20_memory.md R106), at offset `o` from the bank's base; 1024 entries and 65536 words at most
(00_scope.md R6). -/
def bankTarget (b : Bank) (o : Nat) : Target :=
  if o < 0x8000 then .ftab b (o / 32) (o % 32 / 4)
  else if o < 0x8080 then .present b ((o - 0x8000) / 4)
  else if o < 0x10000 then .unmapped
  else if o < 0x50000 then .name b ((o - 0x10000) / 256) ((o - 0x10000) % 256)
  else if o < 0x80000 then .unmapped
  else if o < 0xC0000 then .val b ((o - 0x80000) / 4)
  else .unmapped

/-- The memory regions (20_memory.md R105); everything not listed is unmapped (R108). -/
def targetAt (a : Nat) : Target :=
  if a < 0x1000 then
    match regAt a with
    | some r => .reg r
    | none => .unmapped
  else if a < 0x10000 then .unmapped
  else if a < 0x20000 then .wbuf (a - 0x10000)
  else if a < 0x30000 then .bstr (a - 0x20000)
  else if a < 0x40000 then .stxt (a - 0x30000)
  else if a < 0x100000 then .unmapped
  else if a < 0x200000 then bankTarget .bank0 (a - 0x100000)
  else if a < 0x300000 then bankTarget .bank1 (a - 0x200000)
  else .unmapped

/-! ## Reads. No host read has a side effect (20_memory.md R117). -/

/-- A register as read (10_state.md R30 to R44). -/
def State.readReg (s : State) : Reg → Word
  | .ident => Config.engineId
  | .ctrl => s.ctrlWord
  | .status => s.statusWord
  | .cmd => s.cmd
  | .err => s.errWord
  | .errInfo => s.errInfo
  | .wlen => s.wlen
  | .blen => s.blen
  | .tlen => s.tlen
  | .off => s.off
  | .arg => s.arg
  | .res => s.res
  | .nfields b => (s.bank b).nfields
  | .nwords b => (s.bank b).nwords
  | .bflags b => (s.bank b).flagsWord
  | .pNb => BitVec.ofNat 32 s.params.nB
  | .pNt => BitVec.ofNat 32 s.params.nT
  | .pNf => BitVec.ofNat 32 s.params.nF
  | .pNameMax => BitVec.ofNat 32 s.params.nameMax
  | .pNv => BitVec.ofNat 32 s.params.nV
  | .pOpts => s.optsWord

/-- The bus word of four bytes at `k` of a byte memory of `size` bytes; a byte outside it reads 0 (20_memory.md R102). -/
def busBytes (m : Memory) (size k : Nat) : Word :=
  wordOfBits (bytesToBits ((List.range 4).map fun j => if k + j < size then storeGet 0#8 m (k + j) else 0#8))

/-- The bus word of 32 bits from bit `i` of a bit memory of `size` bits; a bit outside it reads 0 (20_memory.md R103, R107,
R108). -/
def busBits (m : BitStore) (size i : Nat) : Word :=
  wordOfBits ((List.range 32).map fun j => decide (i + j < size) && storeGet false m (i + j))

/-- Word `w` of an FTAB entry (20_memory.md R106). -/
def FieldEntry.busWord (e : FieldEntry) (w : Nat) : Word :=
  match w with
  | 0 => e.headWord
  | 1 => e.offset
  | 2 => e.alen
  | 3 => e.vbase
  | 4 => e.line
  | 5 => e.width
  | 6 => e.keyOff
  | _ => 0#32

/-- The bus word of four name bytes at `j`; bytes at or beyond `NAMELEN` read 0 (10_state.md R51, 20_memory.md R106). -/
def FieldEntry.busName (e : FieldEntry) (j : Nat) : Word :=
  wordOfBits (bytesToBits
    ((List.range 4).map fun i => if j + i < e.nameLen.toNat then e.name.getD (j + i) 0#8 else 0#8))

/-- The word a host read of a target returns (20_memory.md R102 to R108). -/
def State.readTarget (s : State) : Target → Word
  | .reg r => s.readReg r
  | .wbuf k => busBytes s.wbuf s.params.nB k
  | .bstr k => busBits s.bstr (8 * s.params.nB) (8 * k)
  | .stxt k => busBytes s.stxt s.params.nT k
  | .ftab b f w => ((s.bank b).entry f).busWord w
  | .present b k => busBits (s.bank b).present (s.bank b).nfields.toNat (32 * k)
  | .name b f j => ((s.bank b).entry f).busName j
  | .val b v => if v < (s.bank b).nwords.toNat then (s.bank b).word v else 0#32
  | .unmapped => 0#32

/-! ## Writes. A write to a read-only register or region, or to an unmapped address, is ignored (10_state.md R45,
20_memory.md R106, R108). -/

/-- A register write (10_state.md R31 to R45): `DONE` is write-1-to-clear, and an out-of-range length is ignored whole. -/
def State.writeReg (s : State) (r : Reg) (v : Word) : State :=
  match r with
  | .ctrl => { s with ie := v.getLsbD 0 }
  | .status => if v.getLsbD 1 then { s with done := false } else s
  | .cmd => s.startCommand v
  | .wlen => if v.toNat ≤ s.params.nB then { s with wlen := v } else s
  | .blen => if v.toNat ≤ 8 * s.params.nB then { s with blen := v } else s
  | .tlen => if v.toNat ≤ s.params.nT then { s with tlen := v } else s
  | .off => { s with off := v }
  | .arg => { s with arg := v }
  | .ident | .err | .errInfo | .res | .nfields _ | .nwords _ | .bflags _ => s
  | .pNb | .pNt | .pNf | .pNameMax | .pNv | .pOpts => s

/-- The four bytes of `v` written at `k`, those inside `size` only (20_memory.md R102). -/
def busPutBytes (m : Memory) (size k : Nat) (v : Word) : Memory := storeFill 0#8 m k ((wordBytes v).take (size - k))

/-- The 32 bits of `v` written from bit `i`, those inside `size` only (20_memory.md R103, R107). -/
def busPutBits (m : BitStore) (size i : Nat) (v : Word) : BitStore :=
  storeFill false m i ((lowBits 32 v).take (size - i))

/-- The state after a host write of a target (20_memory.md R102 to R108). -/
def State.writeTarget (s : State) (t : Target) (v : Word) : State :=
  match t with
  | .reg r => s.writeReg r v
  | .wbuf k => { s with wbuf := busPutBytes s.wbuf s.params.nB k v }
  | .bstr k => { s with bstr := busPutBits s.bstr (8 * s.params.nB) (8 * k) v }
  | .stxt k => { s with stxt := busPutBytes s.stxt s.params.nT k v }
  | .present b k =>
    s.setBank b { s.bank b with present := busPutBits (s.bank b).present (s.bank b).nfields.toNat (32 * k) v }
  | .val b i =>
    if i < (s.bank b).nwords.toNat then s.setBank b { s.bank b with val := storePut 0#32 (s.bank b).val i v } else s
  | .ftab _ _ _ | .name _ _ _ | .unmapped => s

/-! ## The access -/

/-- The byte offset of an access. -/
def Access.addr : Access → Nat
  | .read a _ => a
  | .write a _ _ => a

/-- The width of an access in bytes. -/
def Access.width : Access → Nat
  | .read _ n => n
  | .write _ n _ => n

/-- The offset of the platform address `p` from `ENGINE_BASE`; an address below it is not the engine's (20_memory.md R100;
log 13). -/
def platformOffset (p : Nat) : Option Nat := if Config.engineBase ≤ p then some (p - Config.engineBase) else none

/-- The registers a host may read while busy (20_memory.md R109). -/
def Reg.readableWhileBusy : Reg → Bool
  | .ident | .ctrl | .status | .cmd => true
  | .pNb | .pNt | .pNf | .pNameMax | .pNv | .pOpts => true
  | .err | .errInfo | .wlen | .blen | .tlen | .off | .arg | .res | .nfields _ | .nwords _ | .bflags _ => false

/-- The registers a host may write while busy (20_memory.md R109). -/
def Reg.writableWhileBusy : Reg → Bool
  | .ctrl | .status => true
  | .ident | .cmd | .err | .errInfo | .wlen | .blen | .tlen | .off | .arg | .res => false
  | .nfields _ | .nwords _ | .bflags _ | .pNb | .pNt | .pNf | .pNameMax | .pNv | .pOpts => false

/-- Whether the access is one that 20_memory.md R109 allows while a command is in flight. -/
def Access.allowedWhileBusy : Access → Bool
  | .read a _ =>
    match targetAt a with
    | .reg r => r.readableWhileBusy
    | _ => false
  | .write a _ _ =>
    match targetAt a with
    | .reg r => r.writableWhileBusy
    | _ => false

/-- A host-protocol violation (70_reset_and_hazards.md R350): a width other than 32 bits, an address that is not a multiple
of 4, or an access that is not allowed while busy. -/
def violates (s : State) (a : Access) : Bool :=
  a.width != 4 || a.addr % 4 != 0 || (s.busy && !a.allowedWhileBusy)

/-- What a violating access does (70_reset_and_hazards.md R350): `HOSTFAULT` is set and nothing else is written; a read
returns any 32-bit word, the free value `Config.violationRead` (log 5). -/
def State.violate (s : State) : Access → State
  | .read _ _ => { s with hostFault := true, hostRead := Config.violationRead s.draws, draws := s.draws + 1 }
  | .write _ _ _ => { s with hostFault := true }

/-- What an access that keeps the protocol does. -/
def State.access (s : State) : Access → State
  | .read a _ => { s with hostRead := s.readTarget (targetAt a) }
  | .write a _ v => s.writeTarget (targetAt a) v

/-- One host transition (20_memory.md R101). Outside the window the platform decides, so the model refuses (R108; I9;
log 7). -/
def busAccess (a : Access) (s : State) : Host.Outcome State Fault Refusal :=
  if Config.windowSize ≤ a.addr then .refused .outsideWindow
  else if violates s a then .next (s.violate a)
  else .next (s.access a)

end Sys2Proof.Machine
end

