-- ==== Sys2Proof/Machine/BitOrder.lean ====
section
/-! DEFINITION. The bit-order codec and the bit and byte windows (40_bitorder.md). -/

namespace Sys2Proof.Machine

/-- bytesToBits of the wire buffer into BSTR and BLEN (40_bitorder.md R170), shared by B2S and DECODE. -/
def State.bufferToString (s : State) : State :=
  { s with bstr := putWindow s.bstr 0 (bytesToBits (storeRead 0#8 s.wbuf 0 s.wlen.toNat)),
           blen := BitVec.ofNat 32 (8 * s.wlen.toNat) }

/-- bitsToBytes of the first `n` windows of BSTR into WBUF and WLEN (40_bitorder.md R171), shared by S2B and ENCODE. -/
def State.stringToBuffer (s : State) (n : Nat) : State :=
  { s with wbuf := storeFill 0#8 s.wbuf 0 (bitsToBytes (window s.bstr 0 (8 * n)) n), wlen := BitVec.ofNat 32 n }

/-- The state with the string `S` written in BSTR at `OFF`. -/
def State.writeWindow (s : State) (S : BitString) : State := { s with bstr := putWindow s.bstr s.off.toNat S }

/-- The string window of `n` characters at `OFF`. -/
def State.readWindow (s : State) (n : Nat) : BitString := window s.bstr s.off.toNat n

/-- LengthError with info 0, as every primitive and S2B raise it (60_exceptions.md R301). -/
def raiseLength : Raise := ⟨.lengthError, 0, 0⟩

/-- RangeError with info 0, as every writing primitive raises it (60_exceptions.md R301). -/
def raiseRange : Raise := ⟨.rangeError, 0, 0⟩

/-- `B2S` (40_bitorder.md R170). -/
def execB2s (s : State) : Host.Outcome State Fault Refusal := complete s (.ok s.bufferToString)

/-- `S2B` (40_bitorder.md R171). -/
def execS2b (s : State) : Host.Outcome State Fault Refusal :=
  complete s <|
    if s.blen.toNat % 8 ≠ 0 then .error raiseLength
    else .ok (s.stringToBuffer (s.blen.toNat / 8))

/-- `BITRD` (40_bitorder.md R172). -/
def execBitrd (s : State) : Host.Outcome State Fault Refusal :=
  complete s <|
    if s.windowPastEnd 1 then .error raiseLength
    else .ok { s with res := if s.bit s.off.toNat then 1#32 else 0#32 }

/-- `BITWR` (40_bitorder.md R173): the length check comes before the range check. -/
def execBitwr (s : State) : Host.Outcome State Fault Refusal :=
  complete s <|
    if s.windowPastEnd 1 then .error raiseLength
    else if 1 < s.arg.toNat then .error raiseRange
    else .ok (s.writeWindow (lowBits 1 s.arg))

/-- `U8RD` (40_bitorder.md R174). -/
def execU8rd (s : State) : Host.Outcome State Fault Refusal :=
  complete s <|
    if s.windowPastEnd 8 then .error raiseLength
    else .ok { s with res := BitVec.ofNat 32 (parseBits (rev (s.readWindow 8))) }

/-- `U8WR` (40_bitorder.md R175): `ARG` is read unsigned. -/
def execU8wr (s : State) : Host.Outcome State Fault Refusal :=
  complete s <|
    if s.windowPastEnd 8 then .error raiseLength
    else if 255 < s.arg.toNat then .error raiseRange
    else .ok (s.writeWindow (lowBits 8 s.arg))

end Sys2Proof.Machine
end

