-- ==== Sys2Proof/Machine/Control.lean ====
section
/-! DEFINITION. NOP (45_control.md R295). -/

namespace Sys2Proof.Machine

/-- `NOP`: no check and no effect on data state; it only completes (45_control.md R295). -/
def execNop (s : State) : Host.Outcome State Fault Refusal := complete s (.ok s)

end Sys2Proof.Machine
end

