-- ==== Sys2Proof/Machine/FloatWord.lean ====
section
/-! DEFINITION. The float-word codec commands (42_float_word.md) and the reading of a binary32 pattern (R225), which no
command uses. -/

namespace Sys2Proof.Machine

/-- `FWDEC` (42_float_word.md R222): the pattern is copied bit for bit. -/
def execFwdec (s : State) : Host.Outcome State Fault Refusal :=
  complete s <|
    if s.windowPastEnd 32 then .error raiseLength
    else .ok { s with res := fwdec (s.readWindow 32) }

/-- `FWENC` (42_float_word.md R224): every `ARG` is legal. -/
def execFwenc (s : State) : Host.Outcome State Fault Refusal :=
  complete s <|
    if s.windowPastEnd 32 then .error raiseLength
    else .ok (s.writeWindow (fwenc s.arg))

/-- What a binary32 pattern stands for (42_float_word.md R225; log 19, PRESUMED there as general knowledge). -/
inductive Binary32Value where
  | finite (q : Rat)
  | infinity (negative : Bool)
  | nan
deriving DecidableEq, Repr

/-- The sign, exponent and fraction fields of 42_float_word.md R225. -/
def binary32Fields (P : Word) : Bool × Nat × Nat := (P.getLsbD 31, (P.extractLsb' 23 8).toNat, (P.extractLsb' 0 23).toNat)

/-- The value formulas of 42_float_word.md R225. The engine never evaluates them. -/
def binary32Value (P : Word) : Binary32Value :=
  let (neg, e, f) := binary32Fields P
  let sign : Rat := if neg then -1 else 1
  if e = 255 then (if f = 0 then .infinity neg else .nan)
  else if e = 0 then .finite (sign * ((f : Rat) / 2 ^ 23) / 2 ^ 126)
  else .finite (sign * (1 + (f : Rat) / 2 ^ 23) * 2 ^ e / 2 ^ 127)

end Sys2Proof.Machine
end

