-- ==== Sys2Proof/Machine/Record.lean ====
section
/-! DEFINITION. The record codec commands DECODE and ENCODE (44_record.md). -/

namespace Sys2Proof.Machine

/-- The lowest field whose window passes the end of a buffer of `n` bytes (44_record.md R281). -/
def firstPastEnd (fields : List FieldEntry) (n : Nat) : Option Nat :=
  fields.findIdx? fun e => decide (8 * n < e.bitEnd)

/-- VAL after extracting the fields in index order (44_record.md R281, R283). -/
def extractAll (m : BitStore) (fields : List FieldEntry) (val : WordStore) : WordStore :=
  fields.foldl (fun v e => storeFill 0#32 v e.vbase.toNat (decodeSlot m e)) val

/-- `DECODE b` (44_record.md R281): all length checks, then bytesToBits, then every slot. -/
def execDecode (b : Bank) (s : State) : Host.Outcome State Fault Refusal :=
  complete s <|
    match firstPastEnd (s.bank b).schema s.wlen.toNat with
    | some f => .error ⟨.lengthError, 0, f⟩
    | none =>
      let t := s.bufferToString
      .ok (t.setBank b { s.bank b with val := extractAll t.bstr (s.bank b).schema (s.bank b).val })

/-- The lowest field of the bank whose presence bit is 0 (44_record.md R282, pass 1). -/
def BankState.firstMissing (b : BankState) : Option Nat :=
  (List.range b.nfields.toNat).find? fun f => !b.isPresent f

/-- The lowest field of the bank whose slot is not legal (44_record.md R282, pass 2). -/
def BankState.firstIllegal (b : BankState) : Option Nat :=
  b.schema.findIdx? fun e => !slotLegal b.val e

/-- `L`: the least number of bytes that covers every window (44_record.md R282, R288). -/
def bufferBytes (fields : List FieldEntry) : Nat := (fields.foldl (fun m e => max m e.bitEnd) 0 + 7) / 8

/-- BSTR after inserting the fields in index order; a higher index wins each shared bit (44_record.md R282, R284). -/
def insertAll (val : WordStore) (fields : List FieldEntry) (m : BitStore) : BitStore :=
  fields.foldl (fun m e => putWindow m e.offset.toNat (encodeSlot val e)) m

/-- `ENCODE b` (44_record.md R282): presence over all fields, then range, then the zeroed string, the windows, and
bitsToBytes. -/
def execEncode (b : Bank) (s : State) : Host.Outcome State Fault Refusal :=
  complete s <|
    match (s.bank b).firstMissing with
    | some f => .error ⟨.missingFieldError, 0, f⟩
    | none =>
      match (s.bank b).firstIllegal with
      | some f => .error ⟨.rangeError, 0, f⟩
      | none =>
        let n := bufferBytes (s.bank b).schema
        let zeroed := putWindow s.bstr 0 (List.replicate (8 * n) false)
        let t := { s with bstr := insertAll (s.bank b).val (s.bank b).schema zeroed, blen := BitVec.ofNat 32 (8 * n) }
        .ok (t.stringToBuffer n)

end Sys2Proof.Machine
end

