-- ==== Sys2Proof/Machine/Schema.lean ====
section
/-! DEFINITION. The schema parser (43_schema.md): lines, tokens, the checks (a) to (l), and PARSE. -/

namespace Sys2Proof.Machine

/-! ## Lexical rules -/

/-- The text cut at every line feed; `m` line feeds give `m + 1` lines (43_schema.md R241). -/
def splitLines : List Byte → List (List Byte)
  | [] => [[]]
  | c :: cs =>
    if c = 0x0A#8 then [] :: splitLines cs
    else
      match splitLines cs with
      | [] => [[c]]
      | l :: ls => (c :: l) :: ls

/-- The whitespace bytes HT, VT, FF, CR and space (43_schema.md R242). -/
def isSpace (c : Byte) : Bool := c == 0x09#8 || c == 0x0B#8 || c == 0x0C#8 || c == 0x0D#8 || c == 0x20#8

/-- The tokens of a line, `cur` being the token under way, reversed (43_schema.md R242). -/
def tokensFrom (cur : List Byte) : List Byte → List (List Byte)
  | [] => if cur = [] then [] else [cur.reverse]
  | c :: cs =>
    if isSpace c then (if cur = [] then tokensFrom [] cs else cur.reverse :: tokensFrom [] cs)
    else tokensFrom (c :: cur) cs

/-- `tokens(line)`: the maximal runs of bytes that are not whitespace, left to right (43_schema.md R242). -/
def tokens (line : List Byte) : List (List Byte) := tokensFrom [] line

/-- `DIGIT` (43_schema.md R244). -/
def isDigit (c : Byte) : Bool := decide (0x30 ≤ c.toNat) && decide (c.toNat ≤ 0x39)

/-- `BITDIGIT` (43_schema.md R244). -/
def isBitDigit (c : Byte) : Bool := decide (0x30 ≤ c.toNat) && decide (c.toNat ≤ 0x37)

/-- `dec(DIGIT+)`, the exact decimal value (43_schema.md R244). -/
def decimal (ds : List Byte) : Nat := ds.foldl (fun n c => 10 * n + (c.toNat - 0x30)) 0

/-- The value of an offset token `DIGIT+ "." BITDIGIT`, or none where it does not match (43_schema.md R244). -/
def offsetOf (tok : List Byte) : Option Nat :=
  match tok.takeWhile isDigit, tok.dropWhile isDigit with
  | d :: ds, [dot, b] =>
    if dot = 0x2E#8 ∧ isBitDigit b then some (8 * decimal (d :: ds) + (b.toNat - 0x30)) else none
  | _, _ => none

/-- The token of each type, in ASCII (43_schema.md R246; 00_scope.md R12; log 20): `BOOL`, `USINT`, `INT`, `DINT`, `REAL`,
`ARRAY_OF_REAL`. -/
def FieldKind.token : FieldKind → List Byte
  | .bool => [0x42#8, 0x4F#8, 0x4F#8, 0x4C#8]
  | .uint8 => [0x55#8, 0x53#8, 0x49#8, 0x4E#8, 0x54#8]
  | .int16 => [0x49#8, 0x4E#8, 0x54#8]
  | .int32 => [0x44#8, 0x49#8, 0x4E#8, 0x54#8]
  | .float32 => [0x52#8, 0x45#8, 0x41#8, 0x4C#8]
  | .float32Array =>
    [0x41#8, 0x52#8, 0x52#8, 0x41#8, 0x59#8, 0x5F#8, 0x4F#8, 0x46#8, 0x5F#8, 0x52#8, 0x45#8, 0x41#8, 0x4C#8]

/-- The type of a type token, matched byte for byte (43_schema.md R246). -/
def kindOf (tok : List Byte) : Option FieldKind :=
  [FieldKind.bool, .uint8, .int16, .int32, .float32, .float32Array].find? fun k => k.token == tok

/-- The value of an array length token `DIGIT+` with value at least 1 (43_schema.md R247). -/
def lengthOf (tok : List Byte) : Option Nat :=
  if tok ≠ [] ∧ tok.all isDigit ∧ decimal tok ≠ 0 then some (decimal tok) else none

/-! ## Checks -/

/-- The subcauses of SchemaError (43_schema.md R250). -/
inductive SchemaSub where
  | malformedOffset
  | missingToken
  | unknownType
  | missingLength
  | malformedLength
  | extraTokens
  | nameTooLong
  | duplicateName
  | tooManyFields
  | offsetRange
  | valCapacity
  | overlap
deriving DecidableEq, Repr

/-- `ERR.SUB` of a subcause (43_schema.md R250). -/
def SchemaSub.code : SchemaSub → Nat
  | .malformedOffset => 1
  | .missingToken => 2
  | .unknownType => 3
  | .missingLength => 4
  | .malformedLength => 5
  | .extraTokens => 6
  | .nameTooLong => 7
  | .duplicateName => 8
  | .tooManyFields => 9
  | .offsetRange => 10
  | .valCapacity => 11
  | .overlap => 12

/-- What a field line says once checks (a) to (f) have passed (43_schema.md R244 to R248). -/
structure LineFields where
  off : Nat
  name : List Byte
  kind : FieldKind
  alen : Nat
deriving DecidableEq, Repr

/-- Checks (d), (e) and (f): the tokens after the type token (43_schema.md R247, R248, R250). -/
def arrayLength (kind : FieldKind) (rest : List (List Byte)) : Except SchemaSub Nat :=
  match kind, rest with
  | .float32Array, [] => .error .missingLength
  | .float32Array, l :: extra =>
    match lengthOf l with
    | none => .error .malformedLength
    | some n => if extra = [] then .ok n else .error .extraTokens
  | _, [] => .ok 0
  | _, _ :: _ => .error .extraTokens

/-- Checks (a) to (f) of a line with tokens `first :: rest` (43_schema.md R250). -/
def readLine (first : List Byte) (rest : List (List Byte)) : Except SchemaSub LineFields :=
  match offsetOf first with
  | none => .error .malformedOffset
  | some off =>
    match rest with
    | name :: type :: more =>
      match kindOf type with
      | none => .error .unknownType
      | some kind =>
        match arrayLength kind more with
        | .error sub => .error sub
        | .ok n => .ok ⟨off, name, kind, n⟩
    | _ => .error .missingToken

/-- `overlaps(off, w, fields)`: the half-open bit ranges intersect (43_schema.md R253). -/
def overlaps (off w : Nat) (fields : List FieldEntry) : Bool :=
  fields.any fun g => decide (g.offset.toNat < off + w) && decide (off < g.bitEnd)

/-- What PARSE has collected so far: `fields`, `words` and `ovl` (43_schema.md R240). -/
structure ParseAcc where
  fields : List FieldEntry
  words : Nat
  ovl : Bool
deriving DecidableEq, Repr

/-- The start of PARSE (43_schema.md R240). -/
def ParseAcc.empty : ParseAcc := ⟨[], 0, false⟩

/-- Checks (g) to (l), the first that fails (43_schema.md R250). -/
def capacityCheck (p : Params) (acc : ParseAcc) (l : LineFields) : Option SchemaSub :=
  if p.nameMax < l.name.length then some .nameTooLong
  else if acc.fields.any (fun g => g.name == l.name) then some .duplicateName
  else if acc.fields.length = p.nF then some .tooManyFields
  else if 8 * p.nB < l.off + l.kind.width l.alen then some .offsetRange
  else if p.nV < acc.words + l.kind.words l.alen then some .valCapacity
  else if p.overlapIsError && overlaps l.off (l.kind.width l.alen) acc.fields then some .overlap
  else none

/-- The entry PARSE builds for line `k` (43_schema.md R240, 44_record.md R280). -/
def LineFields.entry (l : LineFields) (k vbase : Nat) : FieldEntry :=
  { kind := l.kind, side := sideOf l.name, nameLen := BitVec.ofNat 8 l.name.length, offset := BitVec.ofNat 32 l.off,
    alen := BitVec.ofNat 32 l.alen, vbase := BitVec.ofNat 32 vbase, line := BitVec.ofNat 32 k,
    width := BitVec.ofNat 32 (l.kind.width l.alen), keyOff := BitVec.ofNat 32 (keyOffOf l.name), name := l.name }

/-- The accumulator with the field of line `k` added (43_schema.md R240). -/
def ParseAcc.add (acc : ParseAcc) (l : LineFields) (k : Nat) : ParseAcc :=
  { fields := acc.fields ++ [l.entry k acc.words], words := acc.words + l.kind.words l.alen,
    ovl := acc.ovl || overlaps l.off (l.kind.width l.alen) acc.fields }

/-- `SchemaError(sub, k)` (43_schema.md R250). -/
def raiseSchema (sub : SchemaSub) (k : Nat) : Raise := ⟨.schemaError, sub.code, k⟩

/-- One line of the loop of 43_schema.md R240; a blank line is skipped (R243). -/
def parseLine (p : Params) (k : Nat) (line : List Byte) (acc : ParseAcc) : Except Raise ParseAcc :=
  match tokens line with
  | [] => .ok acc
  | first :: rest =>
    match readLine first rest with
    | .error sub => .error (raiseSchema sub k)
    | .ok l =>
      match capacityCheck p acc l with
      | some sub => .error (raiseSchema sub k)
      | none => .ok (acc.add l k)

/-- The lines from line `k` on (43_schema.md R240). -/
def parseLines (p : Params) (k : Nat) : List (List Byte) → ParseAcc → Except Raise ParseAcc
  | [], acc => .ok acc
  | line :: ls, acc =>
    match parseLine p k line acc with
    | .error e => .error e
    | .ok acc' => parseLines p (k + 1) ls acc'

/-- The whole text; line numbers start at 1 and count blank lines (43_schema.md R240, R241). -/
def parseText (p : Params) (text : List Byte) : Except Raise ParseAcc := parseLines p 1 (splitLines text) ParseAcc.empty

/-- The text `STXT[0, TLEN)` (10_state.md R38, R49). -/
def State.schemaText (s : State) : List Byte := storeRead 0#8 s.stxt 0 s.tlen.toNat

/-- The bank a successful PARSE commits: the new schema, every value and presence bit 0 (43_schema.md R240, R254). -/
def committedBank (acc : ParseAcc) : BankState :=
  { nfields := BitVec.ofNat 32 acc.fields.length, nwords := BitVec.ofNat 32 acc.words, overlap := acc.ovl, loaded := true,
    fields := acc.fields, present := [], val := [] }

/-- `PARSE b` (43_schema.md R240): commit a whole new schema, or raise and leave the bank as it was (R255). -/
def execParse (b : Bank) (s : State) : Host.Outcome State Fault Refusal :=
  complete s <|
    match parseText s.params s.schemaText with
    | .error e => .error e
    | .ok acc => .ok (s.setBank b (committedBank acc))

end Sys2Proof.Machine
end

