-- ==== Sys2Proof/Machine/SignedWord.lean ====
section
/-! DEFINITION. The signed-word codec commands (41_signed_word.md). -/

namespace Sys2Proof.Machine

/-- UnsupportedWidthError with info 0 (60_exceptions.md R301). -/
def raiseWidth : Raise := ⟨.unsupportedWidthError, 0, 0⟩

/-- `SWDEC w` (41_signed_word.md R202): the width check first, then the length check; the result is stored mod 2^32. -/
def execSwdec (w : Nat) (s : State) : Host.Outcome State Fault Refusal :=
  complete s <|
    match swdec (s.readWindow w) w with
    | none => .error raiseWidth
    | some v => if s.windowPastEnd w then .error raiseLength else .ok { s with res := BitVec.ofInt 32 v }

/-- `SWENC w` (41_signed_word.md R204): width, then length, then range; at width 32 every `ARG` fits. -/
def execSwenc (w : Nat) (s : State) : Host.Outcome State Fault Refusal :=
  complete s <|
    if !widthSupported w then .error raiseWidth
    else if s.windowPastEnd w then .error raiseLength
    else if !fitsSigned w s.arg then .error raiseRange
    else .ok (s.writeWindow (swenc s.arg w))

end Sys2Proof.Machine
end

