-- ==== Sys2Proof/Machine/Dispatch.lean ====
section
/-! DEFINITION. One arm per command (30_encoding.md R142). -/

namespace Sys2Proof.Machine

def exec (i : Instr) (s : State) : Host.Outcome State Fault Refusal :=
  match i with
  | .nop => Sys2Proof.Machine.execNop s
  | .b2s => Sys2Proof.Machine.execB2s s
  | .s2b => Sys2Proof.Machine.execS2b s
  | .bitrd => Sys2Proof.Machine.execBitrd s
  | .bitwr => Sys2Proof.Machine.execBitwr s
  | .u8rd => Sys2Proof.Machine.execU8rd s
  | .u8wr => Sys2Proof.Machine.execU8wr s
  | .swdec w => Sys2Proof.Machine.execSwdec w s
  | .swenc w => Sys2Proof.Machine.execSwenc w s
  | .fwdec => Sys2Proof.Machine.execFwdec s
  | .fwenc => Sys2Proof.Machine.execFwenc s
  | .parse b => Sys2Proof.Machine.execParse b s
  | .decode b => Sys2Proof.Machine.execDecode b s
  | .encode b => Sys2Proof.Machine.execEncode b s

end Sys2Proof.Machine
end

