-- ==== Sys2Proof/Machine/Step.lean ====
section
/-! DEFINITION. One step: the engine's turn or the host's (10_state.md R46, 20_memory.md R120, 60_exceptions.md R300). -/

namespace Sys2Proof.Machine

/-- The engine's turn (60_exceptions.md R300): decode the word in flight and run its rule; a word that spells no command
raises IllegalCommand (30_encoding.md R140). With nothing in flight the engine is idle and keeps its state
(60_exceptions.md R317). -/
def engineTurn (s : State) : Host.Outcome State Fault Refusal :=
  match s.fetch with
  | none => .next s
  | some c =>
    match decodeWord c with
    | .ok i => exec i s
    | .error _ => illegalCommand s

/-- One transition of the interleaving (20_memory.md R120): the agent at the head of the agenda moves; when the agenda is
empty the engine moves (log 2, log 15). -/
def step (s : State) : Host.Outcome State Fault Refusal :=
  match s.agenda with
  | [] => engineTurn s
  | .engine :: rest => engineTurn { s with agenda := rest }
  | .host a :: rest => busAccess a { s with agenda := rest }

/-- `s` with the command word of an opcode-table row in flight, as a host write of CMD puts it there (10_state.md R33), and
the engine's turn next: no host turn stands before it (log 3). -/
def State.withFetchWord (s : State) (nbits w : Nat) : State :=
  { s.startCommand (commandOfTableBits nbits w) with agenda := [] }

end Sys2Proof.Machine
end

