-- ==== Sys2Proof/Machine/HostNotation.lean ====
section
/-! DEFINITION. The host-program notation of 30_encoding.md R149: pseudo-instructions that expand to host turns. They are
host actions, not commands. -/

namespace Sys2Proof.Machine

/-- `WR offset, v` (30_encoding.md R149). -/
def hostWrite (offset : Nat) (v : Word) : Turn := .host (.write offset 4 v)

/-- `RD offset` (30_encoding.md R149). -/
def hostReadTurn (offset : Nat) : Turn := .host (.read offset 4)

/-- `WAIT` (30_encoding.md R149) in the interleaving where `polls` reads of STATUS come before the completion and the next one
sees `BUSY` = 0 (log 17). -/
def hostWait (polls : Nat) : List Turn := List.replicate polls (hostReadTurn 0x008) ++ [.engine, hostReadTurn 0x008]

/-- `DO i` (30_encoding.md R149): write the command word, then `WAIT`. -/
def hostDo (i : Instr) (polls : Nat) : List Turn := hostWrite 0x00C (encode i) :: hostWait polls

/-- `WRBYTES` from region offset `o` (30_encoding.md R149): one write per four bytes, the last word padded with 0. -/
def hostWriteBytes (o : Nat) : List Byte → List Turn
  | [] => []
  | [b0] => [hostWrite o (wordOfBits (bytesToBits [b0]))]
  | [b0, b1] => [hostWrite o (wordOfBits (bytesToBits [b0, b1]))]
  | [b0, b1, b2] => [hostWrite o (wordOfBits (bytesToBits [b0, b1, b2]))]
  | b0 :: b1 :: b2 :: b3 :: rest =>
    hostWrite o (wordOfBits (bytesToBits [b0, b1, b2, b3])) :: hostWriteBytes (o + 4) rest

end Sys2Proof.Machine
end

