-- ==== Sys2Proof/Safety.lean ====
section
/-! DEFINITION. The terms statements use: the two ways a command ends, the invariants of a bank and of the state
(10_state.md R36 to R38, R46, R54), safe states, and the spec's tables of checks and error codes. -/

namespace Sys2Proof.Machine

/-! ## How a command ends, written out (60_exceptions.md R300) -/

/-- The state after a completion without error that writes no data. -/
def State.okDone (s : State) : State :=
  { s with errCode := 0#4, errSub := 0#4, errInfo := 0#32, inflight := none, done := true }

/-- The state after a completion with the given error record; nothing else differs from `s`. -/
def State.errDone (s : State) (code : BitVec 4) (sub : BitVec 4) (info : Word) : State :=
  { s with errCode := code, errSub := sub, errInfo := info, inflight := none, done := true }

/-! ## Safe states -/

/-- No host-protocol violation has happened (70_reset_and_hazards.md R350): only such a state supports a claim about a
correct outcome. -/
def State.Safe (s : State) : Prop := s.hostFault = false

/-! ## Fields and windows -/

/-- Position `i` lies in the window of `e` (43_schema.md R253: half-open ranges). -/
def FieldEntry.Covers (e : FieldEntry) (i : Nat) : Prop := e.offset.toNat ≤ i ∧ i < e.bitEnd

/-- The windows of two fields do not intersect (43_schema.md R253). -/
def FieldEntry.Disjoint (e g : FieldEntry) : Prop := e.bitEnd ≤ g.offset.toNat ∨ g.bitEnd ≤ e.offset.toNat

/-- Word `v` lies in the slot of `e` (10_state.md R53). -/
def FieldEntry.OwnsWord (e : FieldEntry) (v : Nat) : Prop := e.vbase.toNat ≤ v ∧ v < e.vbase.toNat + e.words

/-- The part of a bank that is its schema (20_memory.md R123). -/
def BankState.schemaPart (b : BankState) : Word × Word × Bool × Bool × List FieldEntry :=
  (b.nfields, b.nwords, b.overlap, b.loaded, b.fields)

/-- The other bank. -/
def Bank.other : Bank → Bank
  | .bank0 => .bank1
  | .bank1 => .bank0

/-! ## Invariants -/

/-- The slots of the fields follow each other from word `base` up to word `top` (10_state.md R54, item 1). -/
def slotsTile (base : Nat) : List FieldEntry → Nat → Bool
  | [], top => decide (base = top)
  | e :: es, top => decide (e.vbase.toNat = base) && slotsTile (base + e.words) es top

/-- What PARSE guarantees of one entry (10_state.md R50 and R54, items 2, 3, 5 and 6). -/
structure FieldEntry.Wf (p : Params) (e : FieldEntry) : Prop where
  window_fits : e.bitEnd ≤ 8 * p.nB
  name_length : 1 ≤ e.name.length ∧ e.name.length ≤ p.nameMax
  name_len : e.nameLen.toNat = e.name.length
  array_length : 1 ≤ e.alen.toNat ↔ e.kind = .float32Array
  width_eq : e.width.toNat = e.kind.width e.alen.toNat
  side_eq : e.side = sideOf e.name
  key_off : e.keyOff.toNat = keyOffOf e.name

/-- The invariants of a bank (10_state.md R42, R43, R52 to R54). -/
structure BankState.Wf (p : Params) (b : BankState) : Prop where
  nfields_eq : b.fields.length = b.nfields.toNat
  nfields_le : b.nfields.toNat ≤ p.nF
  nwords_le : b.nwords.toNat ≤ p.nV
  tile : slotsTile 0 b.fields b.nwords.toNat = true
  entries : ∀ e ∈ b.fields, e.Wf p
  names : (b.fields.map FieldEntry.name).Nodup
  present_wf : BitStore.wf b.present = true
  present_below : storeBelow b.nfields.toNat b.present = true
  val_wf : WordStore.wf b.val = true
  val_below : storeBelow b.nwords.toNat b.val = true
  unloaded_empty : b.loaded = false → b.fields = [] ∧ b.overlap = false

/-- The invariants of the state: the lengths in range (10_state.md R36 to R38), the memories in canonical form and inside their
size (R47 to R49), the banks (R54), a command in flight is the one in CMD and DONE is 0 (R32, R33, R46), and the error record
is one of 60_exceptions.md R301. -/
structure State.Inv (s : State) : Prop where
  params_legal : s.params.Legal
  wlen_le : s.wlen.toNat ≤ s.params.nB
  blen_le : s.blen.toNat ≤ 8 * s.params.nB
  tlen_le : s.tlen.toNat ≤ s.params.nT
  wbuf_wf : Memory.wf s.wbuf = true
  wbuf_below : storeBelow s.params.nB s.wbuf = true
  bstr_wf : BitStore.wf s.bstr = true
  bstr_below : storeBelow (8 * s.params.nB) s.bstr = true
  stxt_wf : Memory.wf s.stxt = true
  stxt_below : storeBelow s.params.nT s.stxt = true
  bank0_wf : s.bank0.Wf s.params
  bank1_wf : s.bank1.Wf s.params
  in_flight : ∀ c, s.inflight = some c → s.cmd = c ∧ s.done = false
  err_code : s.errCode.toNat ≤ 6
  err_sub : s.errSub.toNat ≤ 12 ∧ (s.errSub ≠ 0#4 ↔ s.errCode = 1#4)
  err_info : s.errCode = 0#4 ∨ s.errCode = 5#4 ∨ s.errCode = 6#4 → s.errInfo = 0#32

/-! ## Tables of the spec -/

/-- The error codes a command can end with besides 0 (60_exceptions.md R301, R302). -/
def raisable : Instr → List (BitVec 4)
  | .nop | .b2s => []
  | .s2b | .bitrd | .u8rd | .fwdec | .fwenc => [2#4]
  | .bitwr | .u8wr => [2#4, 3#4]
  | .swdec _ => [5#4, 2#4]
  | .swenc _ => [5#4, 2#4, 3#4]
  | .parse _ => [1#4]
  | .decode _ => [2#4]
  | .encode _ => [4#4, 3#4]

/-- The commands whose success writes RES (10_state.md R39). -/
def writesRes : Instr → Bool
  | .bitrd | .u8rd | .swdec _ | .fwdec => true
  | .nop | .b2s | .s2b | .bitwr | .u8wr | .swenc _ | .fwenc | .parse _ | .decode _ | .encode _ => false

/-- The bank a command may write, if any (30_encoding.md R145). -/
def writesBank : Instr → Option Bank
  | .parse b | .decode b => some b
  | .nop | .b2s | .s2b | .bitrd | .bitwr | .u8rd | .u8wr | .swdec _ | .swenc _ | .fwdec | .fwenc | .encode _ => none

/-- The type of a field line, where token 3 is a type token (43_schema.md R246). -/
def lineKind (toks : List (List Byte)) : FieldKind := (kindOf (toks.getD 2 [])).getD .bool

/-- The array length of a field line, 0 for a scalar type (43_schema.md R247). -/
def lineLength (toks : List (List Byte)) : Nat :=
  match lineKind toks with
  | .float32Array => decimal (toks.getD 3 [])
  | .bool | .uint8 | .int16 | .int32 | .float32 => 0

/-- The offset of a field line, where token 1 is an offset token (43_schema.md R244). -/
def lineOffset (toks : List (List Byte)) : Nat := (offsetOf (toks.getD 0 [])).getD 0

/-- The failing conditions of checks (a) to (l), in order, exactly as the table of 43_schema.md R250 lists them. -/
def lineChecks (p : Params) (fields : List FieldEntry) (words : Nat) (toks : List (List Byte)) : List Bool :=
  let array := lineKind toks == .float32Array
  let width := (lineKind toks).width (lineLength toks)
  [ (offsetOf (toks.getD 0 [])).isNone,
    decide (toks.length < 3),
    (kindOf (toks.getD 2 [])).isNone,
    array && decide (toks.length = 3),
    array && (!(toks.getD 3 []).all isDigit || toks.getD 3 [] == [] || decide (decimal (toks.getD 3 []) = 0)),
    if array then decide (4 < toks.length) else decide (3 < toks.length),
    decide (p.nameMax < (toks.getD 1 []).length),
    fields.any fun g => g.name == toks.getD 1 [],
    decide (fields.length = p.nF),
    decide (8 * p.nB < lineOffset toks + width),
    decide (p.nV < words + (lineKind toks).words (lineLength toks)),
    p.overlapIsError && fields.any fun g =>
      decide (g.offset.toNat < lineOffset toks + width) && decide (lineOffset toks < g.offset.toNat + g.width.toNat) ]

/-- The entry 43_schema.md R240 adds for the field line `toks` of line `k`, with `words` VAL words used before it. -/
def lineEntry (toks : List (List Byte)) (k words : Nat) : FieldEntry :=
  { kind := lineKind toks, side := sideOf (toks.getD 1 []), nameLen := BitVec.ofNat 8 (toks.getD 1 []).length,
    offset := BitVec.ofNat 32 (lineOffset toks), alen := BitVec.ofNat 32 (lineLength toks), vbase := BitVec.ofNat 32 words,
    line := BitVec.ofNat 32 k, width := BitVec.ofNat 32 ((lineKind toks).width (lineLength toks)),
    keyOff := BitVec.ofNat 32 (keyOffOf (toks.getD 1 [])), name := toks.getD 1 [] }

end Sys2Proof.Machine
end

