-- ==== Sys2Proof/Certificates/Slice0/Obligations.lean ====
section
/-! DEFINITION. The statements for the provers, in the order of OBLIGATIONS.json. -/

open Sys2Proof Sys2Proof.Machine

/-! ## Encoding (30_encoding.md) -/

/-- 30_encoding.md R140, R148: every well-formed command decodes from its word. -/
def Obligations.DecodeOfEncode : Prop :=
  ∀ i : Instr, i.wellFormed = true → decodeWord (encode i) = .ok i

/-- 30_encoding.md R140, R148: each word spells at most one command, which is well-formed. -/
def Obligations.EncodeOfDecode : Prop :=
  ∀ (c : Word) (i : Instr), decodeWord c = .ok i → encode i = c ∧ i.wellFormed = true

/-- 30_encoding.md R148: the rule's example words decode to the commands the rule names. -/
def Obligations.SpecExampleWordsDecode : Prop :=
  decodeWord 0x00100014#32 = .ok (.swdec 16) ∧ decodeWord 0x00200015#32 = .ok (.swenc 32) ∧
  decodeWord 0x00000120#32 = .ok (.parse .bank1) ∧ decodeWord 0x00000021#32 = .ok (.decode .bank0) ∧
  decodeWord 0x00000122#32 = .ok (.encode .bank1) ∧ decodeWord 0x00000000#32 = .ok .nop

/-- 30_encoding.md R140, R147: every word that spells no command completes with IllegalCommand and changes nothing else, at
the engine's turn with an empty agenda and at one taken from the agenda (log 2). -/
def Obligations.IllegalWordsRaiseIllegalCommand : Prop :=
  ∀ (s : State) (c : Word), s.inflight = some c → (∀ i : Instr, i.wellFormed = true → encode i ≠ c) →
    (s.agenda = [] → step s = .next (s.errDone 6#4 0#4 0#32)) ∧
    (∀ rest, s.agenda = .engine :: rest → step s = .next (({ s with agenda := rest } : State).errDone 6#4 0#4 0#32))

/-! ## Steps (10_state.md R46, 60_exceptions.md R300) -/

/-- 10_state.md R46, 60_exceptions.md R300, R317: the engine's turn runs the command the word in flight decodes to; a turn
taken from the agenda is consumed; with nothing in flight the engine keeps all its state. -/
def Obligations.EngineTurnRunsTheCommandInFlight : Prop :=
  (∀ (s : State) (c : Word) (i : Instr), s.inflight = some c → decodeWord c = .ok i →
    (s.agenda = [] → step s = exec i s) ∧
    (∀ rest, s.agenda = .engine :: rest → step s = exec i { s with agenda := rest })) ∧
  (∀ s : State, s.inflight = none →
    (s.agenda = [] → step s = .next s) ∧
    (∀ rest, s.agenda = .engine :: rest → step s = .next { s with agenda := rest }))

/-- 10_state.md R39, R46, 60_exceptions.md R305, R310: every command completes; nothing is in flight, DONE is 1, IRQ follows IE,
and no command writes CMD, CTRL, TLEN, OFF, ARG, STXT, the parameters or HOSTFAULT. -/
def Obligations.EveryCommandCompletes : Prop :=
  ∀ (i : Instr) (s : State), ∃ t, exec i s = .next t ∧ t.inflight = none ∧ t.done = true ∧ t.irq = s.ie ∧
    t.cmd = s.cmd ∧ t.ie = s.ie ∧ t.tlen = s.tlen ∧ t.off = s.off ∧ t.arg = s.arg ∧ t.stxt = s.stxt ∧
    t.params = s.params ∧ t.hostFault = s.hostFault ∧ t.agenda = s.agenda ∧ t.hostRead = s.hostRead ∧ t.draws = s.draws

/-- 70_reset_and_hazards.md R357 (progress) over the model's finite agenda (log 15): a command in flight completes within as
many steps as there are turns left, and one more. The agenda may hold violating accesses, after which the model goes on with
HOSTFAULT set (log 6); accesses outside the window are refused by the model (log 7) and so excluded. -/
def Obligations.CommandCompletesWithinTheAgenda : Prop :=
  ∀ (s : State) (c : Word), s.inflight = some c → (∀ a, Turn.host a ∈ s.agenda → a.addr < 0x300000) →
    ∃ (k : Nat) (t : State), k ≤ s.agenda.length + 1 ∧ Host.Core.run Sys2Proof.core k s = .next t ∧
      t.inflight = none ∧ t.done = true

/-! ## NOP and the bit-order codec (45_control.md, 40_bitorder.md) -/

/-- 45_control.md R295. -/
def Obligations.NopOnlyCompletes : Prop :=
  encode .nop = 0x00000000#32 ∧ ∀ s : State, exec .nop s = .next s.okDone

/-- 40_bitorder.md R170: bits, length, and everything else unchanged. -/
def Obligations.B2sWritesTheBitString : Prop :=
  encode .b2s = 0x00000001#32 ∧
  ∀ s : State, ∃ t, exec .b2s s = .next t ∧
    t = { s.okDone with bstr := t.bstr, blen := BitVec.ofNat 32 (8 * s.wlen.toNat) } ∧
    (∀ B i, B < s.wlen.toNat → i < 8 → t.bit (8 * B + i) = (s.byte B).getLsbD i) ∧
    (∀ p, 8 * s.wlen.toNat ≤ p → t.bit p = s.bit p)

/-- 40_bitorder.md R171: LengthError exactly off a byte boundary, else bytes, length, and everything else unchanged. -/
def Obligations.S2bWritesTheBytes : Prop :=
  encode .s2b = 0x00000002#32 ∧
  (∀ s : State, s.blen.toNat % 8 ≠ 0 → exec .s2b s = .next (s.errDone 2#4 0#4 0#32)) ∧
  ∀ s : State, s.blen.toNat % 8 = 0 → ∃ t, exec .s2b s = .next t ∧
    t = { s.okDone with wbuf := t.wbuf, wlen := BitVec.ofNat 32 (s.blen.toNat / 8) } ∧
    (∀ B i, B < s.blen.toNat / 8 → i < 8 → (t.byte B).getLsbD i = s.bit (8 * B + i)) ∧
    (∀ a, s.blen.toNat / 8 ≤ a → t.byte a = s.byte a) ∧
    (s.blen.toNat ≤ 8 * s.params.nB → t.wlen.toNat ≤ s.params.nB)

/-- 40_bitorder.md R177, both laws. -/
def Obligations.B2sAndS2bAreInverse : Prop :=
  (∀ s : State, s.params.Legal → s.wlen.toNat ≤ s.params.nB → ∃ t u, exec .b2s s = .next t ∧ exec .s2b t = .next u ∧
    t.errCode = 0#4 ∧ u.errCode = 0#4 ∧ u.wlen = s.wlen ∧ (∀ a, a < s.wlen.toNat → u.byte a = s.byte a)) ∧
  (∀ s : State, s.blen.toNat % 8 = 0 → ∃ t u, exec .s2b s = .next t ∧ exec .b2s t = .next u ∧
    t.errCode = 0#4 ∧ u.errCode = 0#4 ∧ u.blen = s.blen ∧ (∀ p, p < s.blen.toNat → u.bit p = s.bit p))

/-- 40_bitorder.md R172. -/
def Obligations.BitrdReadsOneBit : Prop :=
  encode .bitrd = 0x00000010#32 ∧
  (∀ s : State, s.blen.toNat < s.off.toNat + 1 → exec .bitrd s = .next (s.errDone 2#4 0#4 0#32)) ∧
  ∀ s : State, s.off.toNat + 1 ≤ s.blen.toNat →
    exec .bitrd s = .next { s.okDone with res := if s.bit s.off.toNat then 1#32 else 0#32 }

/-- 40_bitorder.md R173. -/
def Obligations.BitwrWritesOneBit : Prop :=
  encode .bitwr = 0x00000011#32 ∧
  (∀ s : State, s.blen.toNat < s.off.toNat + 1 → exec .bitwr s = .next (s.errDone 2#4 0#4 0#32)) ∧
  (∀ s : State, s.off.toNat + 1 ≤ s.blen.toNat → s.arg ≠ 0#32 → s.arg ≠ 1#32 →
    exec .bitwr s = .next (s.errDone 3#4 0#4 0#32)) ∧
  ∀ s : State, s.off.toNat + 1 ≤ s.blen.toNat → s.arg = 0#32 ∨ s.arg = 1#32 → ∃ t, exec .bitwr s = .next t ∧
    t = { s.okDone with bstr := t.bstr } ∧ t.bit s.off.toNat = s.arg.getLsbD 0 ∧
    (∀ p, p ≠ s.off.toNat → t.bit p = s.bit p)

/-- 40_bitorder.md R174. -/
def Obligations.U8rdReadsOneByte : Prop :=
  encode .u8rd = 0x00000012#32 ∧
  (∀ s : State, s.blen.toNat < s.off.toNat + 8 → exec .u8rd s = .next (s.errDone 2#4 0#4 0#32)) ∧
  ∀ s : State, s.off.toNat + 8 ≤ s.blen.toNat →
    exec .u8rd s = .next { s.okDone with res := BitVec.ofNat 32 (wbyte s.bit s.off.toNat 0) } ∧
    wbyte s.bit s.off.toNat 0 ≤ 255

/-- 40_bitorder.md R175. -/
def Obligations.U8wrWritesOneByte : Prop :=
  encode .u8wr = 0x00000013#32 ∧
  (∀ s : State, s.blen.toNat < s.off.toNat + 8 → exec .u8wr s = .next (s.errDone 2#4 0#4 0#32)) ∧
  (∀ s : State, s.off.toNat + 8 ≤ s.blen.toNat → 255 < s.arg.toNat →
    exec .u8wr s = .next (s.errDone 3#4 0#4 0#32)) ∧
  ∀ s : State, s.off.toNat + 8 ≤ s.blen.toNat → s.arg.toNat ≤ 255 → ∃ t, exec .u8wr s = .next t ∧
    t = { s.okDone with bstr := t.bstr } ∧ (∀ i, i < 8 → t.bit (s.off.toNat + i) = s.arg.getLsbD i) ∧
    (∀ p, p < s.off.toNat ∨ s.off.toNat + 8 ≤ p → t.bit p = s.bit p)

/-- 40_bitorder.md R178. -/
def Obligations.WindowWriteThenReadGivesArg : Prop :=
  (∀ s : State, s.off.toNat + 1 ≤ s.blen.toNat → s.arg = 0#32 ∨ s.arg = 1#32 → ∃ t u,
    exec .bitwr s = .next t ∧ exec .bitrd t = .next u ∧ u.errCode = 0#4 ∧ u.res = s.arg) ∧
  (∀ s : State, s.off.toNat + 8 ≤ s.blen.toNat → s.arg.toNat ≤ 255 → ∃ t u,
    exec .u8wr s = .next t ∧ exec .u8rd t = .next u ∧ u.errCode = 0#4 ∧ u.res = s.arg)

/-! ## The signed-word codec (41_signed_word.md) -/

/-- 41_signed_word.md R203: the encoded window is be_write of the pattern, and the only window that decodes to the value. -/
def Obligations.SwencIsTheInverseOfSwdec : Prop :=
  ∀ (u : Word) (w : Nat), w = 16 ∨ w = 32 →
    (swenc u w).length = w ∧ (∀ p, p < w → (swenc u w).getD p false = beBit w u p) ∧
    swdec (swenc u w) w = some (u.setWidth w).toInt ∧
    (∀ S : BitString, S.length = w → swdec S w = some (u.setWidth w).toInt → S = swenc u w)

/-- 41_signed_word.md R202. -/
def Obligations.SwdecDecodesTheWindow : Prop :=
  (∀ w, w ≤ 255 → encode (.swdec w) = BitVec.ofNat 32 (0x14 + 65536 * w)) ∧
  (∀ (s : State) (w : Nat), w ≠ 16 → w ≠ 32 → exec (.swdec w) s = .next (s.errDone 5#4 0#4 0#32)) ∧
  (∀ (s : State) (w : Nat), w = 16 ∨ w = 32 → s.blen.toNat < s.off.toNat + w →
    exec (.swdec w) s = .next (s.errDone 2#4 0#4 0#32)) ∧
  ∀ (s : State) (w : Nat), w = 16 ∨ w = 32 → s.off.toNat + w ≤ s.blen.toNat →
    ∃ v : Int, swdec (window s.bstr s.off.toNat w) w = some v ∧
      v = (BitVec.ofNat w (beRead s.bit s.off.toNat w)).toInt ∧
      exec (.swdec w) s = .next { s.okDone with res := BitVec.ofInt 32 v }

/-- 41_signed_word.md R204. -/
def Obligations.SwencWritesTheWindow : Prop :=
  (∀ w, w ≤ 255 → encode (.swenc w) = BitVec.ofNat 32 (0x15 + 65536 * w)) ∧
  (∀ (s : State) (w : Nat), w ≠ 16 → w ≠ 32 → exec (.swenc w) s = .next (s.errDone 5#4 0#4 0#32)) ∧
  (∀ (s : State) (w : Nat), w = 16 ∨ w = 32 → s.blen.toNat < s.off.toNat + w →
    exec (.swenc w) s = .next (s.errDone 2#4 0#4 0#32)) ∧
  (∀ s : State, s.off.toNat + 16 ≤ s.blen.toNat → s.arg.toInt < -32768 ∨ 32767 < s.arg.toInt →
    exec (.swenc 16) s = .next (s.errDone 3#4 0#4 0#32)) ∧
  ∀ (s : State) (w : Nat), (w = 16 ∧ -32768 ≤ s.arg.toInt ∧ s.arg.toInt ≤ 32767) ∨ w = 32 →
    s.off.toNat + w ≤ s.blen.toNat → ∃ t, exec (.swenc w) s = .next t ∧ t = { s.okDone with bstr := t.bstr } ∧
      (∀ p, p < w → t.bit (s.off.toNat + p) = beBit w s.arg p) ∧
      (∀ p, p < s.off.toNat ∨ s.off.toNat + w ≤ p → t.bit p = s.bit p)

/-- 41_signed_word.md R205. -/
def Obligations.SwencThenSwdecGivesTheValue : Prop :=
  ∀ (s : State) (w : Nat) (v : Int), w = 16 ∨ w = 32 → -(2 ^ (w - 1) : Int) ≤ v → v < 2 ^ (w - 1) →
    s.arg = BitVec.ofInt 32 v → s.off.toNat + w ≤ s.blen.toNat → ∃ t u,
      exec (.swenc w) s = .next t ∧ exec (.swdec w) t = .next u ∧ u.errCode = 0#4 ∧ u.res.toInt = v

/-! ## The float-word codec (42_float_word.md) -/

/-- 42_float_word.md R222. -/
def Obligations.FwdecCopiesThePattern : Prop :=
  encode .fwdec = 0x00000016#32 ∧
  (∀ s : State, s.blen.toNat < s.off.toNat + 32 → exec .fwdec s = .next (s.errDone 2#4 0#4 0#32)) ∧
  ∀ s : State, s.off.toNat + 32 ≤ s.blen.toNat →
    exec .fwdec s = .next { s.okDone with res := BitVec.ofNat 32 (beRead s.bit s.off.toNat 32) }

/-- 42_float_word.md R224. -/
def Obligations.FwencWritesThePattern : Prop :=
  encode .fwenc = 0x00000017#32 ∧
  (∀ s : State, s.blen.toNat < s.off.toNat + 32 → exec .fwenc s = .next (s.errDone 2#4 0#4 0#32)) ∧
  ∀ s : State, s.off.toNat + 32 ≤ s.blen.toNat → ∃ t, exec .fwenc s = .next t ∧ t = { s.okDone with bstr := t.bstr } ∧
    (∀ p, p < 32 → t.bit (s.off.toNat + p) = beBit 32 s.arg p) ∧
    (∀ p, p < s.off.toNat ∨ s.off.toNat + 32 ≤ p → t.bit p = s.bit p)

/-- 42_float_word.md R227. -/
def Obligations.FwencThenFwdecGivesThePattern : Prop :=
  ∀ s : State, s.off.toNat + 32 ≤ s.blen.toNat → ∃ t u,
    exec .fwenc s = .next t ∧ exec .fwdec t = .next u ∧ u.errCode = 0#4 ∧ u.res = s.arg

/-! ## The schema parser (43_schema.md) -/

/-- 43_schema.md R241: the lines, joined by line feeds, are the text, and no line holds a line feed. -/
def Obligations.LinesAreCutAtLineFeeds : Prop :=
  ∀ text : List Byte, List.intercalate [0x0A#8] (splitLines text) = text ∧
    (∀ l ∈ splitLines text, 0x0A#8 ∉ l) ∧ (splitLines text).length = text.count 0x0A#8 + 1

/-- 43_schema.md R242: a run without whitespace is one token, and a whitespace byte separates. -/
def Obligations.TokensAreMaximalRuns : Prop :=
  (∀ c : Byte, isSpace c = true ↔ c.toNat ∈ [0x09, 0x0B, 0x0C, 0x0D, 0x20]) ∧
  tokens [] = [] ∧
  (∀ run : List Byte, run ≠ [] → (∀ c ∈ run, isSpace c = false) → tokens run = [run]) ∧
  (∀ (a b : List Byte) (c : Byte), isSpace c = true → tokens (a ++ c :: b) = tokens a ++ tokens b)

/-- 43_schema.md R244, R246, R250 (c), 00_scope.md R12: the decimal value of a digit run, the offset tokens and their value, the
six type tokens with their codes, and that a line with any other third token is refused. That the type tokens are their ASCII
bytes is the model's reading of the spec (log 20). -/
def Obligations.OffsetAndTypeTokenSyntax : Prop :=
  let types : List (List Byte × FieldKind) :=
    [([0x42#8, 0x4F#8, 0x4F#8, 0x4C#8], .bool), ([0x55#8, 0x53#8, 0x49#8, 0x4E#8, 0x54#8], .uint8),
     ([0x49#8, 0x4E#8, 0x54#8], .int16), ([0x44#8, 0x49#8, 0x4E#8, 0x54#8], .int32),
     ([0x52#8, 0x45#8, 0x41#8, 0x4C#8], .float32),
     ([0x41#8, 0x52#8, 0x52#8, 0x41#8, 0x59#8, 0x5F#8, 0x4F#8, 0x46#8, 0x5F#8, 0x52#8, 0x45#8, 0x41#8, 0x4C#8],
      .float32Array)]
  (∀ c : Byte, (isDigit c = true ↔ 0x30 ≤ c.toNat ∧ c.toNat ≤ 0x39) ∧
    (isBitDigit c = true ↔ 0x30 ≤ c.toNat ∧ c.toNat ≤ 0x37)) ∧
  (decimal [] = 0 ∧ ∀ (ds : List Byte) (c : Byte), decimal (ds ++ [c]) = 10 * decimal ds + (c.toNat - 0x30)) ∧
  (∀ (tok : List Byte) (v : Nat), offsetOf tok = some v ↔
    ∃ (ds : List Byte) (b : Byte), ds ≠ [] ∧ (∀ c ∈ ds, 0x30 ≤ c.toNat ∧ c.toNat ≤ 0x39) ∧
      0x30 ≤ b.toNat ∧ b.toNat ≤ 0x37 ∧ tok = ds ++ [0x2E#8, b] ∧ v = 8 * decimal ds + (b.toNat - 0x30)) ∧
  (∀ (tok : List Byte) (k : FieldKind), kindOf tok = some k ↔ (tok, k) ∈ types) ∧
  (∀ k : FieldKind, kindOf k.token = some k) ∧
  types.map (fun x => x.2.code) = [0#3, 1#3, 2#3, 3#3, 4#3, 5#3] ∧
  ∀ (p : Params) (k : Nat) (line : List Byte) (acc : ParseAcc) (first name type : List Byte) (more : List (List Byte)),
    tokens line = first :: name :: type :: more → offsetOf first ≠ none → (∀ x ∈ types, x.1 ≠ type) →
    parseLine p k line acc = .error ⟨.schemaError, 3, k⟩

/-- 43_schema.md R250: the first failing check of the table raises, with its number as the subcause and the line as info; with
none the field is added (R240). -/
def Obligations.FirstFailingCheckRaises : Prop :=
  (∀ (s : State) (b : Bank) (e : Raise), parseText s.params s.schemaText = .error e → ∃ t, exec (.parse b) s = .next t ∧
    t.errCode = 1#4 ∧ t.errSub = BitVec.ofNat 4 e.sub ∧ t.errInfo = BitVec.ofNat 32 e.info) ∧
  ∀ (p : Params) (k : Nat) (line : List Byte) (acc : ParseAcc), tokens line ≠ [] →
    (∀ j, (lineChecks p acc.fields acc.words (tokens line)).findIdx? id = some j →
      parseLine p k line acc = .error ⟨.schemaError, j + 1, k⟩) ∧
    ((lineChecks p acc.fields acc.words (tokens line)).findIdx? id = none →
      parseLine p k line acc = .ok
        ⟨acc.fields ++ [lineEntry (tokens line) k acc.words],
          acc.words + (lineKind (tokens line)).words (lineLength (tokens line)),
          acc.ovl || overlaps (lineOffset (tokens line))
            ((lineKind (tokens line)).width (lineLength (tokens line))) acc.fields⟩)

/-- 43_schema.md R240, R241, R243: a blank line is skipped and counted, and the line a SchemaError names is the first that
fails, with every line before it accepted. -/
def Obligations.ParseStopsAtTheFirstBadLine : Prop :=
  (∀ (p : Params) (k : Nat) (line : List Byte) (acc : ParseAcc), tokens line = [] → parseLine p k line acc = .ok acc) ∧
  ∀ (p : Params) (text : List Byte) (e : Raise), parseText p text = .error e →
    ∃ (pre post : List (List Byte)) (line : List Byte) (acc : ParseAcc),
      splitLines text = pre ++ line :: post ∧ parseLines p 1 pre ParseAcc.empty = .ok acc ∧
      parseLine p (pre.length + 1) line acc = .error e ∧
      e.kind = .schemaError ∧ 1 ≤ e.sub ∧ e.sub ≤ 12 ∧ e.info = pre.length + 1

/-- 43_schema.md R253: OVERLAP is set exactly when two fields' bit ranges intersect, and never where overlap is an error. -/
def Obligations.OverlapFlagIsExact : Prop :=
  ∀ (p : Params) (text : List Byte) (acc : ParseAcc), p.Legal → parseText p text = .ok acc →
    (acc.ovl = true ↔ ∃ i j, i < j ∧ j < acc.fields.length ∧
      ¬ (acc.fields.getD i FieldEntry.zero).Disjoint (acc.fields.getD j FieldEntry.zero)) ∧
    (p.overlapIsError = true → acc.ovl = false)

/-- 43_schema.md R240, R254, R255: a successful PARSE commits the new schema with every value and presence bit 0, the other
bank and everything else unchanged; a failed one leaves both banks and everything else as they were. -/
def Obligations.ParseCommitsOrChangesNothing : Prop :=
  (encode (.parse .bank0) = 0x00000020#32 ∧ encode (.parse .bank1) = 0x00000120#32) ∧
  (∀ (s : State) (b : Bank) (e : Raise), parseText s.params s.schemaText = .error e →
    exec (.parse b) s = .next (s.errDone 1#4 (BitVec.ofNat 4 e.sub) (BitVec.ofNat 32 e.info))) ∧
  ∀ (s : State) (b : Bank) (acc : ParseAcc), parseText s.params s.schemaText = .ok acc →
    ∃ t, exec (.parse b) s = .next t ∧ t = s.okDone.setBank b (t.bank b) ∧
      (t.bank b).fields = acc.fields ∧ (t.bank b).nfields = BitVec.ofNat 32 acc.fields.length ∧
      (t.bank b).nwords = BitVec.ofNat 32 acc.words ∧ (t.bank b).overlap = acc.ovl ∧ (t.bank b).loaded = true ∧
      (∀ v, (t.bank b).word v = 0#32) ∧ (∀ f, (t.bank b).isPresent f = false)

/-- 43_schema.md R240 to R248: the scalar line form `<byte>.<bit> <name> <TYPE>` gives one field. -/
def Obligations.ParseOfOneScalarLine : Prop :=
  ∀ (s : State) (bk : Bank) (ds nm : List Byte) (b : Byte) (k : FieldKind), s.params.Legal → ds ≠ [] →
    (∀ c ∈ ds, isDigit c = true) → isBitDigit b = true → nm ≠ [] → nm.length ≤ s.params.nameMax →
    (∀ c ∈ nm, isSpace c = false ∧ c ≠ 0x0A#8) → k ≠ .float32Array →
    8 * decimal ds + (b.toNat - 0x30) + k.width 0 ≤ 8 * s.params.nB →
    s.schemaText = ds ++ [0x2E#8, b, 0x20#8] ++ nm ++ [0x20#8] ++ k.token →
    ∃ t, exec (.parse bk) s = .next t ∧ t.errCode = 0#4 ∧ (t.bank bk).nfields = 1#32 ∧ (t.bank bk).nwords = 1#32 ∧
      (t.bank bk).overlap = false ∧ (t.bank bk).loaded = true ∧
      (t.bank bk).fields =
        [{ kind := k, side := sideOf nm, nameLen := BitVec.ofNat 8 nm.length,
           offset := BitVec.ofNat 32 (8 * decimal ds + (b.toNat - 0x30)), alen := 0#32, vbase := 0#32, line := 1#32,
           width := BitVec.ofNat 32 (k.width 0), keyOff := BitVec.ofNat 32 (keyOffOf nm), name := nm }]

/-- 43_schema.md R247, R248: the array line form `<byte>.<bit> <name> ARRAY_OF_REAL <n>` gives one field of `n` words. -/
def Obligations.ParseOfOneArrayLine : Prop :=
  ∀ (s : State) (bk : Bank) (ds nm ls : List Byte) (b : Byte), s.params.Legal → ds ≠ [] →
    (∀ c ∈ ds, isDigit c = true) → isBitDigit b = true → nm ≠ [] → nm.length ≤ s.params.nameMax →
    (∀ c ∈ nm, isSpace c = false ∧ c ≠ 0x0A#8) → ls ≠ [] → (∀ c ∈ ls, isDigit c = true) → 1 ≤ decimal ls →
    8 * decimal ds + (b.toNat - 0x30) + 32 * decimal ls ≤ 8 * s.params.nB → decimal ls ≤ s.params.nV →
    s.schemaText = ds ++ [0x2E#8, b, 0x20#8] ++ nm ++ [0x20#8] ++ FieldKind.token .float32Array ++ [0x20#8] ++ ls →
    ∃ t, exec (.parse bk) s = .next t ∧ t.errCode = 0#4 ∧ (t.bank bk).nfields = 1#32 ∧
      (t.bank bk).nwords = BitVec.ofNat 32 (decimal ls) ∧
      (t.bank bk).fields =
        [{ kind := .float32Array, side := sideOf nm, nameLen := BitVec.ofNat 8 nm.length,
           offset := BitVec.ofNat 32 (8 * decimal ds + (b.toNat - 0x30)), alen := BitVec.ofNat 32 (decimal ls),
           vbase := 0#32, line := 1#32, width := BitVec.ofNat 32 (32 * decimal ls),
           keyOff := BitVec.ofNat 32 (keyOffOf nm), name := nm }]

/-! ## The record codec (44_record.md) -/

/-- 44_record.md R280: the write side is the names that start with the prefix, the key is the rest of the name, and PARSE stores
both in every entry. -/
def Obligations.KeyIsTheNameWithoutThePrefix : Prop :=
  (∀ rest : List Byte, sideOf (writePrefix ++ rest) = .write ∧ keyOffOf (writePrefix ++ rest) = 11 ∧
    keyOf (writePrefix ++ rest) = rest) ∧
  (∀ nm : List Byte, (∀ rest, nm ≠ writePrefix ++ rest) → sideOf nm = .read ∧ keyOffOf nm = 0 ∧ keyOf nm = nm) ∧
  (∀ (p : Params) (text : List Byte) (acc : ParseAcc), parseText p text = .ok acc →
    ∀ e ∈ acc.fields, e.side = sideOf e.name ∧ e.keyOff = BitVec.ofNat 32 (keyOffOf e.name))

/-- 44_record.md R287, R290: on one side no two fields have the same key. -/
def Obligations.KeysOfASideAreDistinct : Prop :=
  ∀ (p : Params) (b : BankState) (side : Side), b.Wf p → ((b.record side).map Prod.fst).Nodup

/-- 44_record.md R283, 42_float_word.md R228: what DECODE stores for each type, in closed form. -/
def Obligations.SlotHoldsTheWindowsValue : Prop :=
  ∀ (m : BitStore) (e : FieldEntry),
    let bit := storeGet false m
    let o := e.offset.toNat
    decodeSlot m e =
      match e.kind with
      | .bool => [if bit o then 1#32 else 0#32]
      | .uint8 => [BitVec.ofNat 32 (wbyte bit o 0)]
      | .int16 => [(BitVec.ofNat 16 (beRead bit o 16)).signExtend 32]
      | .int32 | .float32 => [BitVec.ofNat 32 (beRead bit o 32)]
      | .float32Array => (List.range e.alen.toNat).map fun i => BitVec.ofNat 32 (beRead bit (o + 32 * i) 32)

/-- 44_record.md R284, 42_float_word.md R228: the bits ENCODE writes for each type, in closed form. -/
def Obligations.WindowHoldsTheSlotsBits : Prop :=
  ∀ (val : WordStore) (e : FieldEntry), e.width.toNat = e.kind.width e.alen.toNat →
    let word := fun i => storeGet 0#32 val (e.vbase.toNat + i)
    (encodeSlot val e).length = e.width.toNat ∧
    ∀ p, p < e.width.toNat → (encodeSlot val e).getD p false =
      match e.kind with
      | .bool => (word 0).getLsbD 0
      | .uint8 => (word 0).getLsbD p
      | .int16 => beBit 16 (word 0) p
      | .int32 | .float32 => beBit 32 (word 0) p
      | .float32Array => beBit 32 (word (p / 32)) (p % 32)

/-- 44_record.md R285. -/
def Obligations.LegalSlotsAreTheRangesOfTheTypes : Prop :=
  ∀ (val : WordStore) (e : FieldEntry),
    let w := storeGet 0#32 val e.vbase.toNat
    slotLegal val e = true ↔
      match e.kind with
      | .bool => w = 0#32 ∨ w = 1#32
      | .uint8 => w.toNat ≤ 255
      | .int16 => -32768 ≤ w.toInt ∧ w.toInt ≤ 32767
      | .int32 | .float32 | .float32Array => True

/-- 44_record.md R281: LengthError at the lowest failing field with nothing changed; else the bit string, every slot, and
everything else unchanged. -/
def Obligations.DecodeFillsEverySlot : Prop :=
  (encode (.decode .bank0) = 0x00000021#32 ∧ encode (.decode .bank1) = 0x00000121#32) ∧
  (∀ (s : State) (b : Bank) (f : Nat), f < (s.bank b).schema.length →
    8 * s.wlen.toNat < ((s.bank b).entry f).bitEnd →
    (∀ g, g < f → ((s.bank b).entry g).bitEnd ≤ 8 * s.wlen.toNat) →
    exec (.decode b) s = .next (s.errDone 2#4 0#4 (BitVec.ofNat 32 f))) ∧
  ∀ (s : State) (b : Bank), (s.bank b).Wf s.params → (∀ e ∈ (s.bank b).schema, e.bitEnd ≤ 8 * s.wlen.toNat) →
    ∃ t, exec (.decode b) s = .next t ∧
      t = { s.okDone with bstr := t.bstr, blen := BitVec.ofNat 32 (8 * s.wlen.toNat) }.setBank b
        { s.bank b with val := (t.bank b).val } ∧
      (∀ B i, B < s.wlen.toNat → i < 8 → t.bit (8 * B + i) = (s.byte B).getLsbD i) ∧
      (∀ p, 8 * s.wlen.toNat ≤ p → t.bit p = s.bit p) ∧
      (∀ e ∈ (s.bank b).schema, slotOf (t.bank b).val e = decodeSlot t.bstr e) ∧
      (∀ v, (∀ e ∈ (s.bank b).schema, ¬ e.OwnsWord v) → (t.bank b).word v = (s.bank b).word v)

/-- 44_record.md R286: what a successful DECODE stores does not depend on what the slots held before. -/
def Obligations.DecodeCarriesNothingOver : Prop :=
  ∀ (s t : State) (b : Bank) (val : WordStore), (s.bank b).Wf s.params → exec (.decode b) s = .next t → t.errCode = 0#4 →
    ∃ u, exec (.decode b) (s.setBank b { s.bank b with val := val }) = .next u ∧ u.errCode = 0#4 ∧
      u.bstr = t.bstr ∧ u.blen = t.blen ∧
      ∀ e ∈ (s.bank b).schema, slotOf (u.bank b).val e = slotOf (t.bank b).val e

/-- 44_record.md R288, 43_schema.md R252: L is the least covering number of bytes, and fits the
engine, and ENCODE never raises LengthError. -/
def Obligations.BufferLengthIsLeast : Prop :=
  (∀ fields : List FieldEntry, (∀ e ∈ fields, e.bitEnd ≤ 8 * bufferBytes fields) ∧
    ∀ n, (∀ e ∈ fields, e.bitEnd ≤ 8 * n) → bufferBytes fields ≤ n) ∧
  (∀ (p : Params) (b : BankState), b.Wf p → bufferBytes b.schema ≤ p.nB) ∧
  (∀ (s t : State) (b : Bank), exec (.encode b) s = .next t → t.errCode ≠ 2#4)

/-- 44_record.md R282: presence first, then range, each at the lowest index; else the buffer of L bytes in which the highest
field that covers a bit wins it and every other bit is 0, and everything else unchanged. -/
def Obligations.EncodeBuildsTheBuffer : Prop :=
  (encode (.encode .bank0) = 0x00000022#32 ∧ encode (.encode .bank1) = 0x00000122#32) ∧
  (∀ (s : State) (b : Bank) (f : Nat), f < (s.bank b).nfields.toNat → (s.bank b).isPresent f = false →
    (∀ g, g < f → (s.bank b).isPresent g = true) →
    exec (.encode b) s = .next (s.errDone 4#4 0#4 (BitVec.ofNat 32 f))) ∧
  (∀ (s : State) (b : Bank) (f : Nat), (∀ g, g < (s.bank b).nfields.toNat → (s.bank b).isPresent g = true) →
    f < (s.bank b).schema.length → slotLegal (s.bank b).val ((s.bank b).entry f) = false →
    (∀ g, g < f → slotLegal (s.bank b).val ((s.bank b).entry g) = true) →
    exec (.encode b) s = .next (s.errDone 3#4 0#4 (BitVec.ofNat 32 f))) ∧
  ∀ (s : State) (b : Bank), (s.bank b).Wf s.params →
    (∀ f, f < (s.bank b).nfields.toNat → (s.bank b).isPresent f = true) →
    (∀ e ∈ (s.bank b).schema, slotLegal (s.bank b).val e = true) →
    let n := bufferBytes (s.bank b).schema
    ∃ t, exec (.encode b) s = .next t ∧
      t = { s.okDone with bstr := t.bstr, blen := BitVec.ofNat 32 (8 * n), wbuf := t.wbuf, wlen := BitVec.ofNat 32 n } ∧
      (∀ i, i < 8 * n → (∀ e ∈ (s.bank b).schema, ¬ e.Covers i) → t.bit i = false) ∧
      (∀ f i, f < (s.bank b).schema.length → ((s.bank b).entry f).Covers i →
        (∀ g, f < g → g < (s.bank b).schema.length → ¬ ((s.bank b).entry g).Covers i) →
        t.bit i = (encodeSlot (s.bank b).val ((s.bank b).entry f)).getD
          (i - ((s.bank b).entry f).offset.toNat) false) ∧
      (∀ i, 8 * n ≤ i → t.bit i = s.bit i) ∧
      (∀ B i, B < n → i < 8 → (t.byte B).getLsbD i = t.bit (8 * B + i)) ∧
      (∀ a, n ≤ a → t.byte a = s.byte a)

/-- 44_record.md R289: ENCODE then DECODE gives the record back where no fields overlap; where they do, each field decodes to
the bits its window then holds, and a bit two fields share is the bit the highest of them wrote. -/
def Obligations.EncodeThenDecodeGivesTheRecordBack : Prop :=
  ∀ (s : State) (b : Bank), s.params.Legal → (s.bank b).Wf s.params →
    (∀ f, f < (s.bank b).nfields.toNat → (s.bank b).isPresent f = true) →
    (∀ e ∈ (s.bank b).schema, slotLegal (s.bank b).val e = true) →
    ∃ t u, exec (.encode b) s = .next t ∧ exec (.decode b) t = .next u ∧ t.errCode = 0#4 ∧ u.errCode = 0#4 ∧
      (∀ e ∈ (s.bank b).schema, slotOf (u.bank b).val e = decodeSlot t.bstr e) ∧
      (∀ f g i, f < g → g < (s.bank b).schema.length → ((s.bank b).entry f).Covers i → ((s.bank b).entry g).Covers i →
        (∀ h, g < h → h < (s.bank b).schema.length → ¬ ((s.bank b).entry h).Covers i) →
        t.bit i = (encodeSlot (s.bank b).val ((s.bank b).entry g)).getD (i - ((s.bank b).entry g).offset.toNat) false) ∧
      ((s.bank b).schema.Pairwise FieldEntry.Disjoint →
        (∀ v, (u.bank b).word v = (s.bank b).word v) ∧ (u.bank b).record .read = (s.bank b).record .read ∧
        (u.bank b).record .write = (s.bank b).record .write)

/-! ## Whole-machine rules -/

/-- 60_exceptions.md R300, R305, 20_memory.md R122: errors are precise. -/
def Obligations.ErrorsChangeOnlyTheErrorRecord : Prop :=
  ∀ (i : Instr) (s t : State), exec i s = .next t → t.errCode ≠ 0#4 → t = s.errDone t.errCode t.errSub t.errInfo

/-- 60_exceptions.md R301, R302: which errors each command can end with, and what ERR.SUB and ERRINFO then hold. -/
def Obligations.CommandsRaiseOnlyTheirErrors : Prop :=
  ∀ (i : Instr) (s t : State), exec i s = .next t →
    (t.errCode = 0#4 ∨ t.errCode ∈ raisable i) ∧
    (t.errCode ≠ 1#4 → t.errSub = 0#4) ∧ (t.errCode = 1#4 → 1 ≤ t.errSub.toNat ∧ t.errSub.toNat ≤ 12) ∧
    (t.errCode = 0#4 → t.errInfo = 0#32) ∧
    (t.errInfo ≠ 0#32 → ∃ b, i = .parse b ∨ i = .decode b ∨ i = .encode b)

/-- 60_exceptions.md R300 ("non-retryable"), 20_memory.md R117: a command that failed fails again, with the same record. -/
def Obligations.FailedCommandsFailAgain : Prop :=
  ∀ (i : Instr) (s t : State), exec i s = .next t → t.errCode ≠ 0#4 → exec i t = .next t

/-- 30_encoding.md R145, 10_state.md R39: a command writes only its own bank, and RES only where it is a read that succeeded;
43_schema.md R240, 44_record.md R281: the other bank is never touched. -/
def Obligations.CommandsWriteOnlyTheirOwnState : Prop :=
  ∀ (i : Instr) (s t : State), exec i s = .next t →
    (∀ b, writesBank i ≠ some b → t.bank b = s.bank b) ∧
    (t.res ≠ s.res → writesRes i = true ∧ t.errCode = 0#4)

/-- 43_schema.md R256, 20_memory.md R123: over every step, host turns included, a bank's schema changes only through a
successful PARSE into it. -/
def Obligations.SchemaChangesOnlyByParse : Prop :=
  ∀ (s t : State) (b : Bank), step s = .next t → (t.bank b).schemaPart ≠ (s.bank b).schemaPart →
    ∃ c, s.inflight = some c ∧ decodeWord c = .ok (.parse b) ∧ t.inflight = none ∧ t.errCode = 0#4

/-- 70_reset_and_hazards.md R350: nothing clears HOSTFAULT. -/
def Obligations.HostFaultIsNeverCleared : Prop :=
  ∀ s t : State, step s = .next t → s.hostFault = true → t.hostFault = true

/-- The invariant of 10_state.md R36 to R38, R46 to R49, R54 and 60_exceptions.md R301 is kept by every step, from every
state. -/
def Obligations.StepKeepsTheInvariant : Prop :=
  ∀ s t : State, s.Inv → step s = .next t → t.Inv

/-- The invariant holds at reset, for every legal choice of the parameters; `State.reset` takes the reference parameters (the
model's choice, log 1). -/
def Obligations.ResetHasTheInvariant : Prop :=
  (∀ p : Params, p.Legal → (State.resetWith p).Inv) ∧ State.reset.Inv

/-- 70_reset_and_hazards.md R340: every value of the rule's table, what DECODE and ENCODE do with a bank that holds what it
holds at reset, and the first CMD write, taken at once. -/
def Obligations.ResetValuesOfTheSpec : Prop :=
  (∀ (s : State) (b : Bank), s.bank b = BankState.empty →
    exec (.decode b) s = exec .b2s s ∧ exec (.encode b) s = .next { s.okDone with blen := 0#32, wlen := 0#32 }) ∧
  ∀ p : Params,
    let s := State.resetWith p
    s.readReg .ident = 0x53470001#32 ∧ s.readReg .pNb = BitVec.ofNat 32 p.nB ∧ s.readReg .pNt = BitVec.ofNat 32 p.nT ∧
    s.readReg .pNf = BitVec.ofNat 32 p.nF ∧ s.readReg .pNameMax = BitVec.ofNat 32 p.nameMax ∧
    s.readReg .pNv = BitVec.ofNat 32 p.nV ∧ s.readReg .pOpts = (if p.overlapIsError then 1#32 else 0#32) ∧
    s.ctrlWord = 0#32 ∧ s.statusWord = 0#32 ∧ s.cmd = 0#32 ∧ s.errWord = 0#32 ∧ s.errInfo = 0#32 ∧ s.wlen = 0#32 ∧
    s.blen = 0#32 ∧ s.tlen = 0#32 ∧ s.off = 0#32 ∧ s.arg = 0#32 ∧ s.res = 0#32 ∧ s.inflight = none ∧
    (∀ a, s.byte a = 0#8) ∧ (∀ i, s.bit i = false) ∧ (∀ a, s.textByte a = 0#8) ∧ s.hostFault = false ∧ s.irq = false ∧
    (∀ v, step { s with agenda := [.host (.write 0x00C 4 v)] } = .next { s with cmd := v, inflight := some v }) ∧
    ∀ b, (s.bank b).nfields = 0#32 ∧ (s.bank b).nwords = 0#32 ∧ (s.bank b).flagsWord = 0#32 ∧
      (∀ f, (s.bank b).entry f = FieldEntry.zero) ∧ (∀ f, (s.bank b).isPresent f = false) ∧
      (∀ v, (s.bank b).word v = 0#32) ∧ s.bank b = BankState.empty

/-! ## The host bus (20_memory.md, 70_reset_and_hazards.md) -/

/-- 70_reset_and_hazards.md R350, 20_memory.md R101, R109: a violating access sets HOSTFAULT and writes nothing else. -/
def Obligations.ViolationsOnlySetHostFault : Prop :=
  ∀ (s : State) (a : Access) (rest : List Turn), s.agenda = .host a :: rest → a.addr < 0x300000 →
    (a.width ≠ 4 ∨ a.addr % 4 ≠ 0 ∨
      (s.inflight ≠ none ∧
        (∀ n, a = .read a.addr n →
          a.addr ∉ [0x000, 0x004, 0x008, 0x00C, 0x100, 0x104, 0x108, 0x10C, 0x110, 0x114]) ∧
        (∀ n v, a = .write a.addr n v → a.addr ∉ [0x004, 0x008]))) →
    ∃ t, step s = .next t ∧
      t = { s with agenda := rest, hostFault := true, hostRead := t.hostRead, draws := t.draws } ∧
      (∀ ad n v, a = .write ad n v → t.hostRead = s.hostRead)

/-- 20_memory.md R104, R106, R109, R117, 10_state.md R30 to R44, R50, R51: a read that keeps the protocol returns the word at
its address and changes nothing else; the word at every register, at every word of a field table entry and at every word of a
name, each 0 at and beyond NFIELDS, and a name's bytes 0 at and beyond NAMELEN. The field that holds the word read is the model's
own (log 4). The memories and VAL have their reads in MemoryWordsArePackedLittleEndian and ValWordsStopAtNwords, PRESENT in
PresentWritesSetTheFieldsBits, the unmapped addresses in ReadOnlyAndUnmappedWritesAreIgnored. -/
def Obligations.ReadsReturnTheWordOfTheirAddress : Prop :=
  (∀ (s : State) (a : Nat) (rest : List Turn), s.agenda = .host (.read a 4) :: rest → a < 0x300000 → a % 4 = 0 →
    (s.inflight = none ∨ a ∈ [0x000, 0x004, 0x008, 0x00C, 0x100, 0x104, 0x108, 0x10C, 0x110, 0x114]) →
    step s = .next { s with agenda := rest, hostRead := s.readTarget (targetAt a) }) ∧
  (∀ s : State,
    let word := fun a => s.readTarget (targetAt a)
    let flags := fun b : BankState => (if b.overlap then 1#32 else 0#32) + (if b.loaded then 2#32 else 0#32)
    (word 0x000 = 0x53470001#32 ∧ word 0x004 = (if s.ie then 1#32 else 0#32) ∧ word 0x008 = s.statusWord ∧
      word 0x00C = s.cmd ∧ word 0x010 = s.errWord ∧ word 0x014 = s.errInfo) ∧
    (word 0x018 = s.wlen ∧ word 0x01C = s.blen ∧ word 0x020 = s.tlen ∧ word 0x024 = s.off ∧ word 0x028 = s.arg ∧
      word 0x02C = s.res) ∧
    (word 0x040 = s.bank0.nfields ∧ word 0x044 = s.bank0.nwords ∧ word 0x048 = flags s.bank0) ∧
    (word 0x050 = s.bank1.nfields ∧ word 0x054 = s.bank1.nwords ∧ word 0x058 = flags s.bank1) ∧
    (word 0x100 = BitVec.ofNat 32 s.params.nB ∧ word 0x104 = BitVec.ofNat 32 s.params.nT ∧
      word 0x108 = BitVec.ofNat 32 s.params.nF ∧ word 0x10C = BitVec.ofNat 32 s.params.nameMax ∧
      word 0x110 = BitVec.ofNat 32 s.params.nV ∧ word 0x114 = (if s.params.overlapIsError then 1#32 else 0#32))) ∧
  ∀ (s : State) (b : Bank) (f : Nat), f < 1024 →
    let e := if f < (s.bank b).nfields.toNat then (s.bank b).fields.getD f FieldEntry.zero else FieldEntry.zero
    let entryWord := fun k => s.readTarget (targetAt (0x100000 * (b.number + 1) + (32 * f + 4 * k)))
    let nameWord := fun k => s.readTarget (targetAt (0x100000 * (b.number + 1) + (0x10000 + 256 * f + 4 * k)))
    (∀ i, (entryWord 0).getLsbD i =
      if i < 3 then e.kind.code.getLsbD i else if i = 3 then decide (e.side = .write)
      else if 8 ≤ i ∧ i < 16 then e.nameLen.getLsbD (i - 8) else false) ∧
    (entryWord 1 = e.offset ∧ entryWord 2 = e.alen ∧ entryWord 3 = e.vbase ∧ entryWord 4 = e.line ∧
      entryWord 5 = e.width ∧ entryWord 6 = e.keyOff ∧ entryWord 7 = 0#32) ∧
    (∀ k j i, k < 64 → j < 4 → i < 8 → (nameWord k).getLsbD (8 * j + i) =
      (decide (4 * k + j < e.nameLen.toNat) && (e.name.getD (4 * k + j) 0#8).getLsbD i)) ∧
    ((s.bank b).nfields.toNat ≤ f → (∀ k, k < 8 → entryWord k = 0#32) ∧ (∀ k, k < 64 → nameWord k = 0#32))

/-- 10_state.md R31 to R33, R36 to R39, R45: what a host write of each register does when the engine is idle; the writes of CTRL
and STATUS do the same while a command is in flight (20_memory.md R109). -/
def Obligations.RegisterWrites : Prop :=
  ∀ (s : State) (a : Nat) (v : Word) (rest : List Turn), s.agenda = .host (.write a 4 v) :: rest →
    let u := { s with agenda := rest }
    (a = 0x004 → step s = .next { u with ie := v.getLsbD 0 }) ∧
    (a = 0x008 → step s = .next { u with done := u.done && !v.getLsbD 1 }) ∧
    (s.inflight = none →
      (a = 0x00C → step s = .next { u with cmd := v, inflight := some v, done := false }) ∧
      (a = 0x018 → step s = .next { u with wlen := if v.toNat ≤ s.params.nB then v else s.wlen }) ∧
      (a = 0x01C → step s = .next { u with blen := if v.toNat ≤ 8 * s.params.nB then v else s.blen }) ∧
      (a = 0x020 → step s = .next { u with tlen := if v.toNat ≤ s.params.nT then v else s.tlen }) ∧
      (a = 0x024 → step s = .next { u with off := v }) ∧
      (a = 0x028 → step s = .next { u with arg := v }) ∧
      (a ∈ [0x000, 0x010, 0x014, 0x02C, 0x040, 0x044, 0x048, 0x050, 0x054, 0x058,
          0x100, 0x104, 0x108, 0x10C, 0x110, 0x114] → step s = .next u))

/-- 20_memory.md R102, R103, R105, R108: a bus word of WBUF or STXT is four bytes, the least significant first, and one of BSTR is
32 bits; what a host write stores and what a read returns, the bytes and bits beyond the region's size ignored and read as 0. -/
def Obligations.MemoryWordsArePackedLittleEndian : Prop :=
  (∀ (s : State) (k : Nat) (v : Word) (rest : List Turn), 4 * k < 0x10000 → s.inflight = none →
    (s.agenda = .host (.write (0x10000 + 4 * k) 4 v) :: rest →
      ∃ t, step s = .next t ∧ t = { s with agenda := rest, wbuf := t.wbuf } ∧
        (∀ j i, j < 4 → i < 8 → 4 * k + j < s.params.nB → (t.byte (4 * k + j)).getLsbD i = v.getLsbD (8 * j + i)) ∧
        (∀ a, a < 4 * k ∨ 4 * k + 4 ≤ a ∨ s.params.nB ≤ a → t.byte a = s.byte a)) ∧
    (s.agenda = .host (.write (0x20000 + 4 * k) 4 v) :: rest →
      ∃ t, step s = .next t ∧ t = { s with agenda := rest, bstr := t.bstr } ∧
        (∀ j, j < 32 → 32 * k + j < 8 * s.params.nB → t.bit (32 * k + j) = v.getLsbD j) ∧
        (∀ p, p < 32 * k ∨ 32 * k + 32 ≤ p ∨ 8 * s.params.nB ≤ p → t.bit p = s.bit p)) ∧
    (s.agenda = .host (.write (0x30000 + 4 * k) 4 v) :: rest →
      ∃ t, step s = .next t ∧ t = { s with agenda := rest, stxt := t.stxt } ∧
        (∀ j i, j < 4 → i < 8 → 4 * k + j < s.params.nT → (t.textByte (4 * k + j)).getLsbD i = v.getLsbD (8 * j + i)) ∧
        (∀ a, a < 4 * k ∨ 4 * k + 4 ≤ a ∨ s.params.nT ≤ a → t.textByte a = s.textByte a))) ∧
  ∀ (s : State) (k : Nat), 4 * k < 0x10000 →
    (∀ j i, j < 4 → i < 8 → (s.readTarget (targetAt (0x10000 + 4 * k))).getLsbD (8 * j + i) =
      (decide (4 * k + j < s.params.nB) && (s.byte (4 * k + j)).getLsbD i)) ∧
    (∀ j, j < 32 → (s.readTarget (targetAt (0x20000 + 4 * k))).getLsbD j =
      (decide (32 * k + j < 8 * s.params.nB) && s.bit (32 * k + j))) ∧
    (∀ j i, j < 4 → i < 8 → (s.readTarget (targetAt (0x30000 + 4 * k))).getLsbD (8 * j + i) =
      (decide (4 * k + j < s.params.nT) && (s.textByte (4 * k + j)).getLsbD i))

/-- 20_memory.md R103: after B2S a BSTR bus word inside `[0, WLEN)` reads the same as the WBUF bus word at its offset. -/
def Obligations.BstrWordsReadLikeWbufWordsAfterB2s : Prop :=
  ∀ (s t : State) (k : Nat), exec .b2s s = .next t → s.wlen.toNat ≤ s.params.nB → 4 * k + 4 ≤ s.wlen.toNat →
    4 * k < 0x10000 →
    t.readTarget (targetAt (0x20000 + 4 * k)) = t.readTarget (targetAt (0x10000 + 4 * k)) ∧
    ∀ j, j < 32 → (t.readTarget (targetAt (0x20000 + 4 * k))).getLsbD j = t.bit (32 * k + j)

/-- 20_memory.md R107. -/
def Obligations.PresentWritesSetTheFieldsBits : Prop :=
  ∀ (s : State) (b : Bank) (k : Nat) (w : Word) (rest : List Turn), k < 32 → s.inflight = none →
    s.agenda = .host (.write (0x100000 * (b.number + 1) + 0x8000 + 4 * k) 4 w) :: rest →
    ∃ t, step s = .next t ∧
      t = { s with agenda := rest }.setBank b { s.bank b with present := (t.bank b).present } ∧
      (∀ j, j < 32 → 32 * k + j < (s.bank b).nfields.toNat → (t.bank b).isPresent (32 * k + j) = w.getLsbD j) ∧
      (∀ f, f < 32 * k ∨ 32 * k + 32 ≤ f ∨ (s.bank b).nfields.toNat ≤ f →
        (t.bank b).isPresent f = (s.bank b).isPresent f) ∧
      (∀ j, j < 32 → (t.readTarget (targetAt (0x100000 * (b.number + 1) + 0x8000 + 4 * k))).getLsbD j =
        (decide (32 * k + j < (s.bank b).nfields.toNat) && (t.bank b).isPresent (32 * k + j)))

/-- 10_state.md R53, 20_memory.md R106: a VAL word below NWORDS is written and read; at or above it a write is ignored and a read
gives 0. -/
def Obligations.ValWordsStopAtNwords : Prop :=
  (∀ (s : State) (b : Bank) (i : Nat) (w : Word) (rest : List Turn), i < 0x10000 → s.inflight = none →
    s.agenda = .host (.write (0x100000 * (b.number + 1) + 0x80000 + 4 * i) 4 w) :: rest →
    ∃ t, step s = .next t ∧ t = { s with agenda := rest }.setBank b { s.bank b with val := (t.bank b).val } ∧
      (t.bank b).word i = (if i < (s.bank b).nwords.toNat then w else (s.bank b).word i) ∧
      (∀ v, v ≠ i → (t.bank b).word v = (s.bank b).word v)) ∧
  ∀ (s : State) (b : Bank) (i : Nat), i < 0x10000 →
    s.readTarget (targetAt (0x100000 * (b.number + 1) + 0x80000 + 4 * i)) =
      if i < (s.bank b).nwords.toNat then (s.bank b).word i else 0#32

/-- 20_memory.md R104 to R106, R108: writes to the field tables, the names and every unmapped address (the holes of the register
region and of the banks included) are ignored, and every unmapped address reads 0. -/
def Obligations.ReadOnlyAndUnmappedWritesAreIgnored : Prop :=
  (∀ (s : State) (a : Nat) (v : Word) (rest : List Turn), s.agenda = .host (.write a 4 v) :: rest → a % 4 = 0 →
    s.inflight = none →
    (0x030 ≤ a ∧ a < 0x040) ∨ (0x04C ≤ a ∧ a < 0x050) ∨ (0x05C ≤ a ∧ a < 0x100) ∨ (0x118 ≤ a ∧ a < 0x10000) ∨
      (0x40000 ≤ a ∧ a < 0x108000) ∨ (0x108080 ≤ a ∧ a < 0x180000) ∨ (0x1C0000 ≤ a ∧ a < 0x208000) ∨
      (0x208080 ≤ a ∧ a < 0x280000) ∨ (0x2C0000 ≤ a ∧ a < 0x300000) →
    step s = .next { s with agenda := rest }) ∧
  (∀ (s : State) (a : Nat), a % 4 = 0 →
    (0x030 ≤ a ∧ a < 0x040) ∨ (0x04C ≤ a ∧ a < 0x050) ∨ (0x05C ≤ a ∧ a < 0x100) ∨ (0x118 ≤ a ∧ a < 0x10000) ∨
      (0x40000 ≤ a ∧ a < 0x100000) ∨ (0x108080 ≤ a ∧ a < 0x110000) ∨ (0x150000 ≤ a ∧ a < 0x180000) ∨
      (0x1C0000 ≤ a ∧ a < 0x200000) ∨ (0x208080 ≤ a ∧ a < 0x210000) ∨ (0x250000 ≤ a ∧ a < 0x280000) ∨
      (0x2C0000 ≤ a ∧ a < 0x300000) →
    s.readTarget (targetAt a) = 0#32)

/-- 10_state.md R32, R34, 60_exceptions.md R310: the bits of STATUS and ERR as read, and IRQ. -/
def Obligations.StatusAndErrorWords : Prop :=
  ∀ s : State,
    (∀ i, s.statusWord.getLsbD i =
      if i = 0 then s.inflight.isSome else if i = 1 then s.done else if i = 2 then decide (s.errCode ≠ 0#4) else false) ∧
    (∀ i, s.errWord.getLsbD i =
      if i < 4 then s.errCode.getLsbD i else if 8 ≤ i ∧ i < 12 then s.errSub.getLsbD (i - 8) else false) ∧
    (s.irq = true ↔ s.ie = true ∧ s.done = true)
end

