-- ==== Sys2Proof/Laws/Store.lean ====
section
/-! SUPPORT. The laws of the sparse memories: read after write, reads of filled ranges, and the canonical form. -/

namespace Sys2Proof.Machine

section Store
variable {α : Type} [DecidableEq α] {d : α}

omit [DecidableEq α] in
theorem storeGet_erase (m : List (Nat × α)) (a b : Nat) :
    storeGet d (storeErase m a) b = if b = a then d else storeGet d m b := by
  induction m with
  | nil => simp [storeErase, storeGet]
  | cons p r ih =>
    obtain ⟨k, v⟩ := p
    by_cases hk : a = k
    · subst hk
      by_cases hb : b = a
      · subst hb
        simpa [storeErase] using ih
      · simp [storeErase, ih, hb, storeGet]
    · by_cases hb : b = k
      · subst hb
        have : ¬ b = a := fun h => hk h.symm
        simp [storeErase, hk, storeGet, this]
      · simp [storeErase, hk, storeGet, hb, ih]

omit [DecidableEq α] in
theorem storeGet_insert (m : List (Nat × α)) (a b : Nat) (v : α) (h : ∀ p ∈ m, p.1 ≠ a) :
    storeGet d (storeInsert a v m) b = if b = a then v else storeGet d m b := by
  induction m with
  | nil => simp [storeInsert, storeGet]
  | cons p r ih =>
    obtain ⟨k, w⟩ := p
    have hk : k ≠ a := h (k, w) (by simp)
    have ih := ih fun p hp => h p (by simp [hp])
    by_cases hlt : a < k
    · simp [storeInsert, hlt, storeGet]
    · by_cases hb : b = k
      · subst hb
        simp [storeInsert, hlt, storeGet, hk]
      · simp [storeInsert, hlt, storeGet, hb, ih]

omit [DecidableEq α] in
theorem storeErase_key_ne (m : List (Nat × α)) (a : Nat) : ∀ p ∈ storeErase m a, p.1 ≠ a := by
  induction m with
  | nil => simp [storeErase]
  | cons p r ih =>
    obtain ⟨k, w⟩ := p
    intro q hq
    by_cases hk : a = k
    · simp only [storeErase, hk, if_true] at hq
      exact hk ▸ ih q (hk ▸ hq)
    · simp only [storeErase, hk, if_false, List.mem_cons] at hq
      rcases hq with rfl | hq
      · exact fun h => hk h.symm
      · exact ih q hq

/-- Read after write: the written position reads the value, every other position reads as before. -/
theorem storeGet_put (m : List (Nat × α)) (a b : Nat) (v : α) :
    storeGet d (storePut d m a v) b = if b = a then v else storeGet d m b := by
  unfold storePut
  by_cases hv : v = d
  · simp [hv, storeGet_erase]
  · rw [if_neg hv, storeGet_insert _ _ _ _ (storeErase_key_ne m a), storeGet_erase]
    by_cases hb : b = a <;> simp [hb]

/-- A filled range reads the values written; every other position reads as before. -/
theorem storeGet_fill (vs : List α) (m : List (Nat × α)) (o b : Nat) :
    storeGet d (storeFill d m o vs) b = if o ≤ b ∧ b < o + vs.length then vs.getD (b - o) d else storeGet d m b := by
  induction vs generalizing m o with
  | nil =>
    have : ¬ (o ≤ b ∧ b < o) := by omega
    simp [storeFill, this]
  | cons v vs ih =>
    rw [storeFill, ih, storeGet_put]
    by_cases h1 : o + 1 ≤ b ∧ b < o + 1 + vs.length
    · have h2 : o ≤ b ∧ b < o + (v :: vs).length := by simp; omega
      obtain ⟨j, hj⟩ : ∃ j, b - o = j + 1 := ⟨b - o - 1, by omega⟩
      have hj' : b - (o + 1) = j := by omega
      rw [if_pos h1, if_pos h2, hj, hj']
      simp
    · rw [if_neg h1]
      by_cases hb : b = o
      · subst hb
        simp
      · have h2 : ¬ (o ≤ b ∧ b < o + (v :: vs).length) := by simp; omega
        rw [if_neg hb, if_neg h2]

/-- Inside the range a fill reads the value written there. -/
theorem storeGet_fill_inside (vs : List α) (m : List (Nat × α)) (o i : Nat) (h : i < vs.length) :
    storeGet d (storeFill d m o vs) (o + i) = vs.getD i d := by
  rw [storeGet_fill, if_pos ⟨by omega, by omega⟩, Nat.add_sub_cancel_left]

/-- Outside the range a fill changes nothing. -/
theorem storeGet_fill_outside (vs : List α) (m : List (Nat × α)) (o b : Nat) (h : b < o ∨ o + vs.length ≤ b) :
    storeGet d (storeFill d m o vs) b = storeGet d m b := by
  rw [storeGet_fill, if_neg (by omega)]

omit [DecidableEq α] in
@[simp] theorem storeRead_length (m : List (Nat × α)) (o n : Nat) : (storeRead d m o n).length = n := by
  simp [storeRead]

omit [DecidableEq α] in
@[simp] theorem storeRead_getElem (m : List (Nat × α)) (o n i : Nat) (h : i < (storeRead d m o n).length) :
    (storeRead d m o n)[i] = storeGet d m (o + i) := by
  simp [storeRead]

omit [DecidableEq α] in
theorem storeRead_getD (m : List (Nat × α)) (o n i : Nat) (x : α) (h : i < n) :
    (storeRead d m o n).getD i x = storeGet d m (o + i) := by
  rw [List.getD_eq_getElem _ _ (by simpa using h), storeRead_getElem]

omit [DecidableEq α] in
/-- Two memories that agree on a range read the same list there. -/
theorem storeRead_congr (m m' : List (Nat × α)) (o n : Nat)
    (h : ∀ i, i < n → storeGet d m (o + i) = storeGet d m' (o + i)) : storeRead d m o n = storeRead d m' o n := by
  apply List.ext_getElem (by simp)
  intro i hi _
  simpa using h i (by simpa using hi)

/-- A filled range reads back as the list written. -/
theorem storeRead_fill (vs : List α) (m : List (Nat × α)) (o : Nat) :
    storeRead d (storeFill d m o vs) o vs.length = vs := by
  apply List.ext_getElem (by simp)
  intro i hi hi'
  rw [storeRead_getElem, storeGet_fill_inside _ _ _ _ hi', List.getD_eq_getElem _ _ hi']

/-- A range that a fill does not meet reads as before. -/
theorem storeRead_fill_outside (vs : List α) (m : List (Nat × α)) (o p n : Nat)
    (h : p + n ≤ o ∨ o + vs.length ≤ p) : storeRead d (storeFill d m o vs) p n = storeRead d m p n :=
  storeRead_congr _ _ _ _ fun i hi => storeGet_fill_outside _ _ _ _ (by omega)

/-! ## The canonical form -/

theorem storeWf_cons {k : Nat} {v : α} {r : List (Nat × α)} :
    storeWf d ((k, v) :: r) = true ↔ v ≠ d ∧ (∀ p ∈ r, k < p.1) ∧ storeWf d r = true := by
  simp [storeWf, and_assoc]

theorem storeErase_wf (m : List (Nat × α)) (a : Nat) (h : storeWf d m = true) : storeWf d (storeErase m a) = true := by
  induction m with
  | nil => rfl
  | cons p r ih =>
    obtain ⟨k, w⟩ := p
    obtain ⟨h1, h2, h3⟩ := storeWf_cons.1 h
    by_cases hk : a = k
    · simpa [storeErase, hk] using hk ▸ ih h3
    · have sub : ∀ q ∈ storeErase r a, q ∈ r := by
        clear ih h h1 h2 h3
        induction r with
        | nil => simp [storeErase]
        | cons p r ih =>
          intro q hq
          by_cases h : a = p.1
          · simp only [storeErase, h, if_true] at hq
            exact List.mem_cons_of_mem _ (ih q (h ▸ hq))
          · simp only [storeErase, h, if_false, List.mem_cons] at hq
            rcases hq with rfl | hq
            · simp
            · exact List.mem_cons_of_mem _ (ih q hq)
      simp only [storeErase, hk, if_false]
      exact storeWf_cons.2 ⟨h1, fun q hq => h2 q (sub q hq), ih h3⟩

omit [DecidableEq α] in
theorem mem_storeInsert (m : List (Nat × α)) (a : Nat) (v : α) (q : Nat × α) (h : q ∈ storeInsert a v m) :
    q = (a, v) ∨ q ∈ m := by
  induction m with
  | nil => simpa [storeInsert] using h
  | cons p r ih =>
    by_cases hk : a < p.1
    · simpa [storeInsert, hk] using h
    · simp only [storeInsert, hk, if_false, List.mem_cons] at h
      rcases h with rfl | h
      · simp
      · rcases ih h with h | h <;> simp [h]

theorem storeInsert_wf (m : List (Nat × α)) (a : Nat) (v : α) (hv : v ≠ d) (hm : storeWf d m = true)
    (hk : ∀ p ∈ m, p.1 ≠ a) : storeWf d (storeInsert a v m) = true := by
  induction m with
  | nil => simp [storeInsert, storeWf, hv]
  | cons p r ih =>
    obtain ⟨k, w⟩ := p
    obtain ⟨h1, h2, h3⟩ := storeWf_cons.1 hm
    by_cases hlt : a < k
    · simp only [storeInsert, hlt, if_true]
      refine storeWf_cons.2 ⟨hv, ?_, hm⟩
      intro p hp
      rcases List.mem_cons.1 hp with rfl | hp
      · exact hlt
      · exact Nat.lt_trans hlt (h2 p hp)
    · have hka : k ≠ a := hk (k, w) (by simp)
      simp only [storeInsert, hlt, if_false]
      refine storeWf_cons.2 ⟨h1, ?_, ih h3 fun p hp => hk p (by simp [hp])⟩
      intro p hp
      rcases mem_storeInsert _ _ _ _ hp with rfl | hp
      · simp only; omega
      · exact h2 p hp

/-- A write keeps the canonical form. -/
theorem storePut_wf (m : List (Nat × α)) (a : Nat) (v : α) (h : storeWf d m = true) :
    storeWf d (storePut d m a v) = true := by
  unfold storePut
  split
  · exact storeErase_wf m a h
  · exact storeInsert_wf _ a v ‹_› (storeErase_wf m a h) (storeErase_key_ne m a)

/-- A fill keeps the canonical form. -/
theorem storeFill_wf (vs : List α) (m : List (Nat × α)) (o : Nat) (h : storeWf d m = true) :
    storeWf d (storeFill d m o vs) = true := by
  induction vs generalizing m o with
  | nil => exact h
  | cons v vs ih => exact ih _ _ (storePut_wf m o v h)

omit [DecidableEq α] in
theorem storeGet_below {n a : Nat} {m : List (Nat × α)} (h : storeBelow n m = true) (ha : n ≤ a) :
    storeGet d m a = d := by
  induction m with
  | nil => rfl
  | cons p r ih =>
    simp only [storeBelow, List.all_cons, Bool.and_eq_true, decide_eq_true_eq] at h
    have : ¬ a = p.1 := by omega
    simp [storeGet, this, ih h.2]

/-- A write below `n` keeps every position below `n`. -/
theorem storePut_below {n a : Nat} {m : List (Nat × α)} (v : α) (h : storeBelow n m = true) (ha : a < n) :
    storeBelow n (storePut d m a v) = true := by
  have he : storeBelow n (storeErase m a) = true := by
    clear ha
    induction m with
    | nil => rfl
    | cons p r ih =>
      simp only [storeBelow, List.all_cons, Bool.and_eq_true, decide_eq_true_eq] at h
      by_cases hk : a = p.1
      · simp only [storeErase, hk, if_true]
        exact hk ▸ ih h.2
      · simp only [storeErase, hk, if_false, storeBelow, List.all_cons, Bool.and_eq_true, decide_eq_true_eq]
        exact ⟨h.1, ih h.2⟩
  unfold storePut
  split
  · exact he
  · simp only [storeBelow, List.all_eq_true, decide_eq_true_eq] at he ⊢
    intro p hp
    rcases mem_storeInsert _ _ _ _ hp with rfl | hp
    · exact ha
    · exact he p hp

/-- A fill that ends below `n` keeps every position below `n`. -/
theorem storeFill_below {n : Nat} (vs : List α) (m : List (Nat × α)) (o : Nat) (h : storeBelow n m = true)
    (ho : o + vs.length ≤ n) : storeBelow n (storeFill d m o vs) = true := by
  induction vs generalizing m o with
  | nil => exact h
  | cons v vs ih =>
    simp only [List.length_cons] at ho
    exact ih _ _ (storePut_below v h (by omega)) (by omega)

/-- Two canonical memories with the same contents are the same data. -/
theorem store_ext (m m' : List (Nat × α)) (h : storeWf d m = true) (h' : storeWf d m' = true)
    (eq : ∀ a, storeGet d m a = storeGet d m' a) : m = m' := by
  have low : ∀ (k : Nat) (r : List (Nat × α)), (∀ p ∈ r, k < p.1) → storeGet d r k = d := by
    intro k r hr
    induction r with
    | nil => rfl
    | cons p r ih =>
      have hp := hr p (by simp)
      have : ¬ k = p.1 := by omega
      simp [storeGet, this, ih fun q hq => hr q (by simp [hq])]
  induction m generalizing m' with
  | nil =>
    cases m' with
    | nil => rfl
    | cons p r =>
      obtain ⟨k, w⟩ := p
      have := eq k
      simp [storeGet] at this
      exact absurd this.symm (storeWf_cons.1 h').1
  | cons p r ih =>
    obtain ⟨k, v⟩ := p
    obtain ⟨h1, h2, h3⟩ := storeWf_cons.1 h
    cases m' with
    | nil =>
      have := eq k
      simp [storeGet] at this
      exact absurd this h1
    | cons q r' =>
      obtain ⟨k', v'⟩ := q
      obtain ⟨g1, g2, g3⟩ := storeWf_cons.1 h'
      have hkk : k = k' := by
        rcases Nat.lt_trichotomy k k' with hlt | he | hgt
        · have e := eq k
          have hn : ¬ k = k' := by omega
          simp only [storeGet, if_true, hn, if_false] at e
          rw [low k r' fun p hp => Nat.lt_trans hlt (g2 p hp)] at e
          exact absurd e h1
        · exact he
        · have e := eq k'
          have hn : ¬ k' = k := by omega
          simp only [storeGet, if_true, hn, if_false] at e
          rw [low k' r fun p hp => Nat.lt_trans hgt (h2 p hp)] at e
          exact absurd e.symm g1
      subst hkk
      have hv : v = v' := by simpa [storeGet] using eq k
      subst hv
      congr 1
      refine ih r' h3 g3 fun a => ?_
      by_cases ha : a = k
      · subst ha
        rw [low a r h2, low a r' g2]
      · simpa [storeGet, ha] using eq a

end Store

/-- The memories of reset are canonical. -/
theorem reset_memories_wf (p : Params) :
    Memory.wf (State.resetWith p).wbuf = true ∧ BitStore.wf (State.resetWith p).bstr = true ∧
      Memory.wf (State.resetWith p).stxt = true ∧ WordStore.wf (State.resetWith p).bank0.val = true ∧
      BitStore.wf (State.resetWith p).bank0.present = true := ⟨rfl, rfl, rfl, rfl, rfl⟩

end Sys2Proof.Machine
end

