-- ==== Sys2Proof/Laws/BitString.lean ====
section
/-! SUPPORT. The laws of bit strings: parsing, the low bits of a word, windows, and the byte table. -/

namespace Sys2Proof.Machine

theorem parseBits_append_single (S : BitString) (b : Bool) : parseBits (S ++ [b]) = 2 * parseBits S + b.toNat := by
  simp [parseBits, List.foldl_append]

@[simp] theorem parseBits_rev_nil : parseBits (rev []) = 0 := rfl

/-- The value of a reversed string, from its first character up. -/
theorem parseBits_rev_cons (b : Bool) (S : BitString) : parseBits (rev (b :: S)) = 2 * parseBits (rev S) + b.toNat := by
  rw [rev, List.reverse_cons, parseBits_append_single]; rfl

/-- Bit `i` of the value of a reversed string is its character `i`. -/
theorem parseBits_rev_testBit (S : BitString) (i : Nat) : (parseBits (rev S)).testBit i = S.getD i false := by
  induction S generalizing i with
  | nil => simp
  | cons b S ih =>
    rw [parseBits_rev_cons]
    cases i with
    | zero => cases b <;> simp [Nat.testBit_zero]
    | succ i =>
      have hdiv : (2 * parseBits (rev S) + b.toNat) / 2 = parseBits (rev S) := by
        have : b.toNat ≤ 1 := Bool.toNat_le b
        omega
      rw [Nat.testBit_succ, hdiv, ih]
      simp

theorem parseBits_rev_lt (S : BitString) : parseBits (rev S) < 2 ^ S.length := by
  induction S with
  | nil => simp
  | cons b S ih =>
    rw [parseBits_rev_cons, List.length_cons, Nat.pow_succ]
    have : b.toNat ≤ 1 := Bool.toNat_le b
    omega

/-- Bit `i` of the byte of a window is the window's character `i`. -/
theorem byteOfString_getLsbD (S : BitString) (i : Nat) (h : i < 8) : (byteOfString S).getLsbD i = S.getD i false := by
  rw [byteOfString, BitVec.getLsbD_ofNat, parseBits_rev_testBit]
  simp [h]

/-- Bit `i` of the word of a string is its character `i`. -/
theorem wordOfBits_getLsbD (S : BitString) (i : Nat) (h : i < 32) : (wordOfBits S).getLsbD i = S.getD i false := by
  rw [wordOfBits, BitVec.getLsbD_ofNat, parseBits_rev_testBit]
  simp [h]

@[simp] theorem lowBits_length {w : Nat} (n : Nat) (v : BitVec w) : (lowBits n v).length = n := by
  simp [lowBits]

theorem lowBits_getD {w : Nat} (n : Nat) (v : BitVec w) (i : Nat) (h : i < n) :
    (lowBits n v).getD i false = v.getLsbD i := by
  simp [lowBits, List.getD_eq_getElem?_getD, h]

@[simp] theorem byteString_length (v : Byte) : (byteString v).length = 8 := lowBits_length 8 v

theorem byteString_getD (v : Byte) (i : Nat) (h : i < 8) : (byteString v).getD i false = v.getLsbD i :=
  lowBits_getD 8 v i h

@[simp] theorem bytesToBits_nil : bytesToBits [] = [] := rfl

theorem bytesToBits_cons (v : Byte) (vs : List Byte) : bytesToBits (v :: vs) = byteString v ++ bytesToBits vs := rfl

@[simp] theorem bytesToBits_length (vs : List Byte) : (bytesToBits vs).length = 8 * vs.length := by
  induction vs with
  | nil => rfl
  | cons v vs ih => simp [bytesToBits_cons, ih]; omega

/-- Character `8B + i` of bytesToBits is bit `i` of byte `B` (40_bitorder.md R170). -/
theorem bytesToBits_getD (vs : List Byte) (B i : Nat) (hB : B < vs.length) (hi : i < 8) :
    (bytesToBits vs).getD (8 * B + i) false = (vs.getD B 0#8).getLsbD i := by
  induction vs generalizing B with
  | nil => simp at hB
  | cons v vs ih =>
    rw [bytesToBits_cons]
    cases B with
    | zero =>
      rw [List.getD_append _ _ _ _ (by simpa using hi), Nat.mul_zero, Nat.zero_add, byteString_getD v i hi]
      simp
    | succ B =>
      rw [List.getD_append_right _ _ _ _ (by simp; omega), byteString_length]
      have : 8 * (B + 1) + i - 8 = 8 * B + i := by omega
      rw [this, ih B (by simpa using hB)]
      simp

@[simp] theorem bitsToBytes_length (S : BitString) (n : Nat) : (bitsToBytes S n).length = n := by simp [bitsToBytes]

theorem seg_getD (S : BitString) (a b i : Nat) (h : i < b - a) : (seg S a b).getD i false = S.getD (a + i) false := by
  simp [seg, List.getD_eq_getElem?_getD, h]

/-- Bit `i` of byte `B` of bitsToBytes is character `8B + i` (40_bitorder.md R171). -/
theorem bitsToBytes_getLsbD (S : BitString) (n B i : Nat) (hB : B < n) (hi : i < 8) :
    ((bitsToBytes S n).getD B 0#8).getLsbD i = S.getD (8 * B + i) false := by
  have : (bitsToBytes S n).getD B 0#8 = byteOfString (seg S (8 * B) (8 * B + 8)) := by
    simp [bitsToBytes, List.getD_eq_getElem?_getD, hB]
  rw [this, byteOfString_getLsbD _ _ hi, seg_getD _ _ _ _ (by omega)]

@[simp] theorem window_length (m : BitStore) (o n : Nat) : (window m o n).length = n := storeRead_length m o n

theorem window_getD (m : BitStore) (o n i : Nat) (h : i < n) : (window m o n).getD i false = storeGet false m (o + i) :=
  storeRead_getD m o n i false h

/-- What a window write leaves at each position (00_scope.md R9). -/
theorem storeGet_putWindow (m : BitStore) (o : Nat) (S : BitString) (p : Nat) :
    storeGet false (putWindow m o S) p = if o ≤ p ∧ p < o + S.length then S.getD (p - o) false else storeGet false m p :=
  storeGet_fill S m o p

/-- A window reads back the string written there. -/
theorem window_putWindow (m : BitStore) (o : Nat) (S : BitString) : window (putWindow m o S) o S.length = S :=
  storeRead_fill S m o

/-- `wbyte(o, k)` parses the window byte reversed (00_scope.md R10, 40_bitorder.md R174). -/
theorem wbyte_eq_parseBits (bit : Nat → Bool) (o k : Nat) :
    wbyte bit o k = parseBits (rev ((List.range 8).map fun i => bit (o + 8 * k + i))) := by
  simp [wbyte, List.range_succ, rev, parseBits]
  omega

/-- `wbyte` is a byte. -/
theorem wbyte_lt (bit : Nat → Bool) (o k : Nat) : wbyte bit o k < 256 := by
  rw [wbyte_eq_parseBits]
  exact (parseBits_rev_lt _).trans_eq (by simp)

@[simp] theorem swenc_length_16 (u : Word) : (swenc u 16).length = 16 := by simp [swenc]

@[simp] theorem swenc_length_32 (u : Word) : (swenc u 32).length = 32 := by simp [swenc]

@[simp] theorem fwenc_length (P : Word) : (fwenc P).length = 32 := by simp [fwenc]

/-- The wide integer and the float are encoded alike (41_signed_word.md R203, 42_float_word.md R223). -/
theorem swenc_32_eq_fwenc (u : Word) : swenc u 32 = fwenc u := rfl

end Sys2Proof.Machine
end

