-- ==== Sys2Proof/Laws/State.lean ====
section
/-! SUPPORT. One lemma per field per update of State, so that no proof unfolds a record update. -/

namespace Sys2Proof.Machine

/-! ## succeed -/

@[simp] theorem State.succeed_params (s : State) : (s.succeed).params = s.params := rfl
@[simp] theorem State.succeed_ie (s : State) : (s.succeed).ie = s.ie := rfl
@[simp] theorem State.succeed_done (s : State) : (s.succeed).done = true := rfl
@[simp] theorem State.succeed_cmd (s : State) : (s.succeed).cmd = s.cmd := rfl
@[simp] theorem State.succeed_inflight (s : State) : (s.succeed).inflight = none := rfl
@[simp] theorem State.succeed_errCode (s : State) : (s.succeed).errCode = 0#4 := rfl
@[simp] theorem State.succeed_errSub (s : State) : (s.succeed).errSub = 0#4 := rfl
@[simp] theorem State.succeed_errInfo (s : State) : (s.succeed).errInfo = 0#32 := rfl
@[simp] theorem State.succeed_wlen (s : State) : (s.succeed).wlen = s.wlen := rfl
@[simp] theorem State.succeed_blen (s : State) : (s.succeed).blen = s.blen := rfl
@[simp] theorem State.succeed_tlen (s : State) : (s.succeed).tlen = s.tlen := rfl
@[simp] theorem State.succeed_off (s : State) : (s.succeed).off = s.off := rfl
@[simp] theorem State.succeed_arg (s : State) : (s.succeed).arg = s.arg := rfl
@[simp] theorem State.succeed_res (s : State) : (s.succeed).res = s.res := rfl
@[simp] theorem State.succeed_wbuf (s : State) : (s.succeed).wbuf = s.wbuf := rfl
@[simp] theorem State.succeed_bstr (s : State) : (s.succeed).bstr = s.bstr := rfl
@[simp] theorem State.succeed_stxt (s : State) : (s.succeed).stxt = s.stxt := rfl
@[simp] theorem State.succeed_bank0 (s : State) : (s.succeed).bank0 = s.bank0 := rfl
@[simp] theorem State.succeed_bank1 (s : State) : (s.succeed).bank1 = s.bank1 := rfl
@[simp] theorem State.succeed_hostFault (s : State) : (s.succeed).hostFault = s.hostFault := rfl
@[simp] theorem State.succeed_agenda (s : State) : (s.succeed).agenda = s.agenda := rfl
@[simp] theorem State.succeed_hostRead (s : State) : (s.succeed).hostRead = s.hostRead := rfl
@[simp] theorem State.succeed_draws (s : State) : (s.succeed).draws = s.draws := rfl

/-! ## okDone -/

@[simp] theorem State.okDone_params (s : State) : (s.okDone).params = s.params := rfl
@[simp] theorem State.okDone_ie (s : State) : (s.okDone).ie = s.ie := rfl
@[simp] theorem State.okDone_done (s : State) : (s.okDone).done = true := rfl
@[simp] theorem State.okDone_cmd (s : State) : (s.okDone).cmd = s.cmd := rfl
@[simp] theorem State.okDone_inflight (s : State) : (s.okDone).inflight = none := rfl
@[simp] theorem State.okDone_errCode (s : State) : (s.okDone).errCode = 0#4 := rfl
@[simp] theorem State.okDone_errSub (s : State) : (s.okDone).errSub = 0#4 := rfl
@[simp] theorem State.okDone_errInfo (s : State) : (s.okDone).errInfo = 0#32 := rfl
@[simp] theorem State.okDone_wlen (s : State) : (s.okDone).wlen = s.wlen := rfl
@[simp] theorem State.okDone_blen (s : State) : (s.okDone).blen = s.blen := rfl
@[simp] theorem State.okDone_tlen (s : State) : (s.okDone).tlen = s.tlen := rfl
@[simp] theorem State.okDone_off (s : State) : (s.okDone).off = s.off := rfl
@[simp] theorem State.okDone_arg (s : State) : (s.okDone).arg = s.arg := rfl
@[simp] theorem State.okDone_res (s : State) : (s.okDone).res = s.res := rfl
@[simp] theorem State.okDone_wbuf (s : State) : (s.okDone).wbuf = s.wbuf := rfl
@[simp] theorem State.okDone_bstr (s : State) : (s.okDone).bstr = s.bstr := rfl
@[simp] theorem State.okDone_stxt (s : State) : (s.okDone).stxt = s.stxt := rfl
@[simp] theorem State.okDone_bank0 (s : State) : (s.okDone).bank0 = s.bank0 := rfl
@[simp] theorem State.okDone_bank1 (s : State) : (s.okDone).bank1 = s.bank1 := rfl
@[simp] theorem State.okDone_hostFault (s : State) : (s.okDone).hostFault = s.hostFault := rfl
@[simp] theorem State.okDone_agenda (s : State) : (s.okDone).agenda = s.agenda := rfl
@[simp] theorem State.okDone_hostRead (s : State) : (s.okDone).hostRead = s.hostRead := rfl
@[simp] theorem State.okDone_draws (s : State) : (s.okDone).draws = s.draws := rfl

/-! ## takeError -/

@[simp] theorem State.takeError_params (s : State) (e : Raise) : (s.takeError e).params = s.params := rfl
@[simp] theorem State.takeError_ie (s : State) (e : Raise) : (s.takeError e).ie = s.ie := rfl
@[simp] theorem State.takeError_done (s : State) (e : Raise) : (s.takeError e).done = true := rfl
@[simp] theorem State.takeError_cmd (s : State) (e : Raise) : (s.takeError e).cmd = s.cmd := rfl
@[simp] theorem State.takeError_inflight (s : State) (e : Raise) : (s.takeError e).inflight = none := rfl
@[simp] theorem State.takeError_errCode (s : State) (e : Raise) : (s.takeError e).errCode = e.kind.code := rfl
@[simp] theorem State.takeError_errSub (s : State) (e : Raise) : (s.takeError e).errSub = BitVec.ofNat 4 e.sub := rfl
@[simp] theorem State.takeError_errInfo (s : State) (e : Raise) : (s.takeError e).errInfo = BitVec.ofNat 32 e.info := rfl
@[simp] theorem State.takeError_wlen (s : State) (e : Raise) : (s.takeError e).wlen = s.wlen := rfl
@[simp] theorem State.takeError_blen (s : State) (e : Raise) : (s.takeError e).blen = s.blen := rfl
@[simp] theorem State.takeError_tlen (s : State) (e : Raise) : (s.takeError e).tlen = s.tlen := rfl
@[simp] theorem State.takeError_off (s : State) (e : Raise) : (s.takeError e).off = s.off := rfl
@[simp] theorem State.takeError_arg (s : State) (e : Raise) : (s.takeError e).arg = s.arg := rfl
@[simp] theorem State.takeError_res (s : State) (e : Raise) : (s.takeError e).res = s.res := rfl
@[simp] theorem State.takeError_wbuf (s : State) (e : Raise) : (s.takeError e).wbuf = s.wbuf := rfl
@[simp] theorem State.takeError_bstr (s : State) (e : Raise) : (s.takeError e).bstr = s.bstr := rfl
@[simp] theorem State.takeError_stxt (s : State) (e : Raise) : (s.takeError e).stxt = s.stxt := rfl
@[simp] theorem State.takeError_bank0 (s : State) (e : Raise) : (s.takeError e).bank0 = s.bank0 := rfl
@[simp] theorem State.takeError_bank1 (s : State) (e : Raise) : (s.takeError e).bank1 = s.bank1 := rfl
@[simp] theorem State.takeError_hostFault (s : State) (e : Raise) : (s.takeError e).hostFault = s.hostFault := rfl
@[simp] theorem State.takeError_agenda (s : State) (e : Raise) : (s.takeError e).agenda = s.agenda := rfl
@[simp] theorem State.takeError_hostRead (s : State) (e : Raise) : (s.takeError e).hostRead = s.hostRead := rfl
@[simp] theorem State.takeError_draws (s : State) (e : Raise) : (s.takeError e).draws = s.draws := rfl

/-! ## errDone -/

@[simp] theorem State.errDone_params (s : State) (c u : BitVec 4) (n : Word) : (s.errDone c u n).params = s.params := rfl
@[simp] theorem State.errDone_ie (s : State) (c u : BitVec 4) (n : Word) : (s.errDone c u n).ie = s.ie := rfl
@[simp] theorem State.errDone_done (s : State) (c u : BitVec 4) (n : Word) : (s.errDone c u n).done = true := rfl
@[simp] theorem State.errDone_cmd (s : State) (c u : BitVec 4) (n : Word) : (s.errDone c u n).cmd = s.cmd := rfl
@[simp] theorem State.errDone_inflight (s : State) (c u : BitVec 4) (n : Word) : (s.errDone c u n).inflight = none := rfl
@[simp] theorem State.errDone_errCode (s : State) (c u : BitVec 4) (n : Word) : (s.errDone c u n).errCode = c := rfl
@[simp] theorem State.errDone_errSub (s : State) (c u : BitVec 4) (n : Word) : (s.errDone c u n).errSub = u := rfl
@[simp] theorem State.errDone_errInfo (s : State) (c u : BitVec 4) (n : Word) : (s.errDone c u n).errInfo = n := rfl
@[simp] theorem State.errDone_wlen (s : State) (c u : BitVec 4) (n : Word) : (s.errDone c u n).wlen = s.wlen := rfl
@[simp] theorem State.errDone_blen (s : State) (c u : BitVec 4) (n : Word) : (s.errDone c u n).blen = s.blen := rfl
@[simp] theorem State.errDone_tlen (s : State) (c u : BitVec 4) (n : Word) : (s.errDone c u n).tlen = s.tlen := rfl
@[simp] theorem State.errDone_off (s : State) (c u : BitVec 4) (n : Word) : (s.errDone c u n).off = s.off := rfl
@[simp] theorem State.errDone_arg (s : State) (c u : BitVec 4) (n : Word) : (s.errDone c u n).arg = s.arg := rfl
@[simp] theorem State.errDone_res (s : State) (c u : BitVec 4) (n : Word) : (s.errDone c u n).res = s.res := rfl
@[simp] theorem State.errDone_wbuf (s : State) (c u : BitVec 4) (n : Word) : (s.errDone c u n).wbuf = s.wbuf := rfl
@[simp] theorem State.errDone_bstr (s : State) (c u : BitVec 4) (n : Word) : (s.errDone c u n).bstr = s.bstr := rfl
@[simp] theorem State.errDone_stxt (s : State) (c u : BitVec 4) (n : Word) : (s.errDone c u n).stxt = s.stxt := rfl
@[simp] theorem State.errDone_bank0 (s : State) (c u : BitVec 4) (n : Word) : (s.errDone c u n).bank0 = s.bank0 := rfl
@[simp] theorem State.errDone_bank1 (s : State) (c u : BitVec 4) (n : Word) : (s.errDone c u n).bank1 = s.bank1 := rfl
@[simp] theorem State.errDone_hostFault (s : State) (c u : BitVec 4) (n : Word) : (s.errDone c u n).hostFault = s.hostFault := rfl
@[simp] theorem State.errDone_agenda (s : State) (c u : BitVec 4) (n : Word) : (s.errDone c u n).agenda = s.agenda := rfl
@[simp] theorem State.errDone_hostRead (s : State) (c u : BitVec 4) (n : Word) : (s.errDone c u n).hostRead = s.hostRead := rfl
@[simp] theorem State.errDone_draws (s : State) (c u : BitVec 4) (n : Word) : (s.errDone c u n).draws = s.draws := rfl

/-! ## startCommand -/

@[simp] theorem State.startCommand_params (s : State) (c : Word) : (s.startCommand c).params = s.params := rfl
@[simp] theorem State.startCommand_ie (s : State) (c : Word) : (s.startCommand c).ie = s.ie := rfl
@[simp] theorem State.startCommand_done (s : State) (c : Word) : (s.startCommand c).done = false := rfl
@[simp] theorem State.startCommand_cmd (s : State) (c : Word) : (s.startCommand c).cmd = c := rfl
@[simp] theorem State.startCommand_inflight (s : State) (c : Word) : (s.startCommand c).inflight = some c := rfl
@[simp] theorem State.startCommand_errCode (s : State) (c : Word) : (s.startCommand c).errCode = s.errCode := rfl
@[simp] theorem State.startCommand_errSub (s : State) (c : Word) : (s.startCommand c).errSub = s.errSub := rfl
@[simp] theorem State.startCommand_errInfo (s : State) (c : Word) : (s.startCommand c).errInfo = s.errInfo := rfl
@[simp] theorem State.startCommand_wlen (s : State) (c : Word) : (s.startCommand c).wlen = s.wlen := rfl
@[simp] theorem State.startCommand_blen (s : State) (c : Word) : (s.startCommand c).blen = s.blen := rfl
@[simp] theorem State.startCommand_tlen (s : State) (c : Word) : (s.startCommand c).tlen = s.tlen := rfl
@[simp] theorem State.startCommand_off (s : State) (c : Word) : (s.startCommand c).off = s.off := rfl
@[simp] theorem State.startCommand_arg (s : State) (c : Word) : (s.startCommand c).arg = s.arg := rfl
@[simp] theorem State.startCommand_res (s : State) (c : Word) : (s.startCommand c).res = s.res := rfl
@[simp] theorem State.startCommand_wbuf (s : State) (c : Word) : (s.startCommand c).wbuf = s.wbuf := rfl
@[simp] theorem State.startCommand_bstr (s : State) (c : Word) : (s.startCommand c).bstr = s.bstr := rfl
@[simp] theorem State.startCommand_stxt (s : State) (c : Word) : (s.startCommand c).stxt = s.stxt := rfl
@[simp] theorem State.startCommand_bank0 (s : State) (c : Word) : (s.startCommand c).bank0 = s.bank0 := rfl
@[simp] theorem State.startCommand_bank1 (s : State) (c : Word) : (s.startCommand c).bank1 = s.bank1 := rfl
@[simp] theorem State.startCommand_hostFault (s : State) (c : Word) : (s.startCommand c).hostFault = s.hostFault := rfl
@[simp] theorem State.startCommand_agenda (s : State) (c : Word) : (s.startCommand c).agenda = s.agenda := rfl
@[simp] theorem State.startCommand_hostRead (s : State) (c : Word) : (s.startCommand c).hostRead = s.hostRead := rfl
@[simp] theorem State.startCommand_draws (s : State) (c : Word) : (s.startCommand c).draws = s.draws := rfl

/-! ## bufferToString -/

@[simp] theorem State.bufferToString_params (s : State) : (s.bufferToString).params = s.params := rfl
@[simp] theorem State.bufferToString_ie (s : State) : (s.bufferToString).ie = s.ie := rfl
@[simp] theorem State.bufferToString_done (s : State) : (s.bufferToString).done = s.done := rfl
@[simp] theorem State.bufferToString_cmd (s : State) : (s.bufferToString).cmd = s.cmd := rfl
@[simp] theorem State.bufferToString_inflight (s : State) : (s.bufferToString).inflight = s.inflight := rfl
@[simp] theorem State.bufferToString_errCode (s : State) : (s.bufferToString).errCode = s.errCode := rfl
@[simp] theorem State.bufferToString_errSub (s : State) : (s.bufferToString).errSub = s.errSub := rfl
@[simp] theorem State.bufferToString_errInfo (s : State) : (s.bufferToString).errInfo = s.errInfo := rfl
@[simp] theorem State.bufferToString_wlen (s : State) : (s.bufferToString).wlen = s.wlen := rfl
@[simp] theorem State.bufferToString_blen (s : State) : (s.bufferToString).blen = BitVec.ofNat 32 (8 * s.wlen.toNat) := rfl
@[simp] theorem State.bufferToString_tlen (s : State) : (s.bufferToString).tlen = s.tlen := rfl
@[simp] theorem State.bufferToString_off (s : State) : (s.bufferToString).off = s.off := rfl
@[simp] theorem State.bufferToString_arg (s : State) : (s.bufferToString).arg = s.arg := rfl
@[simp] theorem State.bufferToString_res (s : State) : (s.bufferToString).res = s.res := rfl
@[simp] theorem State.bufferToString_wbuf (s : State) : (s.bufferToString).wbuf = s.wbuf := rfl
@[simp] theorem State.bufferToString_bstr (s : State) : (s.bufferToString).bstr = putWindow s.bstr 0 (bytesToBits (storeRead 0#8 s.wbuf 0 s.wlen.toNat)) := rfl
@[simp] theorem State.bufferToString_stxt (s : State) : (s.bufferToString).stxt = s.stxt := rfl
@[simp] theorem State.bufferToString_bank0 (s : State) : (s.bufferToString).bank0 = s.bank0 := rfl
@[simp] theorem State.bufferToString_bank1 (s : State) : (s.bufferToString).bank1 = s.bank1 := rfl
@[simp] theorem State.bufferToString_hostFault (s : State) : (s.bufferToString).hostFault = s.hostFault := rfl
@[simp] theorem State.bufferToString_agenda (s : State) : (s.bufferToString).agenda = s.agenda := rfl
@[simp] theorem State.bufferToString_hostRead (s : State) : (s.bufferToString).hostRead = s.hostRead := rfl
@[simp] theorem State.bufferToString_draws (s : State) : (s.bufferToString).draws = s.draws := rfl

/-! ## stringToBuffer -/

@[simp] theorem State.stringToBuffer_params (s : State) (n : Nat) : (s.stringToBuffer n).params = s.params := rfl
@[simp] theorem State.stringToBuffer_ie (s : State) (n : Nat) : (s.stringToBuffer n).ie = s.ie := rfl
@[simp] theorem State.stringToBuffer_done (s : State) (n : Nat) : (s.stringToBuffer n).done = s.done := rfl
@[simp] theorem State.stringToBuffer_cmd (s : State) (n : Nat) : (s.stringToBuffer n).cmd = s.cmd := rfl
@[simp] theorem State.stringToBuffer_inflight (s : State) (n : Nat) : (s.stringToBuffer n).inflight = s.inflight := rfl
@[simp] theorem State.stringToBuffer_errCode (s : State) (n : Nat) : (s.stringToBuffer n).errCode = s.errCode := rfl
@[simp] theorem State.stringToBuffer_errSub (s : State) (n : Nat) : (s.stringToBuffer n).errSub = s.errSub := rfl
@[simp] theorem State.stringToBuffer_errInfo (s : State) (n : Nat) : (s.stringToBuffer n).errInfo = s.errInfo := rfl
@[simp] theorem State.stringToBuffer_wlen (s : State) (n : Nat) : (s.stringToBuffer n).wlen = BitVec.ofNat 32 n := rfl
@[simp] theorem State.stringToBuffer_blen (s : State) (n : Nat) : (s.stringToBuffer n).blen = s.blen := rfl
@[simp] theorem State.stringToBuffer_tlen (s : State) (n : Nat) : (s.stringToBuffer n).tlen = s.tlen := rfl
@[simp] theorem State.stringToBuffer_off (s : State) (n : Nat) : (s.stringToBuffer n).off = s.off := rfl
@[simp] theorem State.stringToBuffer_arg (s : State) (n : Nat) : (s.stringToBuffer n).arg = s.arg := rfl
@[simp] theorem State.stringToBuffer_res (s : State) (n : Nat) : (s.stringToBuffer n).res = s.res := rfl
@[simp] theorem State.stringToBuffer_wbuf (s : State) (n : Nat) : (s.stringToBuffer n).wbuf = storeFill 0#8 s.wbuf 0 (bitsToBytes (window s.bstr 0 (8 * n)) n) := rfl
@[simp] theorem State.stringToBuffer_bstr (s : State) (n : Nat) : (s.stringToBuffer n).bstr = s.bstr := rfl
@[simp] theorem State.stringToBuffer_stxt (s : State) (n : Nat) : (s.stringToBuffer n).stxt = s.stxt := rfl
@[simp] theorem State.stringToBuffer_bank0 (s : State) (n : Nat) : (s.stringToBuffer n).bank0 = s.bank0 := rfl
@[simp] theorem State.stringToBuffer_bank1 (s : State) (n : Nat) : (s.stringToBuffer n).bank1 = s.bank1 := rfl
@[simp] theorem State.stringToBuffer_hostFault (s : State) (n : Nat) : (s.stringToBuffer n).hostFault = s.hostFault := rfl
@[simp] theorem State.stringToBuffer_agenda (s : State) (n : Nat) : (s.stringToBuffer n).agenda = s.agenda := rfl
@[simp] theorem State.stringToBuffer_hostRead (s : State) (n : Nat) : (s.stringToBuffer n).hostRead = s.hostRead := rfl
@[simp] theorem State.stringToBuffer_draws (s : State) (n : Nat) : (s.stringToBuffer n).draws = s.draws := rfl

/-! ## writeWindow -/

@[simp] theorem State.writeWindow_params (s : State) (S : BitString) : (s.writeWindow S).params = s.params := rfl
@[simp] theorem State.writeWindow_ie (s : State) (S : BitString) : (s.writeWindow S).ie = s.ie := rfl
@[simp] theorem State.writeWindow_done (s : State) (S : BitString) : (s.writeWindow S).done = s.done := rfl
@[simp] theorem State.writeWindow_cmd (s : State) (S : BitString) : (s.writeWindow S).cmd = s.cmd := rfl
@[simp] theorem State.writeWindow_inflight (s : State) (S : BitString) : (s.writeWindow S).inflight = s.inflight := rfl
@[simp] theorem State.writeWindow_errCode (s : State) (S : BitString) : (s.writeWindow S).errCode = s.errCode := rfl
@[simp] theorem State.writeWindow_errSub (s : State) (S : BitString) : (s.writeWindow S).errSub = s.errSub := rfl
@[simp] theorem State.writeWindow_errInfo (s : State) (S : BitString) : (s.writeWindow S).errInfo = s.errInfo := rfl
@[simp] theorem State.writeWindow_wlen (s : State) (S : BitString) : (s.writeWindow S).wlen = s.wlen := rfl
@[simp] theorem State.writeWindow_blen (s : State) (S : BitString) : (s.writeWindow S).blen = s.blen := rfl
@[simp] theorem State.writeWindow_tlen (s : State) (S : BitString) : (s.writeWindow S).tlen = s.tlen := rfl
@[simp] theorem State.writeWindow_off (s : State) (S : BitString) : (s.writeWindow S).off = s.off := rfl
@[simp] theorem State.writeWindow_arg (s : State) (S : BitString) : (s.writeWindow S).arg = s.arg := rfl
@[simp] theorem State.writeWindow_res (s : State) (S : BitString) : (s.writeWindow S).res = s.res := rfl
@[simp] theorem State.writeWindow_wbuf (s : State) (S : BitString) : (s.writeWindow S).wbuf = s.wbuf := rfl
@[simp] theorem State.writeWindow_bstr (s : State) (S : BitString) : (s.writeWindow S).bstr = putWindow s.bstr s.off.toNat S := rfl
@[simp] theorem State.writeWindow_stxt (s : State) (S : BitString) : (s.writeWindow S).stxt = s.stxt := rfl
@[simp] theorem State.writeWindow_bank0 (s : State) (S : BitString) : (s.writeWindow S).bank0 = s.bank0 := rfl
@[simp] theorem State.writeWindow_bank1 (s : State) (S : BitString) : (s.writeWindow S).bank1 = s.bank1 := rfl
@[simp] theorem State.writeWindow_hostFault (s : State) (S : BitString) : (s.writeWindow S).hostFault = s.hostFault := rfl
@[simp] theorem State.writeWindow_agenda (s : State) (S : BitString) : (s.writeWindow S).agenda = s.agenda := rfl
@[simp] theorem State.writeWindow_hostRead (s : State) (S : BitString) : (s.writeWindow S).hostRead = s.hostRead := rfl
@[simp] theorem State.writeWindow_draws (s : State) (S : BitString) : (s.writeWindow S).draws = s.draws := rfl

/-! ## setBank -/

@[simp] theorem State.setBank_params (s : State) (b : Bank) (x : BankState) : (s.setBank b x).params = s.params := by
  cases b <;> rfl
@[simp] theorem State.setBank_ie (s : State) (b : Bank) (x : BankState) : (s.setBank b x).ie = s.ie := by
  cases b <;> rfl
@[simp] theorem State.setBank_done (s : State) (b : Bank) (x : BankState) : (s.setBank b x).done = s.done := by
  cases b <;> rfl
@[simp] theorem State.setBank_cmd (s : State) (b : Bank) (x : BankState) : (s.setBank b x).cmd = s.cmd := by
  cases b <;> rfl
@[simp] theorem State.setBank_inflight (s : State) (b : Bank) (x : BankState) : (s.setBank b x).inflight = s.inflight := by
  cases b <;> rfl
@[simp] theorem State.setBank_errCode (s : State) (b : Bank) (x : BankState) : (s.setBank b x).errCode = s.errCode := by
  cases b <;> rfl
@[simp] theorem State.setBank_errSub (s : State) (b : Bank) (x : BankState) : (s.setBank b x).errSub = s.errSub := by
  cases b <;> rfl
@[simp] theorem State.setBank_errInfo (s : State) (b : Bank) (x : BankState) : (s.setBank b x).errInfo = s.errInfo := by
  cases b <;> rfl
@[simp] theorem State.setBank_wlen (s : State) (b : Bank) (x : BankState) : (s.setBank b x).wlen = s.wlen := by
  cases b <;> rfl
@[simp] theorem State.setBank_blen (s : State) (b : Bank) (x : BankState) : (s.setBank b x).blen = s.blen := by
  cases b <;> rfl
@[simp] theorem State.setBank_tlen (s : State) (b : Bank) (x : BankState) : (s.setBank b x).tlen = s.tlen := by
  cases b <;> rfl
@[simp] theorem State.setBank_off (s : State) (b : Bank) (x : BankState) : (s.setBank b x).off = s.off := by
  cases b <;> rfl
@[simp] theorem State.setBank_arg (s : State) (b : Bank) (x : BankState) : (s.setBank b x).arg = s.arg := by
  cases b <;> rfl
@[simp] theorem State.setBank_res (s : State) (b : Bank) (x : BankState) : (s.setBank b x).res = s.res := by
  cases b <;> rfl
@[simp] theorem State.setBank_wbuf (s : State) (b : Bank) (x : BankState) : (s.setBank b x).wbuf = s.wbuf := by
  cases b <;> rfl
@[simp] theorem State.setBank_bstr (s : State) (b : Bank) (x : BankState) : (s.setBank b x).bstr = s.bstr := by
  cases b <;> rfl
@[simp] theorem State.setBank_stxt (s : State) (b : Bank) (x : BankState) : (s.setBank b x).stxt = s.stxt := by
  cases b <;> rfl
@[simp] theorem State.setBank_hostFault (s : State) (b : Bank) (x : BankState) : (s.setBank b x).hostFault = s.hostFault := by
  cases b <;> rfl
@[simp] theorem State.setBank_agenda (s : State) (b : Bank) (x : BankState) : (s.setBank b x).agenda = s.agenda := by
  cases b <;> rfl
@[simp] theorem State.setBank_hostRead (s : State) (b : Bank) (x : BankState) : (s.setBank b x).hostRead = s.hostRead := by
  cases b <;> rfl
@[simp] theorem State.setBank_draws (s : State) (b : Bank) (x : BankState) : (s.setBank b x).draws = s.draws := by
  cases b <;> rfl

@[simp] theorem State.bank_bank0 (s : State) : s.bank .bank0 = s.bank0 := rfl

@[simp] theorem State.bank_bank1 (s : State) : s.bank .bank1 = s.bank1 := rfl

/-- Reading a bank after replacing one. -/
theorem State.bank_setBank (s : State) (b c : Bank) (x : BankState) :
    (s.setBank b x).bank c = if c = b then x else s.bank c := by
  cases b <;> cases c <;> rfl

@[simp] theorem State.bank_setBank_same (s : State) (b : Bank) (x : BankState) : (s.setBank b x).bank b = x := by
  cases b <;> rfl

theorem State.bank_setBank_ne (s : State) (b c : Bank) (x : BankState) (h : c ≠ b) : (s.setBank b x).bank c = s.bank c := by
  rw [State.bank_setBank, if_neg h]

@[simp] theorem State.setBank_bank (s : State) (b : Bank) : s.setBank b (s.bank b) = s := by
  cases b <;> rfl

@[simp] theorem State.setBank_setBank (s : State) (b : Bank) (x y : BankState) : (s.setBank b x).setBank b y = s.setBank b y := by
  cases b <;> rfl

/-! ## Banks under the other updates -/

@[simp] theorem State.bank_withRes (s : State) (v : Word) (b : Bank) : ({ s with res := v } : State).bank b = s.bank b := by
  cases b <;> simp only [State.bank_bank0, State.bank_bank1]
@[simp] theorem State.bank_withAgenda (s : State) (l : List Turn) (b : Bank) :
    ({ s with agenda := l } : State).bank b = s.bank b := by
  cases b <;> simp only [State.bank_bank0, State.bank_bank1]
@[simp] theorem State.succeed_bank (s : State) (b : Bank) : (s.succeed).bank b = s.bank b := by
  cases b <;> rfl
@[simp] theorem State.okDone_bank (s : State) (b : Bank) : (s.okDone).bank b = s.bank b := by
  cases b <;> rfl
@[simp] theorem State.takeError_bank (s : State) (e : Raise) (b : Bank) : (s.takeError e).bank b = s.bank b := by
  cases b <;> rfl
@[simp] theorem State.errDone_bank (s : State) (c u : BitVec 4) (n : Word) (b : Bank) : (s.errDone c u n).bank b = s.bank b := by
  cases b <;> rfl
@[simp] theorem State.startCommand_bank (s : State) (c : Word) (b : Bank) : (s.startCommand c).bank b = s.bank b := by
  cases b <;> rfl
@[simp] theorem State.bufferToString_bank (s : State) (b : Bank) : (s.bufferToString).bank b = s.bank b := by
  cases b <;> rfl
@[simp] theorem State.stringToBuffer_bank (s : State) (n : Nat) (b : Bank) : (s.stringToBuffer n).bank b = s.bank b := by
  cases b <;> rfl
@[simp] theorem State.writeWindow_bank (s : State) (S : BitString) (b : Bank) : (s.writeWindow S).bank b = s.bank b := by
  cases b <;> rfl

@[simp] theorem State.setBank_succeed (s : State) (b : Bank) (x : BankState) :
    (s.setBank b x).succeed = s.succeed.setBank b x := by
  cases b <;> rfl

/-- The model's completion without error is the one statements write out. -/
theorem State.succeed_eq_okDone (s : State) : s.succeed = s.okDone := rfl

/-- The model's taking of an error is the one statements write out. -/
theorem State.takeError_eq_errDone (s : State) (e : Raise) :
    s.takeError e = s.errDone e.kind.code (BitVec.ofNat 4 e.sub) (BitVec.ofNat 32 e.info) := rfl

end Sys2Proof.Machine
end

