-- ==== Sys2Proof/Laws/Ops.lean ====
section
/-! SUPPORT. What each shared operation can do, said once: completion, the engine's turn, a step, a host access. -/

namespace Sys2Proof.Machine

/-- A command either applies its writes and succeeds, or takes its error on the state it started from
(60_exceptions.md R300). -/
theorem complete_cases {s t : State} {r : Except Raise State} (h : complete s r = .next t) :
    (∃ s', r = .ok s' ∧ t = s'.okDone) ∨
      (∃ e, r = .error e ∧ t = s.errDone e.kind.code (BitVec.ofNat 4 e.sub) (BitVec.ofNat 32 e.info)) := by
  cases r with
  | ok s' => exact .inl ⟨s', rfl, by simpa [complete, State.succeed_eq_okDone] using h.symm⟩
  | error e => exact .inr ⟨e, rfl, by simpa [complete, State.takeError_eq_errDone] using h.symm⟩

@[simp] theorem complete_ok (s s' : State) : complete s (.ok s') = .next s'.okDone := rfl

@[simp] theorem complete_error (s : State) (e : Raise) :
    complete s (.error e) = .next (s.errDone e.kind.code (BitVec.ofNat 4 e.sub) (BitVec.ofNat 32 e.info)) := rfl

@[simp] theorem illegalCommand_eq (s : State) : illegalCommand s = .next (s.errDone 6#4 0#4 0#32) := rfl

/-- No error kind has the code of success. -/
theorem ErrorKind.code_ne_zero (k : ErrorKind) : k.code ≠ 0#4 := by cases k <;> decide

/-- Every command's meaning is one completion (60_exceptions.md R300). -/
theorem exec_is_completion (i : Instr) (s : State) : ∃ r, exec i s = complete s r := by
  cases i
  case nop => exact ⟨.ok s, rfl⟩
  case b2s => exact ⟨.ok s.bufferToString, rfl⟩
  all_goals exact ⟨_, rfl⟩

/-- Whether the window at OFF passes the end of the bit string. -/
theorem windowPastEnd_eq_true {s : State} {n : Nat} : s.windowPastEnd n = true ↔ s.blen.toNat < s.off.toNat + n := by
  simp [State.windowPastEnd]

theorem windowPastEnd_eq_false {s : State} {n : Nat} : s.windowPastEnd n = false ↔ s.off.toNat + n ≤ s.blen.toNat := by
  simp [State.windowPastEnd]

/-- What the engine's turn can do. -/
theorem engineTurn_cases {s t : State} (h : engineTurn s = .next t) :
    (s.inflight = none ∧ t = s) ∨
      (∃ c i, s.inflight = some c ∧ decodeWord c = .ok i ∧ exec i s = .next t) ∨
      (∃ c e, s.inflight = some c ∧ decodeWord c = .error e ∧ t = s.errDone 6#4 0#4 0#32) := by
  unfold engineTurn State.fetch at h
  split at h
  · exact .inl ⟨‹_›, by simpa using h.symm⟩
  · split at h
    · exact .inr (.inl ⟨_, _, ‹_›, ‹_›, h⟩)
    · exact .inr (.inr ⟨_, _, ‹_›, ‹_›, by simpa using h.symm⟩)

/-- Whose turn a step is. -/
theorem step_cases {s t : State} (h : step s = .next t) :
    (s.agenda = [] ∧ engineTurn s = .next t) ∨
      (∃ rest, s.agenda = .engine :: rest ∧ engineTurn { s with agenda := rest } = .next t) ∨
      (∃ a rest, s.agenda = .host a :: rest ∧ busAccess a { s with agenda := rest } = .next t) := by
  unfold step at h
  split at h
  · exact .inl ⟨‹_›, h⟩
  · exact .inr (.inl ⟨_, ‹_›, h⟩)
  · exact .inr (.inr ⟨_, _, ‹_›, h⟩)

/-- What a host access can do. -/
theorem busAccess_cases {s t : State} {a : Access} (h : busAccess a s = .next t) :
    a.addr < Config.windowSize ∧
      ((violates s a = true ∧ t = s.violate a) ∨ (violates s a = false ∧ t = s.access a)) := by
  unfold busAccess at h
  split at h
  · cases h
  · refine ⟨by omega, ?_⟩
    split at h
    · exact .inl ⟨‹_›, by simpa using h.symm⟩
    · rename_i hv
      exact .inr ⟨by simpa using hv, by simpa using h.symm⟩

/-- When a host access keeps the protocol (20_memory.md R101, R109). -/
theorem violates_eq_false {s : State} {a : Access} :
    violates s a = false ↔ a.width = 4 ∧ a.addr % 4 = 0 ∧ (s.busy = true → a.allowedWhileBusy = true) := by
  cases hb : s.busy <;> cases ha : a.allowedWhileBusy <;> simp [violates, hb, ha]

end Sys2Proof.Machine
end

