-- ==== Sys2Proof/Laws/Bus.lean ====
section
/-! SUPPORT. What the host bus can do: what each address range reaches, the bits of a bus word, and one host turn. -/

namespace Sys2Proof.Machine

/-! ## The address map (20_memory.md R104 to R106) -/

theorem targetAt_reg {a : Nat} {r : Reg} (h : a < 0x1000) (hr : regAt a = some r) : targetAt a = .reg r := by
  unfold targetAt
  rw [if_pos h]
  simp only [hr]

theorem targetAt_reg_none {a : Nat} (h : a < 0x1000) (hr : regAt a = none) : targetAt a = .unmapped := by
  unfold targetAt
  rw [if_pos h]
  simp only [hr]

/-- The register addresses (20_memory.md R104). -/
theorem regAt_some {a : Nat} {r : Reg} (h : regAt a = some r) :
    (a < 0x030 ∨ (0x040 ≤ a ∧ a < 0x04C) ∨ (0x050 ≤ a ∧ a < 0x05C) ∨ (0x100 ≤ a ∧ a < 0x118)) := by
  unfold regAt at h
  split at h <;> first
    | decide
    | cases h

/-- The addresses of the register region that hold no register (20_memory.md R104, R108). -/
theorem regAt_hole {a : Nat}
    (h : (0x030 ≤ a ∧ a < 0x040) ∨ (0x04C ≤ a ∧ a < 0x050) ∨ (0x05C ≤ a ∧ a < 0x100) ∨ 0x118 ≤ a) : regAt a = none := by
  cases hr : regAt a with
  | none => rfl
  | some r =>
    have := regAt_some hr
    omega

/-- What each region of the window reaches (20_memory.md R105, R108). -/
theorem targetAt_regions (a : Nat) :
    ((0x1000 ≤ a ∧ a < 0x10000) ∨ (0x40000 ≤ a ∧ a < 0x100000) ∨ 0x300000 ≤ a → targetAt a = .unmapped) ∧
    (0x10000 ≤ a → a < 0x20000 → targetAt a = .wbuf (a - 0x10000)) ∧
    (0x20000 ≤ a → a < 0x30000 → targetAt a = .bstr (a - 0x20000)) ∧
    (0x30000 ≤ a → a < 0x40000 → targetAt a = .stxt (a - 0x30000)) ∧
    (0x100000 ≤ a → a < 0x200000 → targetAt a = bankTarget .bank0 (a - 0x100000)) ∧
    (0x200000 ≤ a → a < 0x300000 → targetAt a = bankTarget .bank1 (a - 0x200000)) := by
  unfold targetAt
  refine ⟨?_, ?_, ?_, ?_, ?_, ?_⟩ <;> intros <;> (repeat' split) <;> first
    | omega
    | rfl

theorem targetAt_gap {a : Nat} (h : (0x1000 ≤ a ∧ a < 0x10000) ∨ (0x40000 ≤ a ∧ a < 0x100000) ∨ 0x300000 ≤ a) :
    targetAt a = .unmapped := (targetAt_regions a).1 h

theorem targetAt_wbuf {a : Nat} (h : 0x10000 ≤ a) (h' : a < 0x20000) : targetAt a = .wbuf (a - 0x10000) :=
  (targetAt_regions a).2.1 h h'

theorem targetAt_bstr {a : Nat} (h : 0x20000 ≤ a) (h' : a < 0x30000) : targetAt a = .bstr (a - 0x20000) :=
  (targetAt_regions a).2.2.1 h h'

theorem targetAt_stxt {a : Nat} (h : 0x30000 ≤ a) (h' : a < 0x40000) : targetAt a = .stxt (a - 0x30000) :=
  (targetAt_regions a).2.2.2.1 h h'

theorem targetAt_bank0 {a : Nat} (h : 0x100000 ≤ a) (h' : a < 0x200000) :
    targetAt a = bankTarget .bank0 (a - 0x100000) := (targetAt_regions a).2.2.2.2.1 h h'

theorem targetAt_bank1 {a : Nat} (h : 0x200000 ≤ a) (h' : a < 0x300000) :
    targetAt a = bankTarget .bank1 (a - 0x200000) := (targetAt_regions a).2.2.2.2.2 h h'

/-- Offset `o` of the bank base `0x10_0000 × (b+1)` (20_memory.md R106). -/
theorem targetAt_bank (b : Bank) {o : Nat} (h : o < 0x100000) :
    targetAt (0x100000 * (b.number + 1) + o) = bankTarget b o := by
  cases b with
  | bank0 =>
    rw [Bank.number, targetAt_bank0 (by omega) (by omega)]
    exact congrArg _ (by omega)
  | bank1 =>
    rw [Bank.number, targetAt_bank1 (by omega) (by omega)]
    exact congrArg _ (by omega)

/-- What each table of a bank reaches (20_memory.md R106). -/
theorem bankTarget_tables (b : Bank) (o : Nat) :
    (o < 0x8000 → bankTarget b o = .ftab b (o / 32) (o % 32 / 4)) ∧
    (0x8000 ≤ o → o < 0x8080 → bankTarget b o = .present b ((o - 0x8000) / 4)) ∧
    (0x10000 ≤ o → o < 0x50000 → bankTarget b o = .name b ((o - 0x10000) / 256) ((o - 0x10000) % 256)) ∧
    (0x80000 ≤ o → o < 0xC0000 → bankTarget b o = .val b ((o - 0x80000) / 4)) ∧
    ((0x8080 ≤ o ∧ o < 0x10000) ∨ (0x50000 ≤ o ∧ o < 0x80000) ∨ 0xC0000 ≤ o → bankTarget b o = .unmapped) := by
  unfold bankTarget
  refine ⟨?_, ?_, ?_, ?_, ?_⟩ <;> intros <;> (repeat' split) <;> first
    | omega
    | rfl

theorem bankTarget_ftab (b : Bank) {o : Nat} (h : o < 0x8000) : bankTarget b o = .ftab b (o / 32) (o % 32 / 4) :=
  (bankTarget_tables b o).1 h

theorem bankTarget_present (b : Bank) {o : Nat} (h : 0x8000 ≤ o) (h' : o < 0x8080) :
    bankTarget b o = .present b ((o - 0x8000) / 4) := (bankTarget_tables b o).2.1 h h'

theorem bankTarget_name (b : Bank) {o : Nat} (h : 0x10000 ≤ o) (h' : o < 0x50000) :
    bankTarget b o = .name b ((o - 0x10000) / 256) ((o - 0x10000) % 256) := (bankTarget_tables b o).2.2.1 h h'

theorem bankTarget_val (b : Bank) {o : Nat} (h : 0x80000 ≤ o) (h' : o < 0xC0000) :
    bankTarget b o = .val b ((o - 0x80000) / 4) := (bankTarget_tables b o).2.2.2.1 h h'

theorem bankTarget_gap (b : Bank) {o : Nat}
    (h : (0x8080 ≤ o ∧ o < 0x10000) ∨ (0x50000 ≤ o ∧ o < 0x80000) ∨ 0xC0000 ≤ o) : bankTarget b o = .unmapped :=
  (bankTarget_tables b o).2.2.2.2 h

theorem bankTarget_not_reg (b : Bank) (o : Nat) (r : Reg) : bankTarget b o ≠ .reg r := by
  unfold bankTarget
  repeat' split
  all_goals exact Target.noConfusion

/-- Only the register region reaches a register (20_memory.md R105). -/
theorem regAt_of_targetAt {a : Nat} {r : Reg} (h : targetAt a = .reg r) : regAt a = some r := by
  by_cases h0 : a < 0x1000
  · cases hr : regAt a with
    | none => rw [targetAt_reg_none h0 hr] at h; cases h
    | some r' => rw [targetAt_reg h0 hr] at h; cases h; rfl
  · exfalso
    unfold targetAt at h
    rw [if_neg h0] at h
    repeat' split at h
    all_goals simp only [bankTarget_not_reg, reduceCtorEq] at h

/-- The addresses a host may read while a command is in flight (20_memory.md R109). -/
theorem readableWhileBusy_addr {a : Nat} {r : Reg} (h : regAt a = some r) (hr : r.readableWhileBusy = true) :
    a ∈ [0x000, 0x004, 0x008, 0x00C, 0x100, 0x104, 0x108, 0x10C, 0x110, 0x114] := by
  unfold regAt at h
  split at h <;> cases h <;> first
    | exact absurd hr (by decide)
    | decide

/-- The addresses a host may write while a command is in flight (20_memory.md R109). -/
theorem writableWhileBusy_addr {a : Nat} {r : Reg} (h : regAt a = some r) (hr : r.writableWhileBusy = true) :
    a ∈ [0x004, 0x008] := by
  unfold regAt at h
  split at h <;> cases h <;> first
    | exact absurd hr (by decide)
    | decide

/-! ## Bus words (20_memory.md R102, R103, R107) -/

/-- Bit `j` of a bus word of bytes is bit `j % 8` of its byte `j / 8`. -/
theorem busBytes_getLsbD (m : Memory) (size k j : Nat) (h : j < 32) :
    (busBytes m size k).getLsbD j = (decide (k + j / 8 < size) && (storeGet 0#8 m (k + j / 8)).getLsbD (j % 8)) := by
  have e : 8 * (j / 8) + j % 8 = j := Nat.div_add_mod j 8
  unfold busBytes
  rw [wordOfBits_getLsbD _ _ h]
  conv => lhs; rw [← e]
  rw [bytesToBits_getD _ _ _ (by simp; omega) (by omega), List.getD_eq_getElem _ _ (by simp; omega)]
  simp only [List.getElem_map, List.getElem_range]
  by_cases hs : k + j / 8 < size <;> simp [hs]

/-- Bit `j` of a bus word of bits is the bit at `i + j`, 0 outside the memory. -/
theorem busBits_getLsbD (m : BitStore) (size i j : Nat) (h : j < 32) :
    (busBits m size i).getLsbD j = (decide (i + j < size) && storeGet false m (i + j)) := by
  unfold busBits
  rw [wordOfBits_getLsbD _ _ h, List.getD_eq_getElem _ _ (by simpa using h)]
  simp

/-- What a byte reads as after a bus write of four bytes: inside the word and the memory the byte of `v`, else as before. -/
theorem storeGet_busPutBytes (m : Memory) (size k : Nat) (v : Word) (a : Nat) :
    storeGet 0#8 (busPutBytes m size k v) a =
      if k ≤ a ∧ a < k + 4 ∧ a < size then v.extractLsb' (8 * (a - k)) 8 else storeGet 0#8 m a := by
  unfold busPutBytes
  rw [storeGet_fill]
  have hl : (wordBytes v).length = 4 := rfl
  simp only [List.length_take, hl]
  by_cases h : k ≤ a ∧ a < k + 4 ∧ a < size
  · rw [if_pos (by omega), if_pos h, List.getD_eq_getElem?_getD, List.getElem?_take, if_pos (by omega)]
    have : a - k = 0 ∨ a - k = 1 ∨ a - k = 2 ∨ a - k = 3 := by omega
    rcases this with e | e | e | e <;> rw [e] <;> rfl
  · rw [if_neg (by omega), if_neg h]

/-- What a bit reads as after a bus write of 32 bits: inside the word and the memory the bit of `v`, else as before. -/
theorem storeGet_busPutBits (m : BitStore) (size i : Nat) (v : Word) (p : Nat) :
    storeGet false (busPutBits m size i v) p =
      if i ≤ p ∧ p < i + 32 ∧ p < size then v.getLsbD (p - i) else storeGet false m p := by
  unfold busPutBits
  rw [storeGet_fill]
  simp only [List.length_take, lowBits_length]
  by_cases h : i ≤ p ∧ p < i + 32 ∧ p < size
  · rw [if_pos (by omega), if_pos h, List.getD_eq_getElem?_getD, List.getElem?_take, if_pos (by omega),
      ← List.getD_eq_getElem?_getD, lowBits_getD _ _ _ (by omega)]
  · rw [if_neg (by omega), if_neg h]

/-- A bus write of bytes keeps the canonical form and the size. -/
theorem busPutBytes_wf {m : Memory} {size : Nat} (k : Nat) (v : Word) (h : Memory.wf m = true) (hb : storeBelow size m = true) :
    Memory.wf (busPutBytes m size k v) = true ∧ storeBelow size (busPutBytes m size k v) = true := by
  refine ⟨storeFill_wf _ _ _ h, ?_⟩
  by_cases hk : k ≤ size
  · exact storeFill_below _ _ _ hb (by rw [List.length_take]; omega)
  · have : size - k = 0 := by omega
    rw [busPutBytes, this]
    exact hb

/-- A bus write of bits keeps the canonical form and the size. -/
theorem busPutBits_wf {m : BitStore} {size : Nat} (i : Nat) (v : Word) (h : BitStore.wf m = true)
    (hb : storeBelow size m = true) :
    BitStore.wf (busPutBits m size i v) = true ∧ storeBelow size (busPutBits m size i v) = true := by
  refine ⟨storeFill_wf _ _ _ h, ?_⟩
  by_cases hk : i ≤ size
  · exact storeFill_below _ _ _ hb (by rw [List.length_take]; omega)
  · have : size - i = 0 := by omega
    rw [busPutBits, this]
    exact hb

/-! ## Field table and name words (20_memory.md R106) -/

/-- Bit `i` of word 0 of an entry: `TYPE`, `SIDE` and `NAMELEN` in their places, 0 elsewhere. -/
theorem FieldEntry.headWord_getLsbD (e : FieldEntry) (i : Nat) :
    e.headWord.getLsbD i =
      if i < 3 then e.kind.code.getLsbD i else if i = 3 then e.side.bit
      else if 8 ≤ i ∧ i < 16 then e.nameLen.getLsbD (i - 8) else false := by
  have hl (j : Nat) (h : j < 8) : (lowBits 8 e.nameLen).getD j false = e.nameLen.getLsbD j := lowBits_getD _ _ _ h
  by_cases hi : i < 32
  · rw [headWord, wordOfBits_getLsbD _ _ hi]
    rcases Nat.lt_or_ge i 8 with h8 | h8
    · match i, h8 with
      | 0, _ | 1, _ | 2, _ | 3, _ | 4, _ | 5, _ | 6, _ | 7, _ => rfl
    · rw [if_neg (by omega), if_neg (by omega), List.getD_append_right _ _ _ _ (by simpa using h8)]
      simp only [List.length_append, lowBits_length, List.length_singleton, List.length_replicate]
      by_cases h16 : i < 16
      · rw [if_pos ⟨h8, h16⟩, hl _ (by omega)]
      · rw [if_neg (by omega), List.getD_eq_default _ _ (by simp; omega)]
  · rw [BitVec.getLsbD_of_ge _ _ (by omega), if_neg (by omega), if_neg (by omega), if_neg (by omega)]

/-- Byte `i` of a name word is the name's byte, 0 at and beyond `NAMELEN`. -/
theorem FieldEntry.busName_getLsbD (e : FieldEntry) (j i m : Nat) (hi : i < 4) (hm : m < 8) :
    (e.busName j).getLsbD (8 * i + m) =
      (decide (j + i < e.nameLen.toNat) && (e.name.getD (j + i) 0#8).getLsbD m) := by
  unfold busName
  rw [wordOfBits_getLsbD _ _ (by omega), bytesToBits_getD _ _ _ (by simpa using hi) hm,
    List.getD_eq_getElem _ _ (by simpa using hi)]
  simp only [List.getElem_map, List.getElem_range]
  by_cases h : j + i < e.nameLen.toNat <;> simp [h]

/-- Entry `f` is the listed one below `NFIELDS`, all zero from there up (10_state.md R50, R51). -/
theorem BankState.entry_eq (b : BankState) (f : Nat) :
    b.entry f = if f < b.nfields.toNat then b.fields.getD f FieldEntry.zero else FieldEntry.zero := by
  unfold BankState.entry BankState.schema
  simp only [List.getD_eq_getElem?_getD, List.getElem?_take]
  split <;> rfl

/-! ## Host turns -/

/-- Reading a target does not look at the agenda. -/
@[simp] theorem State.readTarget_withAgenda (s : State) (l : List Turn) (t : Target) :
    ({ s with agenda := l } : State).readTarget t = s.readTarget t := by
  cases t with
  | reg r => cases r <;> rfl
  | ftab b f w => simp only [State.readTarget, State.bank_withAgenda]
  | present b k => simp only [State.readTarget, State.bank_withAgenda]
  | name b f j => simp only [State.readTarget, State.bank_withAgenda]
  | val b v => simp only [State.readTarget, State.bank_withAgenda]
  | wbuf k => rfl
  | bstr k => rfl
  | stxt k => rfl
  | unmapped => rfl

/-- A host access that keeps the protocol (20_memory.md R101, R109). -/
theorem step_hostAccess {s : State} {a : Access} {rest : List Turn} (ha : s.agenda = .host a :: rest) (h4 : a.width = 4)
    (hm : a.addr % 4 = 0) (hw : a.addr < Config.windowSize) (hb : s.inflight = none ∨ a.allowedWhileBusy = true) :
    step s = .next (({ s with agenda := rest } : State).access a) := by
  have hv : violates { s with agenda := rest } a = false := by
    refine violates_eq_false.2 ⟨h4, hm, fun h => ?_⟩
    rcases hb with hi | hb
    · simp [State.busy, hi] at h
    · exact hb
  simp only [step, ha, busAccess, hv, if_neg (Nat.not_le.2 hw)]
  rfl

/-- A host write that keeps the protocol while the engine is idle. -/
theorem step_hostWrite {s : State} {a : Nat} {v : Word} {rest : List Turn} (ha : s.agenda = .host (.write a 4 v) :: rest)
    (h4 : a % 4 = 0) (hw : a < Config.windowSize) (hi : s.inflight = none) :
    step s = .next (({ s with agenda := rest } : State).writeTarget (targetAt a) v) :=
  step_hostAccess ha rfl h4 hw (.inl hi)

end Sys2Proof.Machine
end

