-- ==== Sys2Proof/Laws/Parser.lean ====
section
/-! SUPPORT. What the schema parser can do: the text loop by lines, and one accepted or refused line. -/

namespace Sys2Proof.Machine

/-- A line is blank and skipped, refused by the first failing check, or adds one field (43_schema.md R240, R243, R250). -/
theorem parseLine_cases (p : Params) (k : Nat) (line : List Byte) (acc : ParseAcc) :
    (tokens line = [] ∧ parseLine p k line acc = .ok acc) ∨
      (∃ sub, parseLine p k line acc = .error (raiseSchema sub k)) ∨
      (∃ first rest l, tokens line = first :: rest ∧ readLine first rest = .ok l ∧ capacityCheck p acc l = none ∧
        parseLine p k line acc = .ok (acc.add l k)) := by
  unfold parseLine
  split
  · exact .inl ⟨‹_›, rfl⟩
  · split
    · exact .inr (.inl ⟨_, rfl⟩)
    · split
      · exact .inr (.inl ⟨_, rfl⟩)
      · exact .inr (.inr ⟨_, _, _, ‹_›, ‹_›, ‹_›, rfl⟩)

/-- The subcauses are 1 to 12 (43_schema.md R250). -/
theorem SchemaSub.code_range (sub : SchemaSub) : 1 ≤ sub.code ∧ sub.code ≤ 12 := by cases sub <;> decide

@[simp] theorem parseLines_nil (p : Params) (k : Nat) (acc : ParseAcc) : parseLines p k [] acc = .ok acc := rfl

theorem parseLines_cons (p : Params) (k : Nat) (line : List Byte) (ls : List (List Byte)) (acc : ParseAcc) :
    parseLines p k (line :: ls) acc =
      match parseLine p k line acc with
      | .error e => .error e
      | .ok acc' => parseLines p (k + 1) ls acc' := rfl

/-- An invariant of the accumulator that every added field keeps holds of what PARSE collects. -/
theorem parseLines_induct {p : Params} {P : ParseAcc → Prop}
    (add : ∀ k first rest l acc, P acc → readLine first rest = .ok l → capacityCheck p acc l = none →
      (∃ line, tokens line = first :: rest) → P (acc.add l k))
    {k : Nat} {ls : List (List Byte)} {acc acc' : ParseAcc} (h : P acc) (hp : parseLines p k ls acc = .ok acc') :
    P acc' := by
  induction ls generalizing k acc with
  | nil => cases hp; exact h
  | cons line ls ih =>
    rw [parseLines_cons] at hp
    rcases parseLine_cases p k line acc with ⟨_, he⟩ | ⟨sub, he⟩ | ⟨first, rest, l, ht, hr, hc, he⟩ <;>
      simp only [he] at hp
    · exact ih h hp
    · cases hp
    · exact ih (add k first rest l acc h hr hc ⟨line, ht⟩) hp

/-- A refused text is refused at a line, with every line before it accepted (43_schema.md R240, R250). -/
theorem parseLines_error {p : Params} {k : Nat} {ls : List (List Byte)} {acc : ParseAcc} {e : Raise}
    (h : parseLines p k ls acc = .error e) :
    ∃ pre line post acc' sub, ls = pre ++ line :: post ∧ parseLines p k pre acc = .ok acc' ∧
      parseLine p (k + pre.length) line acc' = .error e ∧ e = raiseSchema sub (k + pre.length) := by
  induction ls generalizing k acc with
  | nil => cases h
  | cons line ls ih =>
    rw [parseLines_cons] at h
    cases hl : parseLine p k line acc with
    | error e' =>
      simp only [hl, Except.error.injEq] at h
      subst h
      rcases parseLine_cases p k line acc with ⟨_, he⟩ | ⟨sub, he⟩ | ⟨_, _, _, _, _, _, he⟩ <;> rw [he] at hl <;>
        simp only [reduceCtorEq, Except.error.injEq] at hl
      exact ⟨[], line, ls, acc, sub, rfl, rfl, by simpa [hl] using he, by simpa using hl.symm⟩
    | ok acc' =>
      simp only [hl] at h
      obtain ⟨pre, bad, post, acc'', sub, rfl, hpre, hbad, he⟩ := ih h
      have hk : k + 1 + pre.length = k + (line :: pre).length := by simp; omega
      refine ⟨line :: pre, bad, post, acc'', sub, rfl, ?_, hk ▸ hbad, hk ▸ he⟩
      rw [parseLines_cons, hl]
      exact hpre

/-! ## Tokens -/

theorem tokensFrom_run (run : List Byte) (cur rest : List Byte) (h : ∀ c ∈ run, isSpace c = false) :
    tokensFrom cur (run ++ rest) = tokensFrom (run.reverse ++ cur) rest := by
  induction run generalizing cur with
  | nil => rfl
  | cons c run ih =>
    have hc : isSpace c = false := h c (by simp)
    rw [List.cons_append, tokensFrom, hc, if_neg (by simp), ih _ fun d hd => h d (by simp [hd])]
    simp

/-- A token holds at least one byte (43_schema.md R242, R245). -/
theorem tokensFrom_nonempty (cur line : List Byte) : ∀ t ∈ tokensFrom cur line, t ≠ [] := by
  induction line generalizing cur with
  | nil =>
    intro t ht
    by_cases hc : cur = []
    · simp [tokensFrom, hc] at ht
    · simp only [tokensFrom, hc, if_false, List.mem_singleton] at ht
      simp [ht, hc]
  | cons c cs ih =>
    intro t ht
    by_cases hs : isSpace c = true
    · by_cases hc : cur = []
      · simp only [tokensFrom, hs, if_true, hc] at ht
        exact ih _ t ht
      · simp only [tokensFrom, hs, if_true, hc, if_false, List.mem_cons] at ht
        rcases ht with rfl | ht
        · simpa using hc
        · exact ih _ t ht
    · simp only [tokensFrom, hs] at ht
      exact ih _ t ht

/-- A token holds no whitespace (43_schema.md R242). -/
theorem tokensFrom_no_space (cur line : List Byte) (hcur : ∀ c ∈ cur, isSpace c = false) :
    ∀ t ∈ tokensFrom cur line, ∀ c ∈ t, isSpace c = false := by
  induction line generalizing cur with
  | nil =>
    intro t ht
    by_cases hc : cur = []
    · simp [tokensFrom, hc] at ht
    · simp only [tokensFrom, hc, if_false, List.mem_singleton] at ht
      subst ht
      simpa using hcur
  | cons c cs ih =>
    intro t ht
    by_cases hs : isSpace c = true
    · by_cases hc : cur = []
      · simp only [tokensFrom, hs, if_true, hc] at ht
        exact ih [] (by simp) t ht
      · simp only [tokensFrom, hs, if_true, hc, if_false, List.mem_cons] at ht
        rcases ht with rfl | ht
        · simpa using hcur
        · exact ih [] (by simp) t ht
    · simp only [tokensFrom, hs] at ht
      refine ih (c :: cur) ?_ t ht
      intro d hd
      rcases List.mem_cons.1 hd with rfl | hd
      · simpa using hs
      · exact hcur d hd

/-! ## Checks -/

/-- What a line passes when checks (g) to (l) pass (43_schema.md R250, R252). -/
theorem capacityCheck_none {p : Params} {acc : ParseAcc} {l : LineFields} (h : capacityCheck p acc l = none) :
    l.name.length ≤ p.nameMax ∧ (∀ g ∈ acc.fields, g.name ≠ l.name) ∧ acc.fields.length ≠ p.nF ∧
      l.off + l.kind.width l.alen ≤ 8 * p.nB ∧ acc.words + l.kind.words l.alen ≤ p.nV ∧
      (p.overlapIsError = true → overlaps l.off (l.kind.width l.alen) acc.fields = false) := by
  unfold capacityCheck at h
  iterate 6 (split at h <;> [cases h; skip])
  rename_i h1 h2 h3 h4 h5 h6
  refine ⟨by omega, ?_, h3, by omega, by omega, ?_⟩
  · intro g hg he
    exact h2 (List.any_eq_true.2 ⟨g, hg, by simp [he]⟩)
  · intro ho
    simpa [ho] using h6

/-- What a line says when checks (a) to (f) pass (43_schema.md R250). -/
theorem readLine_ok {first : List Byte} {rest : List (List Byte)} {l : LineFields} (h : readLine first rest = .ok l) :
    ∃ type more, rest = l.name :: type :: more ∧ offsetOf first = some l.off ∧ kindOf type = some l.kind ∧
      arrayLength l.kind more = .ok l.alen := by
  unfold readLine at h
  split at h <;> [cases h; skip]
  split at h <;> [skip; cases h]
  split at h <;> [cases h; skip]
  split at h <;> [cases h; skip]
  cases h
  exact ⟨_, _, rfl, ‹_›, ‹_›, ‹_›⟩

/-- The array length is at least 1 exactly for arrays (43_schema.md R247). -/
theorem arrayLength_ok {kind : FieldKind} {rest : List (List Byte)} {n : Nat} (h : arrayLength kind rest = .ok n) :
    1 ≤ n ↔ kind = .float32Array := by
  unfold arrayLength at h
  split at h
  · cases h
  · split at h
    · cases h
    · split at h
      · cases h
        rename_i tok _ _ _ hl
        unfold lengthOf at hl
        split at hl
        · cases hl
          simp; omega
        · cases hl
      · cases h
  · cases h
    simp; assumption
  · cases h

end Sys2Proof.Machine
end

