-- ==== Sys2Proof/Laws/PerInstr.lean ====
section
/-! SUPPORT. The family `MatchMask`: the word the encoder writes for a command matches the command's row of the opcode table
(30_encoding.md R142). One lemma per constructor. -/

namespace Sys2Proof.Laws.MatchMask

/-- A well-formed command's word agrees with the `match` word of its row on the bits of the row's `mask`. -/
def Statement (i : Instr) : Prop := i.wellFormed = true → encode i &&& i.tableMask = i.tableMatch

theorem nop : Statement .nop := by unfold Statement; decide
theorem b2s : Statement .b2s := by unfold Statement; decide
theorem s2b : Statement .s2b := by unfold Statement; decide
theorem bitrd : Statement .bitrd := by unfold Statement; decide
theorem bitwr : Statement .bitwr := by unfold Statement; decide
theorem u8rd : Statement .u8rd := by unfold Statement; decide
theorem u8wr : Statement .u8wr := by unfold Statement; decide

/-- Every width that fits the field `W` stays inside it. -/
theorem width_masked : ∀ w : Fin 256,
    encode (.swdec w.val) &&& 0xFF00FFFF#32 = 0x14#32 ∧ encode (.swenc w.val) &&& 0xFF00FFFF#32 = 0x15#32 := by
  decide +kernel

theorem swdec (w : Nat) : Statement (.swdec w) := by
  intro h
  have hw : w < 256 := Nat.lt_succ_of_le (of_decide_eq_true h)
  exact (width_masked ⟨w, hw⟩).1

theorem swenc (w : Nat) : Statement (.swenc w) := by
  intro h
  have hw : w < 256 := Nat.lt_succ_of_le (of_decide_eq_true h)
  exact (width_masked ⟨w, hw⟩).2

theorem fwdec : Statement .fwdec := by unfold Statement; decide
theorem fwenc : Statement .fwenc := by unfold Statement; decide
theorem parse (b : Bank) : Statement (.parse b) := by unfold Statement; cases b <;> decide
theorem decode (b : Bank) : Statement (.decode b) := by unfold Statement; cases b <;> decide
theorem encode (b : Bank) : Statement (.encode b) := by unfold Statement; cases b <;> decide

end Sys2Proof.Laws.MatchMask
end

