-- ==== Sys2Proof/Laws/Record.lean ====
section
/-! SUPPORT. What the record codec's loops can do: slots filled one after the other, windows written one over the other, and
the layout of slots. -/

namespace Sys2Proof.Machine

/-- In a well-formed bank every entry listed is a field of the schema. -/
theorem BankState.Wf.schema_eq {p : Params} {b : BankState} (h : b.Wf p) : b.schema = b.fields := by
  unfold BankState.schema
  rw [← h.nfields_eq]
  exact List.take_length

/-- Slots that tile lie inside the tiled range and follow each other (10_state.md R54). -/
theorem slotsTile_layout {es : List FieldEntry} {base top : Nat} (h : slotsTile base es top = true) :
    base ≤ top ∧ (∀ e ∈ es, base ≤ e.vbase.toNat ∧ e.vbase.toNat + e.words ≤ top) ∧
      es.Pairwise (fun e g => e.vbase.toNat + e.words ≤ g.vbase.toNat) := by
  induction es generalizing base with
  | nil =>
    simp only [slotsTile, decide_eq_true_eq] at h
    simp [h]
  | cons e es ih =>
    simp only [slotsTile, Bool.and_eq_true, decide_eq_true_eq] at h
    obtain ⟨h1, h2, h3⟩ := ih h.2
    refine ⟨by omega, ?_, List.pairwise_cons.2 ⟨fun g hg => by have := (h2 g hg).1; omega, h3⟩⟩
    intro x hx
    rcases List.mem_cons.1 hx with rfl | hx
    · omega
    · have := h2 x hx
      omega

/-- A field added after the last slot keeps the tiling. -/
theorem slotsTile_append {es : List FieldEntry} {e : FieldEntry} {base top : Nat} (h : slotsTile base es top = true)
    (he : e.vbase.toNat = top) : slotsTile base (es ++ [e]) (top + e.words) = true := by
  induction es generalizing base with
  | nil =>
    simp only [slotsTile, decide_eq_true_eq] at h
    subst h
    simp [slotsTile, he]
  | cons x es ih =>
    simp only [slotsTile, Bool.and_eq_true] at h
    simp only [List.cons_append, slotsTile, Bool.and_eq_true]
    exact ⟨h.1, ih h.2⟩

/-- DECODE fills exactly the words of the slot. -/
@[simp] theorem decodeSlot_length (m : BitStore) (e : FieldEntry) : (decodeSlot m e).length = e.words := by
  unfold decodeSlot FieldEntry.words
  cases e.kind <;> simp [FieldKind.words]

/-- Extraction leaves every word outside the slots as it was. -/
theorem storeGet_extractAll_outside (m : BitStore) (es : List FieldEntry) (val : WordStore) (v : Nat)
    (h : ∀ e ∈ es, ¬ e.OwnsWord v) : storeGet 0#32 (extractAll m es val) v = storeGet 0#32 val v := by
  induction es generalizing val with
  | nil => rfl
  | cons e es ih =>
    have he : ¬ (e.vbase.toNat ≤ v ∧ v < e.vbase.toNat + e.words) := h e (by simp)
    show storeGet 0#32 (extractAll m es _) v = _
    rw [ih _ fun g hg => h g (by simp [hg]), storeGet_fill_outside _ _ _ _ (by rw [decodeSlot_length]; omega)]

/-- Extraction leaves each slot holding what DECODE puts there, where slots follow each other. -/
theorem slotOf_extractAll (m : BitStore) {es : List FieldEntry} (val : WordStore)
    (hp : es.Pairwise fun e g => e.vbase.toNat + e.words ≤ g.vbase.toNat) {e : FieldEntry} (he : e ∈ es) :
    slotOf (extractAll m es val) e = decodeSlot m e := by
  induction es generalizing val with
  | nil => cases he
  | cons x es ih =>
    rw [List.pairwise_cons] at hp
    rcases List.mem_cons.1 he with rfl | he
    · have rest : storeRead 0#32 (extractAll m es (storeFill 0#32 val e.vbase.toNat (decodeSlot m e))) e.vbase.toNat e.words =
          storeRead 0#32 (storeFill 0#32 val e.vbase.toNat (decodeSlot m e)) e.vbase.toNat e.words := by
        apply storeRead_congr
        intro i hi
        apply storeGet_extractAll_outside
        intro g hg ho
        have := hp.1 g hg
        have := ho.1
        omega
      show storeRead 0#32 (extractAll m es _) e.vbase.toNat e.words = _
      rw [rest, ← decodeSlot_length m e, storeRead_fill]
    · exact ih _ hp.2 he

/-- Extraction keeps the canonical form and the size of VAL. -/
theorem extractAll_wf (m : BitStore) {es : List FieldEntry} {val : WordStore} {n : Nat}
    (hf : ∀ e ∈ es, e.vbase.toNat + e.words ≤ n) (h : WordStore.wf val = true) (hb : storeBelow n val = true) :
    WordStore.wf (extractAll m es val) = true ∧ storeBelow n (extractAll m es val) = true := by
  induction es generalizing val with
  | nil => exact ⟨h, hb⟩
  | cons e es ih =>
    refine ih (fun g hg => hf g (by simp [hg])) (storeFill_wf _ _ _ h) (storeFill_below _ _ _ hb ?_)
    rw [decodeSlot_length]
    exact hf e (by simp)

/-- Insertion leaves every bit outside the windows as it was. -/
theorem storeGet_insertAll_outside {val : WordStore} {es : List FieldEntry}
    (hl : ∀ e ∈ es, (encodeSlot val e).length = e.width.toNat) (m : BitStore) (i : Nat) (h : ∀ e ∈ es, ¬ e.Covers i) :
    storeGet false (insertAll val es m) i = storeGet false m i := by
  induction es generalizing m with
  | nil => rfl
  | cons e es ih =>
    have he : ¬ (e.offset.toNat ≤ i ∧ i < e.offset.toNat + e.width.toNat) := h e (by simp)
    show storeGet false (insertAll val es _) i = _
    rw [ih (fun g hg => hl g (by simp [hg])) _ fun g hg => h g (by simp [hg]), storeGet_putWindow, if_neg]
    rw [hl e (by simp)]
    exact he

/-- Insertion leaves a bit as the highest field that covers it wrote it (44_record.md R282). -/
theorem storeGet_insertAll_highest {val : WordStore} {es : List FieldEntry}
    (hl : ∀ e ∈ es, (encodeSlot val e).length = e.width.toNat) (m : BitStore) (i f : Nat) (hf : f < es.length)
    (hc : es[f].Covers i) (hn : ∀ g (hg : g < es.length), f < g → ¬ es[g].Covers i) :
    storeGet false (insertAll val es m) i = (encodeSlot val es[f]).getD (i - es[f].offset.toNat) false := by
  induction es generalizing m f with
  | nil => simp at hf
  | cons e es ih =>
    show storeGet false (insertAll val es _) i = _
    have hl' := fun g hg => hl g (List.mem_cons_of_mem e hg)
    cases f with
    | zero =>
      have hout : ∀ g ∈ es, ¬ g.Covers i := by
        intro g hg
        obtain ⟨k, hk, rfl⟩ := List.mem_iff_getElem.1 hg
        exact hn (k + 1) (by simpa using hk) (by omega)
      rw [storeGet_insertAll_outside hl' _ _ hout, storeGet_putWindow, if_pos]
      · rfl
      · rw [hl e (by simp)]
        exact hc
    | succ f =>
      exact ih hl' _ f (by simpa using hf) hc fun g hg hfg => hn (g + 1) (by simpa using hg) (by omega)

/-- Insertion keeps the canonical form and the size of BSTR. -/
theorem insertAll_wf {val : WordStore} {es : List FieldEntry} {m : BitStore} {n : Nat}
    (hl : ∀ e ∈ es, (encodeSlot val e).length = e.width.toNat) (hf : ∀ e ∈ es, e.bitEnd ≤ n)
    (h : BitStore.wf m = true) (hb : storeBelow n m = true) :
    BitStore.wf (insertAll val es m) = true ∧ storeBelow n (insertAll val es m) = true := by
  induction es generalizing m with
  | nil => exact ⟨h, hb⟩
  | cons e es ih =>
    refine ih (fun g hg => hl g (by simp [hg])) (fun g hg => hf g (by simp [hg])) (storeFill_wf _ _ _ h)
      (storeFill_below _ _ _ hb ?_)
    rw [hl e (by simp)]
    exact hf e (by simp)

end Sys2Proof.Machine
end

