-- ==== Sys2Proof/Tests/Slice0.lean ====
section
/-! SUPPORT. The model's own tests: ill-formed terms, words written out from 30_encoding.md, one step of each command from
95_test_vectors.md (the vector's number is in the comment), host accesses, and for every statement of
Certificates/Slice0/Obligations.lean that has hypotheses a state that meets them all. -/

open Sys2Proof Sys2Proof.Machine

namespace Sys2Proof.Tests

-- The theorems below are checked one after another: each waits for the kernel, and many waiting at once need a thread each.
set_option Elab.async false

/-! ## Helpers -/

/-- The state of a next outcome; a launch state with illegal parameters otherwise. -/
def after : Host.Outcome State Fault Refusal → State
  | .next t => t
  | .fault _ | .refused _ => State.resetWith ⟨0, 0, 0, 0, 0, false⟩

/-- Whether the outcome is a next state. -/
def isNext : Host.Outcome State Fault Refusal → Bool
  | .next _ => true
  | .fault _ | .refused _ => false

theorem next_after {o : Host.Outcome State Fault Refusal} (h : isNext o = true) : o = .next (after o) := by
  cases o with
  | next t => rfl
  | fault r => cases h
  | refused r => cases h

/-- The bytes of ASCII characters. -/
def bytes (cs : List Char) : List Byte := cs.map fun c => BitVec.ofNat 8 c.toNat

/-- Reset with `bs` in WBUF and their number in WLEN. -/
def withBuf (bs : List Byte) (s : State) : State :=
  { s with wbuf := storeFill 0#8 [] 0 bs, wlen := BitVec.ofNat 32 bs.length }

/-- Reset with the bit string `bytesToBits bs` in BSTR and its length in BLEN. -/
def withBits (bs : List Byte) (s : State) : State :=
  { s with bstr := putWindow [] 0 (bytesToBits bs), blen := BitVec.ofNat 32 (8 * bs.length) }

/-- A state with the schema text `cs`. -/
def withText (cs : List Char) (s : State) : State :=
  { s with stxt := storeFill 0#8 [] 0 (bytes cs), tlen := BitVec.ofNat 32 cs.length }

/-- The state after the command word `c`, put in flight as a host write of CMD does. -/
def run (c : Nat) (s : State) : State := after (step (s.withFetchWord 32 c))

/-- The error register and ERRINFO. -/
def err (s : State) : Nat × Nat := (s.errWord.toNat, s.errInfo.toNat)

/-- A field entry as PARSE builds it. -/
def field (k : FieldKind) (off alen vbase line : Nat) (nm : List Byte) : FieldEntry :=
  LineFields.entry ⟨off, nm, k, alen⟩ line vbase

/-- A bank with the given fields, values and presence bits. -/
def bankOf (fields : List FieldEntry) (nwords : Nat) (ovl : Bool) (vals : List Word) (present : List Bool) : BankState :=
  { nfields := BitVec.ofNat 32 fields.length, nwords := BitVec.ofNat 32 nwords, overlap := ovl, loaded := true,
    fields := fields, present := storeFill false [] 0 present, val := storeFill 0#32 [] 0 vals }

/-- `0.0 a BOOL` / `0.1 b USINT` / `1.1 c INT`, the schema of V90 to V95. -/
def fieldsAbc : List FieldEntry :=
  [field .bool 0 0 0 1 (bytes ['a']), field .uint8 1 0 1 2 (bytes ['b']), field .int16 9 0 2 3 (bytes ['c'])]

/-- `0.0 u USINT` / `0.3 b BOOL`, the overlapping schema of V98. -/
def fieldsUb : List FieldEntry :=
  [field .uint8 0 0 0 1 (bytes ['u']), field .bool 3 0 1 2 (bytes ['b'])]

/-- Reset with the schema of V90 in bank 0. -/
def abc (vals : List Word) (present : List Bool) : State :=
  { State.reset with bank0 := bankOf fieldsAbc 3 false vals present }

/-- Reset with the schema of V98 in bank 0. -/
def ub (vals : List Word) : State := { State.reset with bank0 := bankOf fieldsUb 2 true vals [true, true] }

/-- A state with one host turn to come. -/
def hostTurn (a : Access) (s : State) : State := { s with agenda := [.host a] }

/-- A state with a NOP in flight. -/
def busyNop : State := State.reset.startCommand 0#32

/-! ## Ill-formed terms are refused (30_encoding.md R140) -/

theorem test_wellFormed_swdec_256 : (Instr.swdec 256).wellFormed = false := by decide
theorem test_wellFormed_swenc_256 : (Instr.swenc 256).wellFormed = false := by decide

/-! ## Words written out bit by bit: [31:24] 0, W, [15:9] 0, B, OP (30_encoding.md R140, R142) -/

theorem test_decode_nop : decodeWord 0b00000000000000000000000000000000#32 = .ok .nop := rfl
theorem test_decode_b2s : decodeWord 0b00000000000000000000000000000001#32 = .ok .b2s := rfl
theorem test_decode_s2b : decodeWord 0b00000000000000000000000000000010#32 = .ok .s2b := rfl
theorem test_decode_bitrd : decodeWord 0b00000000000000000000000000010000#32 = .ok .bitrd := rfl
theorem test_decode_bitwr : decodeWord 0b00000000000000000000000000010001#32 = .ok .bitwr := rfl
theorem test_decode_u8rd : decodeWord 0b00000000000000000000000000010010#32 = .ok .u8rd := rfl
theorem test_decode_u8wr : decodeWord 0b00000000000000000000000000010011#32 = .ok .u8wr := rfl
theorem test_decode_swdec16 : decodeWord 0b00000000000100000000000000010100#32 = .ok (.swdec 16) := rfl
theorem test_decode_swdec255 : decodeWord 0b00000000111111110000000000010100#32 = .ok (.swdec 255) := rfl
theorem test_decode_swenc32 : decodeWord 0b00000000001000000000000000010101#32 = .ok (.swenc 32) := rfl
theorem test_decode_fwdec : decodeWord 0b00000000000000000000000000010110#32 = .ok .fwdec := rfl
theorem test_decode_fwenc : decodeWord 0b00000000000000000000000000010111#32 = .ok .fwenc := rfl
theorem test_decode_parse0 : decodeWord 0b00000000000000000000000000100000#32 = .ok (.parse .bank0) := rfl
theorem test_decode_parse1 : decodeWord 0b00000000000000000000000100100000#32 = .ok (.parse .bank1) := rfl
theorem test_decode_decode1 : decodeWord 0b00000000000000000000000100100001#32 = .ok (.decode .bank1) := rfl
theorem test_decode_encode0 : decodeWord 0b00000000000000000000000000100010#32 = .ok (.encode .bank0) := rfl

/-- V111, V118. -/
theorem test_reject_unknown :
    decodeWord 0x00000003#32 = .error .unknownOpcode ∧ decodeWord 0x00000123#32 = .error .unknownOpcode := ⟨rfl, rfl⟩
/-- V114, V115. -/
theorem test_reject_reserved :
    decodeWord 0x00000200#32 = .error .reservedBits ∧ decodeWord 0x01000000#32 = .error .reservedBits := ⟨rfl, rfl⟩
/-- V112, V117. -/
theorem test_reject_bank :
    decodeWord 0x00000100#32 = .error .bankNotTaken ∧ decodeWord 0x00100114#32 = .error .bankNotTaken := ⟨rfl, rfl⟩
/-- V113, V116. -/
theorem test_reject_width :
    decodeWord 0x00010001#32 = .error .widthNotTaken ∧ decodeWord 0x00100016#32 = .error .widthNotTaken := ⟨rfl, rfl⟩

theorem test_tableWord : decodeTableWord 32 0x00100014 = some (.swdec 16) ∧ decodeTableWord 32 0x00000003 = none := by decide
theorem test_fetchWord : (State.reset.withFetchWord 32 0x00000120).fetch = some 0x00000120#32 := by decide
theorem test_assembler : (Instr.swdec 16).toAssembler = "SWDEC 16" ∧ (Instr.parse .bank1).toAssembler = "PARSE 1" := by
  decide +kernel

/-! ## One step of each command -/

/-- V110. -/
theorem test_nop :
    let t := run 0 { State.reset with errCode := 1#4, errSub := 1#4, errInfo := 7#32 }
    err t = (0, 0) ∧ t.statusWord = 2#32 := by decide +kernel

/-- V1. -/
theorem test_b2s :
    let t := run 1 (withBuf [0x01, 0x80, 0xFF, 0x00, 0x85] State.reset)
    t.blen = 40#32 ∧ window t.bstr 0 16 =
      [true, false, false, false, false, false, false, false, false, false, false, false, false, false, false, true] ∧
    window t.bstr 32 8 = [true, false, true, false, false, false, false, true] := by decide +kernel

/-- V3. -/
theorem test_s2b :
    let t := run 2 { State.reset with bstr := [(0, true), (15, true)], blen := 16#32 }
    storeRead 0#8 t.wbuf 0 2 = [0x01#8, 0x80#8] ∧ t.wlen = 2#32 := by decide +kernel

/-- V4. -/
theorem test_s2b_length :
    let t := run 2 { State.reset with blen := 12#32, wlen := 9#32 }
    err t = (2, 0) ∧ t.wlen = 9#32 := by decide +kernel

/-- V8. -/
theorem test_bitrd : (run 0x10 (withBits [0xAB, 0xCD] { State.reset with off := 15#32 })).res = 1#32 := by decide +kernel
/-- V9. -/
theorem test_bitrd_length : err (run 0x10 (withBits [0xAB, 0xCD] { State.reset with off := 16#32 })) = (2, 0) := by
  decide +kernel

/-- V10. -/
theorem test_bitwr : (run 0x11 { State.reset with blen := 16#32, off := 3#32, arg := 1#32 }).bstr = [(3, true)] := by
  decide +kernel
/-- V12: the length is checked before the range. -/
theorem test_bitwr_order : err (run 0x11 { State.reset with blen := 16#32, off := 16#32, arg := 2#32 }) = (2, 0) := by
  decide +kernel

/-- V6. -/
theorem test_u8rd : (run 0x12 (withBits [0xAB, 0xCD] { State.reset with off := 4#32 })).res = 0xDA#32 := by decide +kernel
/-- V7. -/
theorem test_u8rd_length :
    let t := run 0x12 (withBits [0xAB, 0xCD] { State.reset with off := 9#32, res := 5#32 })
    err t = (2, 0) ∧ t.res = 5#32 := by decide +kernel

/-- V16. -/
theorem test_u8wr :
    (run 0x13 (withBits [0xAB, 0xCD] { State.reset with off := 4#32, arg := 0x12#32 })).bstr =
      (withBits [0x2B, 0xC1] State.reset).bstr := by decide +kernel
/-- V14. -/
theorem test_u8wr_range : err (run 0x13 { State.reset with blen := 16#32, arg := 0x100#32 }) = (3, 0) := by decide +kernel

/-- V31. -/
theorem test_swdec :
    (run 0x00100014 (withBits [0x0F, 0xF8, 0x50] { State.reset with off := 4#32 })).res = 0xFFFF800F#32 := by
  decide +kernel
/-- V33: the width is checked before the length. -/
theorem test_swdec_order : err (run 0x00080014 { State.reset with blen := 16#32, off := 100#32 }) = (5, 0) := by
  decide +kernel

/-- V36. -/
theorem test_swenc :
    (run 0x00100015 { State.reset with blen := 32#32, arg := 0xFFFFFF85#32 }).bstr =
      (withBits [0xFF, 0x85] State.reset).bstr := by decide +kernel
/-- V38. -/
theorem test_swenc_range :
    let t := run 0x00100015 { State.reset with blen := 32#32, arg := 0x00008000#32 }
    err t = (3, 0) ∧ t.bstr = [] := by decide +kernel

/-- V57. -/
theorem test_fwdec : (run 0x16 (withBits [0x40, 0x49, 0x0F, 0xD0] State.reset)).res = 0x40490FD0#32 := by decide +kernel
/-- V50. -/
theorem test_fwenc :
    (run 0x17 { State.reset with blen := 32#32, arg := 0x3F800000#32 }).bstr =
      [(0, true), (1, true), (2, true), (3, true), (4, true), (5, true), (15, true)] := by decide +kernel

/-- V78. -/
theorem test_parse :
    (run 0x20 (withText ['0', '.', '0', ' ', 'u', ' ', 'U', 'S', 'I', 'N', 'T', '\n', '0', '.', '3', ' ', 'b', ' ', 'B', 'O', 'O',
      'L'] State.reset)).bank0 = bankOf fieldsUb 2 true [] [] := by decide +kernel

/-- V84: a failed PARSE leaves the bank as it was. -/
theorem test_parse_fails :
    let s := withText ['0', '.', '0', ' ', 'b', ' ', 'B', 'O', 'G', 'U', 'S']
      { State.reset with bank1 := bankOf [field .int32 0 0 0 1 (bytes ['a'])] 1 false [7#32] [true] }
    let t := run 0x120 s
    err t = (0x301, 1) ∧ t.bank1 = s.bank1 := by decide +kernel

/-- V95. -/
theorem test_decode :
    let t := run 0x21 (withBuf [0x57, 0x01, 0x01, 0x00] (abc [] []))
    err t = (0, 0) ∧ storeRead 0#32 t.bank0.val 0 3 = [1#32, 0xAB#32, 0xFFFF8000#32] ∧ t.blen = 32#32 := by decide +kernel

/-- V96 on the schema of V90: the lowest failing field is named (44_record.md R281). -/
theorem test_decode_length :
    let t := run 0x21 (withBuf [0x57, 0x01, 0x01] (abc [9#32] []))
    err t = (2, 2) ∧ t.bank0.val = [(0, 9#32)] ∧ t.blen = 0#32 := by decide +kernel

/-- V94. -/
theorem test_encode :
    let t := run 0x22 (abc [1#32, 0xAB#32, 0xFFFF8000#32] [true, true, true])
    err t = (0, 0) ∧ storeRead 0#8 t.wbuf 0 4 = [0x57#8, 0x01#8, 0x01#8, 0x00#8] ∧ t.wlen = 4#32 ∧ t.blen = 32#32 := by
  decide +kernel

/-- V90: presence over all fields comes before the range of field 0. -/
theorem test_encode_missing : err (run 0x22 (abc [5#32] [true, false, true])) = (4, 1) := by decide +kernel

/-- V98: the field with the higher index wins a shared bit. -/
theorem test_encode_overlap : (run 0x22 (ub [0xFF#32, 0#32])).byte 0 = 0xF7#8 := by decide +kernel

/-- V111: a word that spells no command. -/
theorem test_illegal : err (run 3 State.reset) = (6, 0) := by decide +kernel

/-! ## Host accesses (20_memory.md, 70_reset_and_hazards.md) -/

/-- P1: FTAB word 0 of `motorRun`. -/
theorem test_ftab_word : (field .bool 0 0 0 1 (bytes ['m', 'o', 't', 'o', 'r', 'R', 'u', 'n'])).headWord = 0x00000800#32 := by
  decide +kernel
/-- P2: FTAB word 0 of `copyDbWriteLevel`. -/
theorem test_ftab_word_write :
    (field .uint8 144 0 5 4 (bytes ['c', 'o', 'p', 'y', 'D', 'b', 'W', 'r', 'i', 't', 'e', 'L', 'e', 'v', 'e', 'l'])).headWord =
      0x00001009#32 := by decide +kernel
/-- 20_memory.md R102: the first byte is the least significant. -/
theorem test_write_wbuf :
    storeRead 0#8 (after (step (hostTurn (.write 0x10000 4 0x341285FF#32) State.reset))).wbuf 0 4 =
      [0xFF#8, 0x85#8, 0x12#8, 0x34#8] := by decide +kernel
/-- 10_state.md R32: DONE is write-1-to-clear. -/
theorem test_write_status :
    (after (step (hostTurn (.write 0x008 4 2#32) { State.reset with done := true }))).done = false := by decide +kernel
/-- 70_reset_and_hazards.md R350: a second CMD write while busy. -/
theorem test_violation :
    let t := after (step (hostTurn (.write 0x00C 4 1#32) busyNop))
    t.hostFault = true ∧ t.cmd = 0#32 ∧ t.inflight = some 0#32 := by decide +kernel
/-- 20_memory.md R108: outside the window. -/
theorem test_outside : isNext (step (hostTurn (.read 0x300000 4) State.reset)) = false := by decide +kernel
/-- 60_exceptions.md R310. -/
theorem test_irq : (run 0 { State.reset with ie := true }).irq = true ∧ (run 0 State.reset).irq = false := by decide +kernel
/-- P4: the words WRBYTES writes, the last one padded with 0. -/
theorem test_wrbytes :
    hostWriteBytes 0x30000 (bytes ['0', '.', '0', ' ', 'a', ' ']) =
      [hostWrite 0x30000 0x20302E30#32, hostWrite 0x30004 0x00002061#32] := by decide +kernel

/-! ## Witnesses: for every statement with hypotheses, a state and operands that meet them together, one for each clause, at
boundary values. `Params.reference` has `N_B` = 4096 and so 32768 bit positions. -/

/-- Reset with the given BLEN, OFF and ARG. -/
def prim (blen off arg : Nat) : State :=
  { State.reset with blen := BitVec.ofNat 32 blen, off := BitVec.ofNat 32 off, arg := BitVec.ofNat 32 arg }

/-- Reset with the schema of V90, every slot legal and every field present (V94). -/
def full : State := abc [1#32, 0xAB#32, 0xFFFF8000#32] [true, true, true]

theorem witness_DecodeOfEncode :
    (Instr.swdec 0).wellFormed = true ∧ (Instr.swenc 255).wellFormed = true ∧ (Instr.encode .bank1).wellFormed = true := by
  decide

theorem witness_EncodeOfDecode : decodeWord 0x00FF0014#32 = .ok (.swdec 255) ∧ decodeWord 0x00000122#32 = .ok (.encode .bank1) :=
  ⟨rfl, rfl⟩

/-- No command's word is 0xFFFFFFFF: its low byte is no opcode of the table. -/
theorem witness_IllegalWordsRaiseIllegalCommand :
    let s := State.reset.startCommand 0xFFFFFFFF#32
    let u := { s with agenda := [.engine, .engine] }
    (s.agenda = [] ∧ s.inflight = some 0xFFFFFFFF#32) ∧
    (u.agenda = .engine :: [.engine] ∧ u.inflight = some 0xFFFFFFFF#32) ∧
    ∀ i : Instr, i.wellFormed = true → encode i ≠ 0xFFFFFFFF#32 := by
  refine ⟨⟨rfl, rfl⟩, ⟨rfl, rfl⟩, ?_⟩
  have key : ∀ i : Instr, i.tableMask ≠ i.tableMatch ∧ 0xFFFFFFFF#32 &&& i.tableMask = i.tableMask := by
    intro i
    cases i with
    | swdec w => exact (by decide : 0xFF00FFFF#32 ≠ 0x14#32 ∧ 0xFFFFFFFF#32 &&& 0xFF00FFFF#32 = 0xFF00FFFF#32)
    | swenc w => exact (by decide : 0xFF00FFFF#32 ≠ 0x15#32 ∧ 0xFFFFFFFF#32 &&& 0xFF00FFFF#32 = 0xFF00FFFF#32)
    | parse b => cases b <;> decide
    | decode b => cases b <;> decide
    | encode b => cases b <;> decide
    | nop | b2s | s2b | bitrd | bitwr | u8rd | u8wr | fwdec | fwenc => decide
  have masked : ∀ i : Instr, Laws.MatchMask.Statement i := by
    intro i
    cases i with
    | nop => exact Laws.MatchMask.nop
    | b2s => exact Laws.MatchMask.b2s
    | s2b => exact Laws.MatchMask.s2b
    | bitrd => exact Laws.MatchMask.bitrd
    | bitwr => exact Laws.MatchMask.bitwr
    | u8rd => exact Laws.MatchMask.u8rd
    | u8wr => exact Laws.MatchMask.u8wr
    | swdec w => exact Laws.MatchMask.swdec w
    | swenc w => exact Laws.MatchMask.swenc w
    | fwdec => exact Laws.MatchMask.fwdec
    | fwenc => exact Laws.MatchMask.fwenc
    | parse b => exact Laws.MatchMask.parse b
    | decode b => exact Laws.MatchMask.decode b
    | encode b => exact Laws.MatchMask.encode b
  intro i hi he
  have h : encode i &&& i.tableMask = i.tableMatch := masked i hi
  rw [he, (key i).2] at h
  exact (key i).1 h

theorem witness_EngineTurnRunsTheCommandInFlight :
    (busyNop.inflight = some 0#32 ∧ decodeWord 0#32 = .ok .nop ∧ busyNop.agenda = []) ∧
    (let s := { busyNop with agenda := [.engine, .engine] }
     s.inflight = some 0#32 ∧ s.agenda = .engine :: [.engine]) ∧
    (State.reset.inflight = none ∧ State.reset.agenda = []) ∧
    (let s := { State.reset with agenda := [.engine] }
     s.inflight = none ∧ s.agenda = .engine :: []) :=
  ⟨⟨rfl, rfl, rfl⟩, ⟨rfl, rfl⟩, ⟨rfl, rfl⟩, ⟨rfl, rfl⟩⟩

theorem witness_CommandCompletesWithinTheAgenda :
    let s := { busyNop with agenda := [.host (.read 0x2FFFFC 4), .engine, .host (.write 0 3 0#32)] }
    s.inflight = some 0#32 ∧ ∀ a, Turn.host a ∈ s.agenda → a.addr < 0x300000 := by
  refine ⟨rfl, ?_⟩
  intro a h
  simp only [List.mem_cons, Turn.host.injEq, reduceCtorEq, List.not_mem_nil, or_false, false_or] at h
  rcases h with rfl | rfl <;> decide

theorem witness_B2sWritesTheBitString :
    let s := { State.reset with wlen := 4096#32 }
    4095 < s.wlen.toNat ∧ 7 < 8 ∧ 8 * s.wlen.toNat ≤ 32768 := by decide

theorem witness_S2bWritesTheBytes :
    (prim 1 0 0).blen.toNat % 8 ≠ 0 ∧
    ((prim 32768 0 0).blen.toNat % 8 = 0 ∧ 4095 < (prim 32768 0 0).blen.toNat / 8 ∧
      (prim 32768 0 0).blen.toNat ≤ 8 * (prim 32768 0 0).params.nB) ∧
    ((prim 0 0 0).blen.toNat % 8 = 0 ∧ (prim 0 0 0).blen.toNat / 8 ≤ 0) := by decide

theorem witness_B2sAndS2bAreInverse :
    (let s := { State.reset with wlen := 4096#32 }
     s.params.Legal ∧ s.wlen.toNat ≤ s.params.nB ∧ 4095 < s.wlen.toNat) ∧
    ((prim 32768 0 0).blen.toNat % 8 = 0 ∧ 32767 < (prim 32768 0 0).blen.toNat) := by decide

theorem witness_BitrdReadsOneBit :
    (prim 32768 0xFFFFFFFF 0).blen.toNat < (prim 32768 0xFFFFFFFF 0).off.toNat + 1 ∧
    (prim 5 5 0).blen.toNat < (prim 5 5 0).off.toNat + 1 ∧
    (prim 5 4 0).off.toNat + 1 ≤ (prim 5 4 0).blen.toNat := by decide

theorem witness_BitwrWritesOneBit :
    (prim 5 5 0).blen.toNat < (prim 5 5 0).off.toNat + 1 ∧
    (let s := prim 5 4 2
     s.off.toNat + 1 ≤ s.blen.toNat ∧ s.arg ≠ 0#32 ∧ s.arg ≠ 1#32) ∧
    (let s := prim 5 4 1
     s.off.toNat + 1 ≤ s.blen.toNat ∧ (s.arg = 0#32 ∨ s.arg = 1#32) ∧ 3 ≠ s.off.toNat) := by decide

theorem witness_U8rdReadsOneByte :
    (prim 16 9 0).blen.toNat < (prim 16 9 0).off.toNat + 8 ∧ (prim 16 8 0).off.toNat + 8 ≤ (prim 16 8 0).blen.toNat := by
  decide

theorem witness_U8wrWritesOneByte :
    (prim 16 9 0).blen.toNat < (prim 16 9 0).off.toNat + 8 ∧
    (let s := prim 16 8 256
     s.off.toNat + 8 ≤ s.blen.toNat ∧ 255 < s.arg.toNat) ∧
    (let s := prim 16 8 255
     s.off.toNat + 8 ≤ s.blen.toNat ∧ s.arg.toNat ≤ 255 ∧ 7 < s.off.toNat ∧ s.off.toNat + 8 ≤ 16) := by decide

theorem witness_WindowWriteThenReadGivesArg :
    (let s := prim 5 4 1
     s.off.toNat + 1 ≤ s.blen.toNat ∧ (s.arg = 0#32 ∨ s.arg = 1#32)) ∧
    (let s := prim 16 8 255
     s.off.toNat + 8 ≤ s.blen.toNat ∧ s.arg.toNat ≤ 255) := by decide

theorem witness_SwencIsTheInverseOfSwdec :
    ((16 = 16 ∨ 16 = 32) ∧ (byteString 0xFF#8 ++ byteString 0x85#8).length = 16 ∧
      swdec (byteString 0xFF#8 ++ byteString 0x85#8) 16 = some ((0xFFFFFF85#32).setWidth 16).toInt) ∧
    ((32 = 16 ∨ 32 = 32) ∧ 31 < 32) := by decide +kernel

theorem witness_SwdecDecodesTheWindow :
    255 ≤ 255 ∧ (15 ≠ 16 ∧ 15 ≠ 32) ∧
    ((16 = 16 ∨ 16 = 32) ∧ (prim 16 1 0).blen.toNat < (prim 16 1 0).off.toNat + 16) ∧
    ((32 = 16 ∨ 32 = 32) ∧ (prim 33 1 0).off.toNat + 32 ≤ (prim 33 1 0).blen.toNat) := by decide

theorem witness_SwencWritesTheWindow :
    (33 ≠ 16 ∧ 33 ≠ 32) ∧ ((32 = 16 ∨ 32 = 32) ∧ (prim 32 1 0).blen.toNat < (prim 32 1 0).off.toNat + 32) ∧
    (let s := prim 16 0 0xFFFF7FFF
     s.off.toNat + 16 ≤ s.blen.toNat ∧ s.arg.toInt < -32768) ∧
    (let s := prim 16 0 0x8000
     s.off.toNat + 16 ≤ s.blen.toNat ∧ 32767 < s.arg.toInt) ∧
    (let s := prim 16 0 0xFFFF8000
     s.off.toNat + 16 ≤ s.blen.toNat ∧ -32768 ≤ s.arg.toInt ∧ s.arg.toInt ≤ 32767) ∧
    (let s := prim 16 0 0x7FFF
     s.off.toNat + 16 ≤ s.blen.toNat ∧ -32768 ≤ s.arg.toInt ∧ s.arg.toInt ≤ 32767) ∧
    (let s := prim 33 1 0x80000000
     s.off.toNat + 32 ≤ s.blen.toNat ∧ 0 < s.off.toNat ∧ s.off.toNat + 32 ≤ 33) := by decide +kernel

theorem witness_SwencThenSwdecGivesTheValue :
    (let s := prim 16 0 0xFFFF8000
     s.off.toNat + 16 ≤ s.blen.toNat ∧ s.arg = BitVec.ofInt 32 (-32768) ∧ -(2 ^ (16 - 1) : Int) ≤ -32768 ∧
       (-32768 : Int) < 2 ^ (16 - 1)) ∧
    (let s := prim 32 0 0x7FFFFFFF
     s.off.toNat + 32 ≤ s.blen.toNat ∧ s.arg = BitVec.ofInt 32 2147483647 ∧ -(2 ^ (32 - 1) : Int) ≤ 2147483647 ∧
       (2147483647 : Int) < 2 ^ (32 - 1)) := by decide +kernel

theorem witness_FwdecCopiesThePattern :
    (prim 32 1 0).blen.toNat < (prim 32 1 0).off.toNat + 32 ∧ (prim 33 1 0).off.toNat + 32 ≤ (prim 33 1 0).blen.toNat := by
  decide

theorem witness_FwencWritesThePattern :
    (prim 32 1 0).blen.toNat < (prim 32 1 0).off.toNat + 32 ∧
    (let s := prim 33 1 0x7FC00001
     s.off.toNat + 32 ≤ s.blen.toNat ∧ 0 < s.off.toNat ∧ s.off.toNat + 32 ≤ 33) := by decide

theorem witness_FwencThenFwdecGivesThePattern :
    (prim 33 1 0x7F800001).off.toNat + 32 ≤ (prim 33 1 0x7F800001).blen.toNat := by decide

theorem witness_LinesAreCutAtLineFeeds : splitLines [0x0A#8, 0x61#8] = [[], [0x61#8]] := by decide

theorem witness_TokensAreMaximalRuns :
    ([0x61#8, 0x0A#8] ≠ [] ∧ ∀ c ∈ [0x61#8, 0x0A#8], isSpace c = false) ∧ isSpace 0x20#8 = true := by decide

/-- An offset token, and a line whose third token is `bool`, no type token. -/
theorem witness_OffsetAndTypeTokenSyntax :
    offsetOf (bytes ['0', '0', '7', '.', '3']) = some 59 ∧
    tokens (bytes ['0', '.', '0', ' ', 'a', ' ', 'b', 'o', 'o', 'l']) =
      bytes ['0', '.', '0'] :: bytes ['a'] :: bytes ['b', 'o', 'o', 'l'] :: [] ∧
    offsetOf (bytes ['0', '.', '0']) ≠ none ∧
    ∀ x ∈ [FieldKind.bool, .uint8, .int16, .int32, .float32, .float32Array], x.token ≠ bytes ['b', 'o', 'o', 'l'] := by
  decide +kernel

/-- One field line for each of the checks (a) to (l) that fails first, and one that passes. -/
theorem witness_FirstFailingCheckRaises :
    parseText State.reset.params (withText ['x'] State.reset).schemaText = .error ⟨.schemaError, 1, 1⟩ ∧
    (let p := { Params.reference with overlapIsError := true, nF := 2, nV := 5, nameMax := 2 }
     let q := { p with nF := 1 }
     let g := [field .bool 3 0 0 1 (bytes ['a'])]
     let first := fun (r : Params) (words : Nat) (line : List Char) =>
       ((tokens (bytes line)).isEmpty, (lineChecks r g words (tokens (bytes line))).findIdx? id)
     first p 1 ['0', '.', '8', ' ', 'b', ' ', 'B', 'O', 'O', 'L'] = (false, some 0) ∧
     first p 1 ['0', '.', '0', ' ', 'b'] = (false, some 1) ∧
     first p 1 ['0', '.', '0', ' ', 'b', ' ', 'b', 'o', 'o', 'l'] = (false, some 2) ∧
     first p 1 (['0', '.', '0', ' ', 'b', ' '] ++ ['A', 'R', 'R', 'A', 'Y', '_', 'O', 'F', '_', 'R', 'E', 'A', 'L']) =
       (false, some 3) ∧
     first p 1 (['0', '.', '0', ' ', 'b', ' '] ++ ['A', 'R', 'R', 'A', 'Y', '_', 'O', 'F', '_', 'R', 'E', 'A', 'L'] ++
       [' ', '0']) = (false, some 4) ∧
     first p 1 ['0', '.', '0', ' ', 'b', ' ', 'I', 'N', 'T', ' ', '5'] = (false, some 5) ∧
     first p 1 ['0', '.', '0', ' ', 'b', 'b', 'b', ' ', 'I', 'N', 'T'] = (false, some 6) ∧
     first p 1 ['1', '.', '0', ' ', 'a', ' ', 'I', 'N', 'T'] = (false, some 7) ∧
     first q 1 ['1', '.', '0', ' ', 'b', ' ', 'I', 'N', 'T'] = (false, some 8) ∧
     first p 1 ['4', '0', '9', '5', '.', '1', ' ', 'b', ' ', 'U', 'S', 'I', 'N', 'T'] = (false, some 9) ∧
     first p 5 ['1', '.', '0', ' ', 'b', ' ', 'I', 'N', 'T'] = (false, some 10) ∧
     first p 1 ['0', '.', '3', ' ', 'b', ' ', 'I', 'N', 'T'] = (false, some 11) ∧
     first p 4 ['0', '.', '4', ' ', 'b', ' ', 'I', 'N', 'T'] = (false, none)) := ⟨rfl, by decide +kernel⟩

theorem witness_ParseStopsAtTheFirstBadLine :
    tokens [0x20#8, 0x09#8] = [] ∧
    parseText Params.reference (bytes ['\n', '\n', '#', '\n']) = .error ⟨.schemaError, 1, 3⟩ := ⟨by decide, rfl⟩

theorem witness_OverlapFlagIsExact :
    Params.reference.Legal ∧ parseText Params.reference (bytes ['0', '.', '0', ' ', 'u', ' ', 'U', 'S', 'I', 'N', 'T', '\n', '0',
      '.', '3', ' ', 'b', ' ', 'B', 'O', 'O', 'L']) = .ok ⟨fieldsUb, 2, true⟩ ∧
    (let p := { Params.reference with overlapIsError := true }
     p.Legal ∧ p.overlapIsError = true ∧
       parseText p (bytes ['0', '.', '0', ' ', 'u', ' ', 'U', 'S', 'I', 'N', 'T']) =
         .ok ⟨[field .uint8 0 0 0 1 (bytes ['u'])], 1, false⟩) := ⟨by decide, rfl, by decide, rfl, rfl⟩

theorem witness_ParseCommitsOrChangesNothing :
    (let s := withText ['x'] full
     parseText s.params s.schemaText = .error ⟨.schemaError, 1, 1⟩) ∧
    (let s := withText ['0', '.', '0', ' ', 'u', ' ', 'U', 'S', 'I', 'N', 'T'] full
     parseText s.params s.schemaText = .ok ⟨[field .uint8 0 0 0 1 (bytes ['u'])], 1, false⟩) := ⟨rfl, rfl⟩

/-- V75: the last bit of the bit string, and the last bit a USINT can start at. -/
theorem witness_ParseOfOneScalarLine :
    let ds := bytes ['4', '0', '9', '5']
    let nm := bytes ['a']
    (let s := withText ['4', '0', '9', '5', '.', '7', ' ', 'a', ' ', 'B', 'O', 'O', 'L'] State.reset
     s.params.Legal ∧ ds ≠ [] ∧ (∀ c ∈ ds, isDigit c = true) ∧ isBitDigit 0x37#8 = true ∧ nm ≠ [] ∧
     nm.length ≤ s.params.nameMax ∧ (∀ c ∈ nm, isSpace c = false ∧ c ≠ 0x0A#8) ∧ FieldKind.bool ≠ .float32Array ∧
     8 * decimal ds + ((0x37#8).toNat - 0x30) + FieldKind.bool.width 0 ≤ 8 * s.params.nB ∧
     s.schemaText = ds ++ [0x2E#8, 0x37#8, 0x20#8] ++ nm ++ [0x20#8] ++ FieldKind.bool.token) ∧
    (let s := withText ['4', '0', '9', '5', '.', '0', ' ', 'a', ' ', 'U', 'S', 'I', 'N', 'T'] State.reset
     isBitDigit 0x30#8 = true ∧ 8 * decimal ds + ((0x30#8).toNat - 0x30) + FieldKind.uint8.width 0 ≤ 8 * s.params.nB ∧
     s.schemaText = ds ++ [0x2E#8, 0x30#8, 0x20#8] ++ nm ++ [0x20#8] ++ FieldKind.uint8.token) := by decide +kernel

/-- The longest array that fits the bit string. -/
theorem witness_ParseOfOneArrayLine :
    let ds := bytes ['0']
    let nm := bytes ['f']
    let ls := bytes ['1', '0', '2', '4']
    let s := withText (['0', '.', '0', ' ', 'f', ' '] ++ ['A', 'R', 'R', 'A', 'Y', '_', 'O', 'F', '_', 'R', 'E', 'A', 'L'] ++
      [' ', '1', '0', '2', '4']) State.reset
    s.params.Legal ∧ ds ≠ [] ∧ (∀ c ∈ ds, isDigit c = true) ∧ isBitDigit 0x30#8 = true ∧ nm ≠ [] ∧
    nm.length ≤ s.params.nameMax ∧ (∀ c ∈ nm, isSpace c = false ∧ c ≠ 0x0A#8) ∧ ls ≠ [] ∧
    (∀ c ∈ ls, isDigit c = true) ∧ 1 ≤ decimal ls ∧
    8 * decimal ds + ((0x30#8).toNat - 0x30) + 32 * decimal ls ≤ 8 * s.params.nB ∧ decimal ls ≤ s.params.nV ∧
    s.schemaText = ds ++ [0x2E#8, 0x30#8, 0x20#8] ++ nm ++ [0x20#8] ++ FieldKind.token .float32Array ++ [0x20#8] ++ ls := by
  decide +kernel

/-- `copydb`, a name of the read side, and a text that parses. -/
theorem witness_KeyIsTheNameWithoutThePrefix :
    (∀ rest, bytes ['c', 'o', 'p', 'y', 'd', 'b'] ≠ writePrefix ++ rest) ∧
    parseText Params.reference (bytes ['0', '.', '0', ' ', 'u', ' ', 'U', 'S', 'I', 'N', 'T']) =
      .ok ⟨[field .uint8 0 0 0 1 (bytes ['u'])], 1, false⟩ := by
  refine ⟨fun rest h => ?_, rfl⟩
  have h4 := congrArg (fun l => l.getD 4 0#8) h
  exact absurd h4 (by simp [writePrefix, bytes])

/-! ### Banks that meet `BankState.Wf` -/

/-- The decidable form of `FieldEntry.Wf`. -/
def fieldOk (p : Params) (e : FieldEntry) : Bool :=
  decide (e.bitEnd ≤ 8 * p.nB) && decide (1 ≤ e.name.length ∧ e.name.length ≤ p.nameMax) &&
    decide (e.nameLen.toNat = e.name.length) && decide (1 ≤ e.alen.toNat ↔ e.kind = .float32Array) &&
    decide (e.width.toNat = e.kind.width e.alen.toNat) && decide (e.side = sideOf e.name) &&
    decide (e.keyOff.toNat = keyOffOf e.name)

theorem wf_of_fieldOk {p : Params} {e : FieldEntry} (h : fieldOk p e = true) : e.Wf p := by
  simp only [fieldOk, Bool.and_eq_true, decide_eq_true_eq] at h
  obtain ⟨⟨⟨⟨⟨⟨h1, h2⟩, h3⟩, h4⟩, h5⟩, h6⟩, h7⟩ := h
  exact ⟨h1, h2, h3, h4, h5, h6, h7⟩

/-- The decidable form of `BankState.Wf` for a loaded bank. -/
def bankOk (p : Params) (b : BankState) : Bool :=
  decide (b.fields.length = b.nfields.toNat) && decide (b.nfields.toNat ≤ p.nF) && decide (b.nwords.toNat ≤ p.nV) &&
    slotsTile 0 b.fields b.nwords.toNat && b.fields.all (fieldOk p) && decide (b.fields.map FieldEntry.name).Nodup &&
    BitStore.wf b.present && storeBelow b.nfields.toNat b.present && WordStore.wf b.val && storeBelow b.nwords.toNat b.val &&
    b.loaded

theorem wf_of_bankOk {p : Params} {b : BankState} (h : bankOk p b = true) : b.Wf p := by
  simp only [bankOk, Bool.and_eq_true, decide_eq_true_eq, List.all_eq_true] at h
  obtain ⟨⟨⟨⟨⟨⟨⟨⟨⟨⟨h1, h2⟩, h3⟩, h4⟩, h5⟩, h6⟩, h7⟩, h8⟩, h9⟩, h10⟩, h11⟩ := h
  exact ⟨h1, h2, h3, h4, fun e he => wf_of_fieldOk (h5 e he), h6, h7, h8, h9, h10, fun h => by rw [h11] at h; cases h⟩

/-- Every type, on both sides, with an array of two elements. -/
def fieldsAll : List FieldEntry :=
  [field .bool 0 0 0 1 (bytes ['a']), field .uint8 1 0 1 2 (bytes ['b']), field .int16 9 0 2 3 (writePrefix ++ bytes ['c']),
   field .int32 25 0 3 4 (bytes ['d']), field .float32 64 0 4 5 writePrefix, field .float32Array 96 2 5 6 (bytes ['f'])]

/-- Reset with a bank 1 that has every type, every field present, and the last word of the array at 1.0. -/
def all6 : State :=
  { State.reset with
    bank1 := bankOf fieldsAll 7 false [1#32, 255#32, 0x7FFF#32, 0x80000000#32, 0x7FC00001#32, 0#32, 0x3F800000#32]
      [true, true, true, true, true, true] }

theorem full_wf : (full.bank .bank0).Wf full.params := wf_of_bankOk (by decide +kernel)
theorem all6_wf : (all6.bank .bank1).Wf all6.params := wf_of_bankOk (by decide +kernel)
theorem ub_wf : ((ub [0xFF#32, 0#32]).bank .bank0).Wf (ub [0xFF#32, 0#32]).params := wf_of_bankOk (by decide +kernel)

theorem witness_KeysOfASideAreDistinct : (all6.bank .bank1).Wf Params.reference := all6_wf

theorem witness_WindowHoldsTheSlotsBits :
    (∀ e ∈ fieldsAll, e.width.toNat = e.kind.width e.alen.toNat) ∧
    63 < (field .float32Array 96 2 5 6 (bytes ['f'])).width.toNat := by decide +kernel

theorem witness_DecodeFillsEverySlot :
    (let s := withBuf [0, 0, 0] full
     2 < (s.bank .bank0).schema.length ∧ 8 * s.wlen.toNat < ((s.bank .bank0).entry 2).bitEnd ∧
       ∀ g, g < 2 → ((s.bank .bank0).entry g).bitEnd ≤ 8 * s.wlen.toNat) ∧
    (let s := withBuf (List.replicate 20 0x5A#8) all6
     (s.bank .bank1).Wf s.params ∧ ∀ e ∈ (s.bank .bank1).schema, e.bitEnd ≤ 8 * s.wlen.toNat) :=
  ⟨by decide +kernel, all6_wf, by decide +kernel⟩

theorem witness_DecodeCarriesNothingOver :
    let s := withBuf (List.replicate 20 0x5A#8) all6
    let t := after (exec (.decode .bank1) s)
    (s.bank .bank1).Wf s.params ∧ exec (.decode .bank1) s = .next t ∧ t.errCode = 0#4 :=
  ⟨all6_wf, next_after (by decide +kernel), by decide +kernel⟩

theorem witness_BufferLengthIsLeast :
    (∀ e ∈ fieldsAll, e.bitEnd ≤ 8 * 20) ∧ (all6.bank .bank1).Wf Params.reference ∧
    exec (.encode .bank1) all6 = .next (after (exec (.encode .bank1) all6)) :=
  ⟨by decide +kernel, all6_wf, next_after (by decide +kernel)⟩

theorem witness_EncodeBuildsTheBuffer :
    (let s := abc [5#32] [true, false, true]
     1 < (s.bank .bank0).nfields.toNat ∧ (s.bank .bank0).isPresent 1 = false ∧
       ∀ g, g < 1 → (s.bank .bank0).isPresent g = true) ∧
    (let s := abc [1#32, 0xAB#32, 0x8000#32] [true, true, true]
     (∀ g, g < (s.bank .bank0).nfields.toNat → (s.bank .bank0).isPresent g = true) ∧ 2 < (s.bank .bank0).schema.length ∧
       slotLegal (s.bank .bank0).val ((s.bank .bank0).entry 2) = false ∧
       ∀ g, g < 2 → slotLegal (s.bank .bank0).val ((s.bank .bank0).entry g) = true) ∧
    ((all6.bank .bank1).Wf all6.params ∧
      (∀ f, f < (all6.bank .bank1).nfields.toNat → (all6.bank .bank1).isPresent f = true) ∧
      (∀ e ∈ (all6.bank .bank1).schema, slotLegal (all6.bank .bank1).val e = true)) :=
  ⟨by decide +kernel, by decide +kernel, all6_wf, by decide +kernel, by decide +kernel⟩

/-- Bit 60 lies in no window; bit 159 is the array's last. -/
theorem witness_EncodeBuildsTheBuffer_bits :
    let n := bufferBytes (all6.bank .bank1).schema
    60 < 8 * n ∧ (∀ e ∈ (all6.bank .bank1).schema, ¬ (e.offset.toNat ≤ 60 ∧ 60 < e.bitEnd)) ∧
    5 < (all6.bank .bank1).schema.length ∧
    ((all6.bank .bank1).entry 5).offset.toNat ≤ 159 ∧ 159 < ((all6.bank .bank1).entry 5).bitEnd := by decide +kernel

/-- The overlapping schema of V98 at bit 3, and a schema without overlap. -/
theorem witness_EncodeThenDecodeGivesTheRecordBack :
    (let s := ub [0xFF#32, 0#32]
     s.params.Legal ∧ (s.bank .bank0).Wf s.params ∧
      (∀ f, f < (s.bank .bank0).nfields.toNat → (s.bank .bank0).isPresent f = true) ∧
      (∀ e ∈ (s.bank .bank0).schema, slotLegal (s.bank .bank0).val e = true) ∧
      0 < 1 ∧ 1 < (s.bank .bank0).schema.length ∧ ((s.bank .bank0).entry 0).Covers 3 ∧ ((s.bank .bank0).entry 1).Covers 3) ∧
    ((all6.bank .bank1).Wf all6.params ∧
      (∀ f, f < (all6.bank .bank1).nfields.toNat → (all6.bank .bank1).isPresent f = true) ∧
      (∀ e ∈ (all6.bank .bank1).schema, slotLegal (all6.bank .bank1).val e = true) ∧
      (all6.bank .bank1).schema.Pairwise FieldEntry.Disjoint) := by
  refine ⟨⟨by decide, ub_wf, by decide +kernel, by decide +kernel, by decide, by decide +kernel, ?_, ?_⟩,
    all6_wf, by decide +kernel, by decide +kernel, ?_⟩
  · unfold FieldEntry.Covers; decide +kernel
  · unfold FieldEntry.Covers; decide +kernel
  · have h : (all6.bank .bank1).schema.Pairwise fun e g => e.bitEnd ≤ g.offset.toNat ∨ g.bitEnd ≤ e.offset.toNat := by
      decide +kernel
    exact h

theorem witness_ErrorsChangeOnlyTheErrorRecord :
    let s := abc [5#32] [true, false, true]
    let t := after (exec (.encode .bank0) s)
    exec (.encode .bank0) s = .next t ∧ t.errCode ≠ 0#4 := ⟨next_after (by decide +kernel), by decide +kernel⟩

/-- A success, a SchemaError, another error, and an error with an info word. -/
theorem witness_CommandsRaiseOnlyTheirErrors :
    (let t := after (exec .nop State.reset)
     exec .nop State.reset = .next t ∧ t.errCode = 0#4 ∧ t.errCode ≠ 1#4) ∧
    (let s := withText ['\n', 'x'] State.reset
     let t := after (exec (.parse .bank0) s)
     exec (.parse .bank0) s = .next t ∧ t.errCode = 1#4 ∧ t.errInfo ≠ 0#32) :=
  ⟨⟨next_after (by decide +kernel), by decide +kernel⟩, next_after (by decide +kernel), by decide +kernel⟩

theorem witness_FailedCommandsFailAgain :
    let t := after (exec (.swdec 8) State.reset)
    exec (.swdec 8) State.reset = .next t ∧ t.errCode ≠ 0#4 := ⟨next_after (by decide +kernel), by decide +kernel⟩

theorem witness_CommandsWriteOnlyTheirOwnState :
    let s := withBits [0xFF] State.reset
    let t := after (exec .u8rd s)
    exec .u8rd s = .next t ∧ writesBank .u8rd ≠ some .bank0 ∧ writesBank (.decode .bank0) ≠ some .bank1 ∧ t.res ≠ s.res :=
  ⟨next_after (by decide +kernel), by decide, by decide, by decide +kernel⟩

theorem witness_SchemaChangesOnlyByParse :
    let s := (withText [] State.reset).startCommand 0x00000120#32
    let t := after (step s)
    step s = .next t ∧ (t.bank .bank1).schemaPart ≠ (s.bank .bank1).schemaPart :=
  ⟨next_after (by decide +kernel), by decide +kernel⟩

theorem witness_HostFaultIsNeverCleared :
    let s := { busyNop with hostFault := true }
    step s = .next (after (step s)) ∧ s.hostFault = true := ⟨next_after (by decide +kernel), rfl⟩

/-! ### A state that meets `State.Inv` and is not the reset state -/

/-- Bank 1 loaded with every type, a buffer of 20 bytes, an error recorded, and DECODE 1 in flight. -/
def busyAll6 : State :=
  { withBuf (List.replicate 20 0x5A#8) all6 with errCode := 1#4, errSub := 12#4, errInfo := 3#32 }.startCommand 0x00000121#32

theorem busyAll6_inv : busyAll6.Inv where
  params_legal := by decide +kernel
  wlen_le := by decide +kernel
  blen_le := by decide +kernel
  tlen_le := by decide +kernel
  wbuf_wf := by decide +kernel
  wbuf_below := by decide +kernel
  bstr_wf := by decide +kernel
  bstr_below := by decide +kernel
  stxt_wf := by decide +kernel
  stxt_below := by decide +kernel
  bank0_wf :=
    ⟨rfl, by decide, by decide, by decide, (fun _ h => by cases h), by decide, by decide, by decide, by decide, by decide,
      fun _ => ⟨rfl, rfl⟩⟩
  bank1_wf := all6_wf
  in_flight := fun c h => by cases h; exact ⟨rfl, rfl⟩
  err_code := by decide +kernel
  err_sub := by decide +kernel
  err_info := by decide +kernel

theorem witness_StepKeepsTheInvariant : busyAll6.Inv ∧ step busyAll6 = .next (after (step busyAll6)) :=
  ⟨busyAll6_inv, next_after (by decide +kernel)⟩

/-- The least and the greatest legal parameters (00_scope.md R6). -/
theorem witness_ResetHasTheInvariant :
    Params.Legal ⟨1, 1, 1, 1, 1, false⟩ ∧ Params.Legal ⟨65536, 65536, 1024, 255, 65536, true⟩ := by decide

theorem witness_ResetValuesOfTheSpec : State.reset.bank .bank1 = BankState.empty := rfl

/-- A wrong width, an address off a word boundary, a read and a write that are not allowed while busy. -/
theorem witness_ViolationsOnlySetHostFault :
    (let s := hostTurn (.read 0x000 2) State.reset
     s.agenda = .host (.read 0x000 2) :: [] ∧ (Access.read 0x000 2).width ≠ 4) ∧
    (let s := hostTurn (.write 0x2FFFFE 4 0#32) State.reset
     s.agenda = .host (.write 0x2FFFFE 4 0#32) :: [] ∧ (Access.write 0x2FFFFE 4 0#32).addr < 0x300000 ∧
       (Access.write 0x2FFFFE 4 0#32).addr % 4 ≠ 0) ∧
    (let s := hostTurn (.read 0x2FFFFC 4) busyNop
     s.agenda = .host (.read 0x2FFFFC 4) :: [] ∧ s.inflight ≠ none ∧
       0x2FFFFC ∉ [0x000, 0x004, 0x008, 0x00C, 0x100, 0x104, 0x108, 0x10C, 0x110, 0x114]) ∧
    (let s := hostTurn (.write 0x00C 4 1#32) busyNop
     s.agenda = .host (.write 0x00C 4 1#32) :: [] ∧ s.inflight ≠ none ∧ 0x00C ∉ [0x004, 0x008]) :=
  ⟨⟨rfl, by decide⟩, ⟨rfl, by decide, by decide⟩, ⟨rfl, by decide, by decide⟩, rfl, by decide, by decide⟩

/-- The last word of the window while idle, P_OPTS while busy, the last entry and the last name word, and an entry at
NFIELDS. -/
theorem witness_ReadsReturnTheWordOfTheirAddress :
    (let s := hostTurn (.read 0x2FFFFC 4) State.reset
     s.agenda = .host (.read 0x2FFFFC 4) :: [] ∧ 0x2FFFFC < 0x300000 ∧ 0x2FFFFC % 4 = 0 ∧ s.inflight = none) ∧
    (let s := hostTurn (.read 0x114 4) busyNop
     s.agenda = .host (.read 0x114 4) :: [] ∧ s.inflight ≠ none ∧
       0x114 ∈ [0x000, 0x004, 0x008, 0x00C, 0x100, 0x104, 0x108, 0x10C, 0x110, 0x114]) ∧
    1023 < 1024 ∧ 63 < 64 ∧ 3 < 4 ∧ 7 < 8 ∧ (full.bank .bank0).nfields.toNat ≤ 3 :=
  ⟨⟨rfl, by decide, by decide, rfl⟩, ⟨rfl, by decide, by decide⟩, by decide, by decide, by decide, by decide, by decide⟩

/-- CTRL and STATUS while busy, and every register of the statement while idle: the writable ones, and the first and the last of
the read-only ones. -/
theorem witness_RegisterWrites :
    (∀ a ∈ [0x004, 0x008], (hostTurn (.write a 4 3#32) busyNop).agenda = .host (.write a 4 3#32) :: [] ∧
      (hostTurn (.write a 4 3#32) busyNop).inflight ≠ none) ∧
    ∀ a ∈ [0x004, 0x008, 0x00C, 0x018, 0x01C, 0x020, 0x024, 0x028, 0x000, 0x114],
      (hostTurn (.write a 4 0xFFFFFFFF#32) State.reset).agenda = .host (.write a 4 0xFFFFFFFF#32) :: [] ∧
      (hostTurn (.write a 4 0xFFFFFFFF#32) State.reset).inflight = none := by decide

/-- In each of the three regions, the last word inside the reference size, and the last word of the region, which lies beyond
it. -/
theorem witness_MemoryWordsArePackedLittleEndian :
    (∀ x ∈ [(0x10000, 1023), (0x20000, 1023), (0x30000, 4095), (0x10000, 0x3FFF), (0x20000, 0x3FFF), (0x30000, 0x3FFF)],
      let s := hostTurn (.write (x.1 + 4 * x.2) 4 1#32) State.reset
      4 * x.2 < 0x10000 ∧ s.inflight = none ∧ s.agenda = .host (.write (x.1 + 4 * x.2) 4 1#32) :: []) ∧
    4 * 1023 + 3 < State.reset.params.nB ∧ 32 * 1023 + 31 < 8 * State.reset.params.nB ∧
    4 * 4095 + 3 < State.reset.params.nT ∧ State.reset.params.nT ≤ 4 * 0x3FFF := by decide

theorem witness_BstrWordsReadLikeWbufWordsAfterB2s :
    let s := withBuf [0x57, 0x01, 0x01, 0x00] State.reset
    exec .b2s s = .next (after (exec .b2s s)) ∧ s.wlen.toNat ≤ s.params.nB ∧ 4 * 0 + 4 ≤ s.wlen.toNat ∧ 4 * 0 < 0x10000 :=
  ⟨next_after (by decide +kernel), by decide, by decide, by decide⟩

/-- The last word of PRESENT_1, with bits at and beyond NFIELDS_1. -/
theorem witness_PresentWritesSetTheFieldsBits :
    let a := Access.write (0x100000 * (Bank.bank1.number + 1) + 0x8000 + 4 * 31) 4 0xFFFFFFFF#32
    let s := hostTurn a { State.reset with bank1 := { BankState.empty with nfields := 1023#32 } }
    31 < 32 ∧ s.inflight = none ∧ s.agenda = .host a :: [] ∧ 32 * 31 + 30 < (s.bank .bank1).nfields.toNat ∧
    (s.bank .bank1).nfields.toNat ≤ 32 * 31 + 31 := by decide

/-- The last word of the VAL region, below NWORDS and beyond it. -/
theorem witness_ValWordsStopAtNwords :
    let a := Access.write (0x100000 * (Bank.bank0.number + 1) + 0x80000 + 4 * 0xFFFF) 4 7#32
    (let s := hostTurn a { State.reset with bank0 := { BankState.empty with nwords := 0x10000#32 } }
     0xFFFF < 0x10000 ∧ s.inflight = none ∧ s.agenda = .host a :: [] ∧ 0xFFFF < (s.bank .bank0).nwords.toNat) ∧
    (let s := hostTurn a { State.reset with bank0 := { BankState.empty with nwords := 0xFFFF#32 } }
     s.inflight = none ∧ s.agenda = .host a :: [] ∧ ¬ 0xFFFF < (s.bank .bank0).nwords.toNat) := by decide

/-- The first and the last word of each range, of the writes and of the reads. -/
theorem witness_ReadOnlyAndUnmappedWritesAreIgnored :
    (∀ a ∈ [0x030, 0x03C, 0x04C, 0x05C, 0x0FC, 0x118, 0xFFFC, 0x40000, 0x107FFC, 0x108080, 0x17FFFC, 0x1C0000, 0x207FFC,
        0x208080, 0x27FFFC, 0x2C0000, 0x2FFFFC],
      (hostTurn (.write a 4 1#32) State.reset).agenda = .host (.write a 4 1#32) :: [] ∧ a % 4 = 0 ∧
      (hostTurn (.write a 4 1#32) State.reset).inflight = none ∧
      ((0x030 ≤ a ∧ a < 0x040) ∨ (0x04C ≤ a ∧ a < 0x050) ∨ (0x05C ≤ a ∧ a < 0x100) ∨ (0x118 ≤ a ∧ a < 0x10000) ∨
        (0x40000 ≤ a ∧ a < 0x108000) ∨ (0x108080 ≤ a ∧ a < 0x180000) ∨ (0x1C0000 ≤ a ∧ a < 0x208000) ∨
        (0x208080 ≤ a ∧ a < 0x280000) ∨ (0x2C0000 ≤ a ∧ a < 0x300000))) ∧
    ∀ a ∈ [0x030, 0x03C, 0x04C, 0x05C, 0x0FC, 0x118, 0xFFFC, 0x40000, 0xFFFFC, 0x108080, 0x10FFFC, 0x150000, 0x17FFFC,
        0x1C0000, 0x1FFFFC, 0x208080, 0x20FFFC, 0x250000, 0x27FFFC, 0x2C0000, 0x2FFFFC],
      a % 4 = 0 ∧
      ((0x030 ≤ a ∧ a < 0x040) ∨ (0x04C ≤ a ∧ a < 0x050) ∨ (0x05C ≤ a ∧ a < 0x100) ∨ (0x118 ≤ a ∧ a < 0x10000) ∨
        (0x40000 ≤ a ∧ a < 0x100000) ∨ (0x108080 ≤ a ∧ a < 0x110000) ∨ (0x150000 ≤ a ∧ a < 0x180000) ∨
        (0x1C0000 ≤ a ∧ a < 0x200000) ∨ (0x208080 ≤ a ∧ a < 0x210000) ∨ (0x250000 ≤ a ∧ a < 0x280000) ∨
        (0x2C0000 ≤ a ∧ a < 0x300000)) := by decide +kernel

end Sys2Proof.Tests
end

section
/-! What a command can do: the writes of a success, the errors of a failure, and the frame of both (10_state.md R39, R46,
60_exceptions.md R300, R301). -/

namespace Sys2Proof.Machine

/-! ## What a command can do

A command that succeeds makes one of eight writes; a command that fails records an error of 60_exceptions.md R301. The frame
of the commands and the invariant are read off this list. -/

/-- An error record of 60_exceptions.md R301: a subcause of 43_schema.md R250 on SchemaError and 0 on every other kind, and
info 0 on the kinds that name no line or field. -/
structure Raise.InTable (e : Raise) : Prop where
  schema_sub : e.kind = .schemaError → 1 ≤ e.sub ∧ e.sub ≤ 12
  other_sub : e.kind ≠ .schemaError → e.sub = 0
  no_info : e.kind = .unsupportedWidthError ∨ e.kind = .illegalCommand → e.info = 0

/-- BSTR and BLEN as ENCODE builds them: the zeroed string with every field's window inserted (44_record.md R282). -/
def State.recordToString (s : State) (b : Bank) : State :=
  let n := bufferBytes (s.bank b).schema
  { s with
    bstr := insertAll (s.bank b).val (s.bank b).schema (putWindow s.bstr 0 (List.replicate (8 * n) false)),
    blen := BitVec.ofNat 32 (8 * n) }

/-- What a successful command can make of the state `s`, its completion apart. -/
inductive CommandWrites (s : State) : State → Prop
  | nothing : CommandWrites s s
  | string : CommandWrites s s.bufferToString
  | buffer : CommandWrites s (s.stringToBuffer (s.blen.toNat / 8))
  | result (v : Word) : CommandWrites s { s with res := v }
  | window (S : BitString) (fits : s.off.toNat + S.length ≤ s.blen.toNat) : CommandWrites s (s.writeWindow S)
  | schema (b : Bank) (acc : ParseAcc) (parsed : parseText s.params s.schemaText = .ok acc) :
      CommandWrites s (s.setBank b (committedBank acc))
  | values (b : Bank) (m : BitStore) :
      CommandWrites s
        (s.bufferToString.setBank b { s.bank b with val := extractAll m (s.bank b).schema (s.bank b).val })
  | record (b : Bank) : CommandWrites s ((s.recordToString b).stringToBuffer (bufferBytes (s.bank b).schema))

/-- What a command hands to `complete`: its writes, or an error of the table. -/
def CommandOutcome (s : State) : Except Raise State → Prop
  | .ok s' => CommandWrites s s'
  | .error e => e.InTable

/-- A check that raises an error of the table leaves the rest of the command to look at. -/
theorem CommandOutcome.check {s : State} {c : Prop} [Decidable c] {e : Raise} {r : Except Raise State}
    (he : e.InTable) (hr : ¬ c → CommandOutcome s r) : CommandOutcome s (if c then .error e else r) := by
  split
  · exact he
  · exact hr ‹_›

theorem raiseLength_inTable (info : Nat) : Raise.InTable ⟨.lengthError, 0, info⟩ := by constructor <;> simp
theorem raiseRange_inTable (info : Nat) : Raise.InTable ⟨.rangeError, 0, info⟩ := by constructor <;> simp
theorem raiseMissing_inTable (info : Nat) : Raise.InTable ⟨.missingFieldError, 0, info⟩ := by constructor <;> simp
theorem raiseWidth_inTable : raiseWidth.InTable := by constructor <;> simp [raiseWidth]
theorem raiseSchema_inTable (sub : SchemaSub) (k : Nat) : (raiseSchema sub k).InTable := by
  constructor <;> simp [raiseSchema, sub.code_range]

/-- A refused text raises SchemaError at one of its lines. -/
theorem parseText_error_inTable {p : Params} {text : List Byte} {e : Raise} (h : parseText p text = .error e) :
    e.InTable := by
  obtain ⟨_, _, _, _, sub, _, _, _, rfl⟩ := parseLines_error h
  exact raiseSchema_inTable sub _

/-- A string written at OFF after the length check fits the bit string. -/
theorem CommandWrites.window_of_check {s : State} {n : Nat} (S : BitString) (hlen : S.length = n)
    (h : ¬ s.windowPastEnd n = true) : CommandWrites s (s.writeWindow S) :=
  .window S (hlen ▸ windowPastEnd_eq_false.1 (by simpa using h))

/-- The string SWENC writes has as many characters as the width it supports. -/
theorem swenc_length_of_supported {w : Nat} (u : Word) (h : widthSupported w = true) : (swenc u w).length = w := by
  have : w = 16 ∨ w = 32 := by simpa [widthSupported] using h
  rcases this with rfl | rfl
  · exact swenc_length_16 u
  · exact swenc_length_32 u

/-- Every command completes with one of its writes or with an error of the table (60_exceptions.md R300, R301). -/
theorem exec_completes_outcome (i : Instr) (s : State) : ∃ r, exec i s = complete s r ∧ CommandOutcome s r := by
  have length := raiseLength_inTable 0
  have range := raiseRange_inTable 0
  cases i with
  | nop => exact ⟨.ok s, rfl, .nothing⟩
  | b2s => exact ⟨.ok s.bufferToString, rfl, .string⟩
  | s2b => exact ⟨_, rfl, .check length fun _ => .buffer⟩
  | bitrd => exact ⟨_, rfl, .check length fun _ => .result _⟩
  | bitwr => exact ⟨_, rfl, .check length fun h => .check range fun _ => .window_of_check _ (lowBits_length 1 s.arg) h⟩
  | u8rd => exact ⟨_, rfl, .check length fun _ => .result _⟩
  | u8wr => exact ⟨_, rfl, .check length fun h => .check range fun _ => .window_of_check _ (lowBits_length 8 s.arg) h⟩
  | swdec w =>
    refine ⟨_, rfl, ?_⟩
    split
    · exact raiseWidth_inTable
    · exact .check length fun _ => .result _
  | swenc w =>
    refine ⟨_, rfl, .check raiseWidth_inTable fun hw => .check length fun h => .check range fun _ => ?_⟩
    exact .window_of_check _ (swenc_length_of_supported s.arg (by simpa using hw)) h
  | fwdec => exact ⟨_, rfl, .check length fun _ => .result _⟩
  | fwenc => exact ⟨_, rfl, .check length fun h => .window_of_check _ (fwenc_length s.arg) h⟩
  | parse b =>
    refine ⟨_, rfl, ?_⟩
    split
    · exact parseText_error_inTable ‹_›
    · exact .schema b _ ‹_›
  | decode b =>
    refine ⟨_, rfl, ?_⟩
    split
    · exact raiseLength_inTable _
    · exact .values b _
  | encode b =>
    refine ⟨_, rfl, ?_⟩
    split
    · exact raiseMissing_inTable _
    · split
      · exact raiseRange_inTable _
      · exact .record b

/-- A command answers its completed writes, or the state it started from with an error of the table. -/
theorem exec_answers (i : Instr) (s : State) :
    (∃ s', CommandWrites s s' ∧ exec i s = .next s'.okDone) ∨
      (∃ e : Raise, e.InTable ∧
        exec i s = .next (s.errDone e.kind.code (BitVec.ofNat 4 e.sub) (BitVec.ofNat 32 e.info))) := by
  obtain ⟨r, hexec, hr⟩ := exec_completes_outcome i s
  cases r with
  | ok s' => exact .inl ⟨s', hr, hexec⟩
  | error e => exact .inr ⟨e, hr, hexec⟩

/-- No command writes the control registers, the schema text or what is the host's (10_state.md R39). -/
theorem CommandWrites.frame {s s' : State} (h : CommandWrites s s') :
    s'.cmd = s.cmd ∧ s'.ie = s.ie ∧ s'.tlen = s.tlen ∧ s'.off = s.off ∧ s'.arg = s.arg ∧ s'.stxt = s.stxt ∧
      s'.params = s.params ∧ s'.hostFault = s.hostFault ∧ s'.agenda = s.agenda ∧ s'.hostRead = s.hostRead ∧
      s'.draws = s.draws := by
  cases h with
  | record b => simp [State.recordToString]
  | _ => simp

/-- Settles O6: either answer of a command is a completion, and its writes stay inside the frame. -/
theorem everyCommandCompletes : Obligations.EveryCommandCompletes := by
  intro i s
  rcases exec_answers i s with ⟨s', hw, hexec⟩ | ⟨e, _, hexec⟩
  · refine ⟨_, hexec, rfl, rfl, ?_, hw.frame⟩
    simp [State.irq, hw.frame]
  · refine ⟨_, hexec, rfl, rfl, ?_, ?_⟩ <;> simp [State.irq]

end Sys2Proof.Machine
end

section
/-! The statements of 10_state.md on the host's side: the engine's turn, register writes, VAL words, STATUS and ERR. -/

namespace Sys2Proof.Machine

/-! ## The engine's turn (10_state.md R46) -/

theorem engineTurn_idle {s : State} (h : s.inflight = none) : engineTurn s = .next s := by
  simp [engineTurn, State.fetch, h]

theorem engineTurn_command {s : State} {c : Word} {i : Instr} (h : s.inflight = some c) (hd : decodeWord c = .ok i) :
    engineTurn s = exec i s := by
  simp [engineTurn, State.fetch, h, hd]

theorem step_agenda_nil {s : State} (h : s.agenda = []) : step s = engineTurn s := by simp [step, h]

theorem step_agenda_engine {s : State} {rest : List Turn} (h : s.agenda = .engine :: rest) :
    step s = engineTurn { s with agenda := rest } := by simp [step, h]

/-- Settles O5: both kinds of engine turn are `engineTurn`, which runs the word in flight or keeps the state. -/
theorem engineTurnRunsTheCommandInFlight : Obligations.EngineTurnRunsTheCommandInFlight := by
  refine ⟨fun s c i hc hd => ⟨fun ha => ?_, fun rest ha => ?_⟩, fun s hi => ⟨fun ha => ?_, fun rest ha => ?_⟩⟩
  · rw [step_agenda_nil ha, engineTurn_command hc hd]
  · exact (step_agenda_engine ha).trans (engineTurn_command hc hd)
  · rw [step_agenda_nil ha, engineTurn_idle hi]
  · exact (step_agenda_engine ha).trans (engineTurn_idle hi)

/-! ## Register writes (10_state.md R31 to R45) -/

/-- The registers a host write never changes anything through (10_state.md R45). -/
def Reg.readOnly : Reg → Bool
  | .ident | .err | .errInfo | .res | .nfields _ | .nwords _ | .bflags _ => true
  | .pNb | .pNt | .pNf | .pNameMax | .pNv | .pOpts => true
  | .ctrl | .status | .cmd | .wlen | .blen | .tlen | .off | .arg => false

theorem writeReg_of_readOnly (s : State) {r : Reg} (v : Word) (h : r.readOnly = true) : s.writeReg r v = s := by
  cases r <;> first
    | rfl
    | cases h

/-- A protocol-keeping host write of a register, as `writeReg` does it: at once for CTRL and STATUS, else when idle. -/
theorem step_writeReg {s : State} {a : Nat} {v : Word} {rest : List Turn} {r : Reg}
    (ha : s.agenda = .host (.write a 4 v) :: rest) (hr : regAt a = some r) (h4 : a % 4 = 0)
    (hb : s.inflight = none ∨ r.writableWhileBusy = true) :
    step s = .next (({ s with agenda := rest } : State).writeReg r v) := by
  have hlt : a < 0x1000 := by have := regAt_some hr; omega
  have ht : targetAt a = .reg r := targetAt_reg hlt hr
  have hallowed : s.inflight = none ∨ (Access.write a 4 v).allowedWhileBusy = true := by
    simpa [Access.allowedWhileBusy, ht] using hb
  rw [step_hostAccess ha rfl h4 (Nat.lt_trans hlt (by decide)) hallowed]
  simp [State.access, ht, State.writeTarget]

/-- The read-only addresses of the register map hold read-only registers (20_memory.md R104). -/
theorem regAt_readOnly :
    ∀ a ∈ [0x000, 0x010, 0x014, 0x02C, 0x040, 0x044, 0x048, 0x050, 0x054, 0x058,
        0x100, 0x104, 0x108, 0x10C, 0x110, 0x114],
      a % 4 = 0 ∧ (regAt a).any Reg.readOnly = true := by
  decide

/-- STATUS.DONE is write-1-to-clear (10_state.md R32). -/
theorem writeReg_status (s : State) (v : Word) :
    s.writeReg .status v = { s with done := s.done && !v.getLsbD 1 } := by
  cases hv : v.getLsbD 1 <;> simp only [State.writeReg, hv] <;> simp

/-- WLEN, BLEN and TLEN ignore an out-of-range value as a whole (10_state.md R36 to R38). -/
theorem writeReg_wlen (s : State) (v : Word) :
    s.writeReg .wlen v = { s with wlen := if v.toNat ≤ s.params.nB then v else s.wlen } := by
  by_cases h : v.toNat ≤ s.params.nB <;> simp [State.writeReg, h]

theorem writeReg_blen (s : State) (v : Word) :
    s.writeReg .blen v = { s with blen := if v.toNat ≤ 8 * s.params.nB then v else s.blen } := by
  by_cases h : v.toNat ≤ 8 * s.params.nB <;> simp [State.writeReg, h]

theorem writeReg_tlen (s : State) (v : Word) :
    s.writeReg .tlen v = { s with tlen := if v.toNat ≤ s.params.nT then v else s.tlen } := by
  by_cases h : v.toNat ≤ s.params.nT <;> simp [State.writeReg, h]

/-- Settles O54: each address holds its register, and `writeReg` does what the rules say of it. -/
theorem registerWrites : Obligations.RegisterWrites := by
  intro s a v rest ha
  refine ⟨?_, ?_, fun hi => ⟨?_, ?_, ?_, ?_, ?_, ?_, ?_⟩⟩
  · rintro rfl
    exact step_writeReg (r := .ctrl) ha rfl rfl (.inr rfl)
  · rintro rfl
    rw [step_writeReg (r := .status) ha rfl rfl (.inr rfl), writeReg_status]
  · rintro rfl
    exact step_writeReg (r := .cmd) ha rfl rfl (.inl hi)
  · rintro rfl
    rw [step_writeReg (r := .wlen) ha rfl rfl (.inl hi), writeReg_wlen]
  · rintro rfl
    rw [step_writeReg (r := .blen) ha rfl rfl (.inl hi), writeReg_blen]
  · rintro rfl
    rw [step_writeReg (r := .tlen) ha rfl rfl (.inl hi), writeReg_tlen]
  · rintro rfl
    exact step_writeReg (r := .off) ha rfl rfl (.inl hi)
  · rintro rfl
    exact step_writeReg (r := .arg) ha rfl rfl (.inl hi)
  · intro hmem
    obtain ⟨h4, hany⟩ := regAt_readOnly a hmem
    obtain ⟨r, hr, hro⟩ := (Option.any_eq_true _ _).1 hany
    rw [step_writeReg ha hr h4 (.inl hi), writeReg_of_readOnly _ v hro]

/-! ## VAL words (10_state.md R53) -/

/-- The address of VAL word `i` of a bank reaches that word (20_memory.md R106). -/
theorem targetAt_val (b : Bank) {i : Nat} (h : i < 0x10000) :
    targetAt (0x100000 * (b.number + 1) + 0x80000 + 4 * i) = .val b i := by
  rw [Nat.add_assoc, targetAt_bank b (by omega), bankTarget_val b (by omega) (by omega)]
  congr 1
  omega

/-- A write of a VAL word: the word below NWORDS, nothing from there up. -/
theorem writeTarget_val (s : State) (b : Bank) (i : Nat) (w : Word) :
    s.writeTarget (.val b i) w =
      s.setBank b { s.bank b with
        val := if i < (s.bank b).nwords.toNat then storePut 0#32 (s.bank b).val i w else (s.bank b).val } := by
  by_cases h : i < (s.bank b).nwords.toNat
  · simp [State.writeTarget, h]
  · rw [State.writeTarget, if_neg h, if_neg h]
    exact (State.setBank_bank s b).symm

/-- Settles O58: the address reaches the word, and read after write gives it. -/
theorem valWordsStopAtNwords : Obligations.ValWordsStopAtNwords := by
  refine ⟨fun s b i w rest hlt hi ha => ?_, fun s b i hlt => ?_⟩
  · have hstep : step s = .next (({ s with agenda := rest } : State).writeTarget (.val b i) w) := by
      rw [← targetAt_val b hlt]
      refine step_hostWrite ha (by omega) ?_ hi
      have : b.number ≤ 1 := by cases b <;> decide
      unfold Config.windowSize
      omega
    rw [writeTarget_val, State.bank_withAgenda] at hstep
    refine ⟨_, hstep, by simp, ?_, fun v hv => ?_⟩
    · by_cases h : i < (s.bank b).nwords.toNat <;> simp [BankState.word, h, storeGet_put]
    · by_cases h : i < (s.bank b).nwords.toNat <;> simp [BankState.word, h, storeGet_put, hv]
  · rw [targetAt_val b hlt]
    rfl

/-! ## STATUS, ERR and IRQ (10_state.md R32, R34) -/

/-- Beyond its string and beyond 32 bits a word of bits is 0, so its bits are the string's everywhere up to 32 characters. -/
theorem wordOfBits_getLsbD_of_length_le {S : BitString} (h : S.length ≤ 32) (i : Nat) :
    (wordOfBits S).getLsbD i = S.getD i false := by
  by_cases hi : i < 32
  · exact wordOfBits_getLsbD S i hi
  · rw [BitVec.getLsbD_of_ge _ _ (by omega), List.getD_eq_default _ _ (by omega)]

theorem errv_eq (s : State) : s.errv = decide (s.errCode ≠ 0#4) := by
  by_cases h : s.errCode = 0#4 <;> simp [State.errv, h]

theorem statusWord_getLsbD (s : State) (i : Nat) :
    s.statusWord.getLsbD i =
      if i = 0 then s.busy else if i = 1 then s.done else if i = 2 then s.errv else false := by
  rw [State.statusWord, wordOfBits_getLsbD_of_length_le (by simp)]
  match i with
  | 0 | 1 | 2 | n + 3 => rfl

/-- The two fields of ERR do not meet: CODE ends below bit 4 and SUB starts at bit 8. -/
theorem errWord_getLsbD (s : State) (i : Nat) :
    s.errWord.getLsbD i =
      if i < 4 then s.errCode.getLsbD i else if 8 ≤ i ∧ i < 12 then s.errSub.getLsbD (i - 8) else false := by
  simp only [State.errWord, BitVec.getLsbD_or, BitVec.getLsbD_shiftLeft, BitVec.getLsbD_setWidth]
  by_cases hcode : i < 4
  · have h8 : i < 8 := by omega
    have h32 : i < 32 := by omega
    simp [hcode, h8, h32]
  · rw [if_neg hcode, BitVec.getLsbD_of_ge s.errCode i (by omega)]
    by_cases hsub : 8 ≤ i ∧ i < 12
    · have h8 : ¬ i < 8 := by omega
      have h32 : i < 32 := by omega
      have h24 : i - 8 < 32 := by omega
      simp [hsub, h8, h32, h24]
    · by_cases h8 : i < 8
      · simp [hsub, h8]
      · rw [if_neg hsub, BitVec.getLsbD_of_ge s.errSub (i - 8) (by omega)]
        simp

/-- Settles O60: STATUS is the word of its three flags, and ERR joins two fields of four bits. -/
theorem statusAndErrorWords : Obligations.StatusAndErrorWords := by
  intro s
  refine ⟨fun i => ?_, errWord_getLsbD s, by simp [State.irq]⟩
  rw [← errv_eq]
  exact statusWord_getLsbD s i

end Sys2Proof.Machine
end

section
/-! The invariant of 10_state.md R54: what keeps a bank well-formed, what each command's writes and each host access keep,
and that every step keeps `State.Inv`. -/

namespace Sys2Proof.Machine

/-! ## Well-formed banks -/

/-- VAL may be replaced by any canonical memory of the same size, as DECODE and a host write do. -/
theorem BankState.Wf.withVal {p : Params} {b : BankState} (h : b.Wf p) {v : WordStore} (hwf : WordStore.wf v = true)
    (hbelow : storeBelow b.nwords.toNat v = true) : ({ b with val := v } : BankState).Wf p :=
  { h with val_wf := hwf, val_below := hbelow }

theorem BankState.Wf.withPresent {p : Params} {b : BankState} (h : b.Wf p) {m : BitStore} (hwf : BitStore.wf m = true)
    (hbelow : storeBelow b.nfields.toNat m = true) : ({ b with present := m } : BankState).Wf p :=
  { h with present_wf := hwf, present_below := hbelow }

/-- Every window of the schema lies inside the bit string. -/
theorem BankState.Wf.bitEnd_le {p : Params} {b : BankState} (h : b.Wf p) : ∀ e ∈ b.schema, e.bitEnd ≤ 8 * p.nB :=
  fun e he => (h.entries e (h.schema_eq ▸ he)).window_fits

/-- Every slot of the schema lies inside VAL. -/
theorem BankState.Wf.slot_le {p : Params} {b : BankState} (h : b.Wf p) :
    ∀ e ∈ b.schema, e.vbase.toNat + e.words ≤ b.nwords.toNat := by
  intro e he
  obtain ⟨_, hslots, _⟩ := slotsTile_layout h.tile
  exact (hslots e (h.schema_eq ▸ he)).2

/-- DECODE keeps a bank well-formed. -/
theorem BankState.Wf.extractAll {p : Params} {b : BankState} (h : b.Wf p) (m : BitStore) :
    ({ b with val := extractAll m b.schema b.val } : BankState).Wf p := by
  obtain ⟨hwf, hbelow⟩ := extractAll_wf m h.slot_le h.val_wf h.val_below
  exact h.withVal hwf hbelow

/-- ENCODE writes as many characters as the field is wide, whatever its slot holds. -/
theorem encodeSlot_length {p : Params} {e : FieldEntry} (val : WordStore) (h : e.Wf p) :
    (encodeSlot val e).length = e.width.toNat := by
  rw [h.width_eq]
  unfold encodeSlot
  cases e.kind <;> simp [FieldKind.width, List.length_flatMap, Nat.mul_comm]

/-- The buffer ENCODE builds is no longer than what covers every window. -/
theorem bufferBytes_le {es : List FieldEntry} {n : Nat} (h : ∀ e ∈ es, e.bitEnd ≤ 8 * n) : bufferBytes es ≤ n := by
  have hmax : ∀ (es : List FieldEntry) (m : Nat), m ≤ 8 * n → (∀ e ∈ es, e.bitEnd ≤ 8 * n) →
      es.foldl (fun m e => max m e.bitEnd) m ≤ 8 * n := by
    intro es
    induction es with
    | nil => exact fun m hm _ => hm
    | cons e es ih =>
      intro m hm he
      exact ih _ (Nat.max_le.2 ⟨hm, he e (by simp)⟩) fun g hg => he g (by simp [hg])
  have := hmax es 0 (Nat.zero_le _) h
  unfold bufferBytes
  omega

/-! ## What PARSE commits (43_schema.md R240, R254) -/

/-- What PARSE keeps of the fields and words it has collected; a bank committed from it is well-formed. -/
structure ParseAcc.Wf (p : Params) (acc : ParseAcc) : Prop where
  fields_le : acc.fields.length ≤ p.nF
  words_le : acc.words ≤ p.nV
  tile : slotsTile 0 acc.fields acc.words = true
  entries : ∀ e ∈ acc.fields, e.Wf p
  names : (acc.fields.map FieldEntry.name).Nodup

theorem ParseAcc.Wf.empty (p : Params) : ParseAcc.empty.Wf p where
  fields_le := Nat.zero_le _
  words_le := Nat.zero_le _
  tile := rfl
  entries := fun _ he => by cases he
  names := List.nodup_nil

theorem keyOffOf_le (nm : List Byte) : keyOffOf nm ≤ 11 := by
  unfold keyOffOf
  split <;> decide

/-- An array of `n` elements is at least `n` bits wide. -/
theorem FieldKind.le_width (k : FieldKind) {n : Nat} (h : 1 ≤ n ↔ k = .float32Array) : n ≤ k.width n := by
  cases k with
  | float32Array => exact Nat.le_mul_of_pos_left n (by decide)
  | _ =>
    have hn : ¬ 1 ≤ n := fun hn => by cases h.1 hn
    omega

/-- The entry of an accepted line is one that R50 and R54 describe: every number fits its register under legal parameters. -/
theorem LineFields.entry_wf {p : Params} {acc : ParseAcc} {l : LineFields} (k : Nat) (hp : p.Legal)
    (hname : 1 ≤ l.name.length) (halen : 1 ≤ l.alen ↔ l.kind = .float32Array)
    (hc : capacityCheck p acc l = none) : (l.entry k acc.words).Wf p := by
  obtain ⟨hlen, -, -, hwindow, -, -⟩ := capacityCheck_none hc
  obtain ⟨⟨-, hnB⟩, -, -, ⟨-, hmax⟩, -⟩ := hp
  have hle := l.kind.le_width halen
  have hoff : (l.entry k acc.words).offset.toNat = l.off := Nat.mod_eq_of_lt (by omega)
  have hwidth : (l.entry k acc.words).width.toNat = l.kind.width l.alen := Nat.mod_eq_of_lt (by omega)
  have hcount : (l.entry k acc.words).alen.toNat = l.alen := Nat.mod_eq_of_lt (by omega)
  have hkey := keyOffOf_le l.name
  exact {
    window_fits := by rw [FieldEntry.bitEnd, hoff, hwidth]; exact hwindow
    name_length := ⟨hname, hlen⟩
    name_len := Nat.mod_eq_of_lt (by omega)
    array_length := by rw [hcount]; exact halen
    width_eq := by rw [hwidth, hcount]; rfl
    side_eq := rfl
    key_off := Nat.mod_eq_of_lt (by omega) }

/-- An accepted line keeps what PARSE has collected well-formed. -/
theorem ParseAcc.Wf.add {p : Params} {acc : ParseAcc} {l : LineFields} (k : Nat) (h : acc.Wf p) (hp : p.Legal)
    (hname : 1 ≤ l.name.length) (halen : 1 ≤ l.alen ↔ l.kind = .float32Array)
    (hc : capacityCheck p acc l = none) : (acc.add l k).Wf p := by
  have hentry := LineFields.entry_wf k hp hname halen hc
  obtain ⟨-, hnew, hfull, hwindow, hwords, -⟩ := capacityCheck_none hc
  obtain ⟨⟨-, hnB⟩, -, -, -, ⟨-, hnV⟩⟩ := hp
  have hle := l.kind.le_width halen
  have hcount : (l.entry k acc.words).alen.toNat = l.alen := Nat.mod_eq_of_lt (by omega)
  have hbase : (l.entry k acc.words).vbase.toNat = acc.words := Nat.mod_eq_of_lt (by omega)
  have hslot : (l.entry k acc.words).words = l.kind.words l.alen := by rw [FieldEntry.words, hcount]; rfl
  have htile := slotsTile_append h.tile hbase
  rw [hslot] at htile
  exact {
    fields_le := by have := h.fields_le; simp [ParseAcc.add]; omega
    words_le := hwords
    tile := htile
    entries := by
      intro e he
      rcases List.mem_append.1 he with he | he
      · exact h.entries e he
      · exact List.mem_singleton.1 he ▸ hentry
    names := by
      rw [ParseAcc.add, List.map_append, List.nodup_append]
      refine ⟨h.names, by simp, ?_⟩
      simpa [LineFields.entry] using hnew }

/-- What PARSE collects from a whole text is well-formed. -/
theorem parseText_wf {p : Params} {text : List Byte} {acc : ParseAcc} (hp : p.Legal) (h : parseText p text = .ok acc) :
    acc.Wf p := by
  refine parseLines_induct ?_ (ParseAcc.Wf.empty p) h
  rintro k first rest l acc hacc hread hc ⟨line, htokens⟩
  obtain ⟨type, more, rfl, -, -, hlength⟩ := readLine_ok hread
  have hname : l.name ≠ [] := tokensFrom_nonempty [] line _ (by rw [← tokens, htokens]; simp)
  exact hacc.add k hp (List.length_pos_iff.2 hname) (arrayLength_ok hlength) hc

/-- The bank of a successful PARSE is well-formed. -/
theorem committedBank_wf {p : Params} {acc : ParseAcc} (hp : p.Legal) (h : acc.Wf p) : (committedBank acc).Wf p := by
  obtain ⟨hfields, hwords, htile, hentries, hnames⟩ := h
  obtain ⟨-, -, ⟨-, hnF⟩, -, ⟨-, hnV⟩⟩ := hp
  have hnfields : (committedBank acc).nfields.toNat = acc.fields.length := Nat.mod_eq_of_lt (by omega)
  have hnwords : (committedBank acc).nwords.toNat = acc.words := Nat.mod_eq_of_lt (by omega)
  exact {
    nfields_eq := hnfields.symm
    nfields_le := by rw [hnfields]; exact hfields
    nwords_le := by rw [hnwords]; exact hwords
    tile := by rw [hnwords]; exact htile
    entries := hentries
    names := hnames
    present_wf := rfl
    present_below := rfl
    val_wf := rfl
    val_below := rfl
    unloaded_empty := fun h => by cases h }

/-! ## What keeps the invariant of the state -/

theorem State.Inv.withAgenda {s : State} (h : s.Inv) (l : List Turn) : ({ s with agenda := l } : State).Inv := { h with }

theorem State.Inv.bank_wf {s : State} (h : s.Inv) (b : Bank) : (s.bank b).Wf s.params := by
  cases b with
  | bank0 => exact h.bank0_wf
  | bank1 => exact h.bank1_wf

theorem State.Inv.setBank {s : State} (h : s.Inv) (b : Bank) {x : BankState} (hx : x.Wf s.params) :
    (s.setBank b x).Inv := by
  cases b with
  | bank0 => exact { h with bank0_wf := hx }
  | bank1 => exact { h with bank1_wf := hx }

theorem State.Inv.bufferToString {s : State} (h : s.Inv) : s.bufferToString.Inv :=
  { h with
    blen_le := (Nat.mod_le _ _).trans (Nat.mul_le_mul_left 8 h.wlen_le)
    bstr_wf := storeFill_wf _ _ _ h.bstr_wf
    bstr_below := storeFill_below _ _ _ h.bstr_below (by have := h.wlen_le; simp; omega) }

theorem State.Inv.stringToBuffer {s : State} (h : s.Inv) {n : Nat} (hn : n ≤ s.params.nB) : (s.stringToBuffer n).Inv :=
  { h with
    wlen_le := (Nat.mod_le _ _).trans hn
    wbuf_wf := storeFill_wf _ _ _ h.wbuf_wf
    wbuf_below := storeFill_below _ _ _ h.wbuf_below (by simpa using hn) }

theorem State.Inv.writeWindow {s : State} (h : s.Inv) (S : BitString) (fits : s.off.toNat + S.length ≤ s.blen.toNat) :
    (s.writeWindow S).Inv :=
  { h with
    bstr_wf := storeFill_wf _ _ _ h.bstr_wf
    bstr_below := storeFill_below _ _ _ h.bstr_below (fits.trans h.blen_le) }

/-- The windows ENCODE inserts lie inside BSTR, and so does the string it zeroes first. -/
theorem State.Inv.recordToString {s : State} (h : s.Inv) (b : Bank) : (s.recordToString b).Inv := by
  have hb := h.bank_wf b
  have hbytes := bufferBytes_le hb.bitEnd_le
  have hlength : ∀ e ∈ (s.bank b).schema, (encodeSlot (s.bank b).val e).length = e.width.toNat :=
    fun e he => encodeSlot_length _ (hb.entries e (hb.schema_eq ▸ he))
  have hzero : storeBelow (8 * s.params.nB)
      (putWindow s.bstr 0 (List.replicate (8 * bufferBytes (s.bank b).schema) false)) = true :=
    storeFill_below _ _ _ h.bstr_below (by simpa using hbytes)
  obtain ⟨hwf, hbelow⟩ := insertAll_wf hlength hb.bitEnd_le (storeFill_wf _ _ _ h.bstr_wf) hzero
  exact { h with
    blen_le := (Nat.mod_le _ _).trans (Nat.mul_le_mul_left 8 hbytes)
    bstr_wf := hwf
    bstr_below := hbelow }

/-- The writes of a command keep the invariant. -/
theorem CommandWrites.keeps_inv {s s' : State} (hw : CommandWrites s s') (h : s.Inv) : s'.Inv := by
  cases hw with
  | nothing => exact h
  | string => exact h.bufferToString
  | buffer => exact h.stringToBuffer (by have := h.blen_le; omega)
  | result v => exact { h with }
  | window S fits => exact h.writeWindow S fits
  | schema b acc parsed => exact h.setBank b (committedBank_wf h.params_legal (parseText_wf h.params_legal parsed))
  | values b m => exact h.bufferToString.setBank b ((h.bank_wf b).extractAll m)
  | record b => exact (h.recordToString b).stringToBuffer (bufferBytes_le (h.bank_wf b).bitEnd_le)

/-! ## Completion -/

theorem State.Inv.okDone {s : State} (h : s.Inv) : s.okDone.Inv :=
  { h with
    in_flight := fun c hc => by cases hc
    err_code := by simp
    err_sub := by simp
    err_info := by simp }

theorem ErrorKind.code_le (k : ErrorKind) : k.code.toNat ≤ 6 := by cases k <;> decide

theorem ErrorKind.code_eq_one_iff (k : ErrorKind) : k.code = 1#4 ↔ k = .schemaError := by cases k <;> decide

/-- The codes of errors that carry no info word are those of the kinds that name no line or field. -/
theorem ErrorKind.of_code_no_info {k : ErrorKind} (h : k.code = 0#4 ∨ k.code = 5#4 ∨ k.code = 6#4) :
    k = .unsupportedWidthError ∨ k = .illegalCommand := by
  revert h
  cases k <;> decide

/-- ERR.SUB of an error of the table: its subcause, 0 exactly on the kinds that have none. -/
theorem Raise.InTable.sub_word {e : Raise} (he : e.InTable) :
    (BitVec.ofNat 4 e.sub).toNat ≤ 12 ∧ (BitVec.ofNat 4 e.sub ≠ 0#4 ↔ e.kind.code = 1#4) := by
  rw [ErrorKind.code_eq_one_iff]
  by_cases hk : e.kind = .schemaError
  · obtain ⟨hlo, hhi⟩ := he.schema_sub hk
    have hsub : (BitVec.ofNat 4 e.sub).toNat = e.sub := Nat.mod_eq_of_lt (by omega)
    refine ⟨by omega, fun _ => hk, fun _ h0 => ?_⟩
    rw [h0] at hsub
    exact absurd hsub (by simp; omega)
  · simp [he.other_sub hk, hk]

/-- Taking an error of the table keeps the invariant. -/
theorem State.Inv.errDone {s : State} (h : s.Inv) {e : Raise} (he : e.InTable) :
    (s.errDone e.kind.code (BitVec.ofNat 4 e.sub) (BitVec.ofNat 32 e.info)).Inv :=
  { h with
    in_flight := fun c hc => by cases hc
    err_code := e.kind.code_le
    err_sub := he.sub_word
    err_info := fun hcode => by simp [he.no_info (ErrorKind.of_code_no_info hcode)] }

/-- Every command keeps the invariant. -/
theorem exec_keeps_inv {i : Instr} {s t : State} (h : s.Inv) (hexec : exec i s = .next t) : t.Inv := by
  rcases exec_answers i s with ⟨s', hw, hs'⟩ | ⟨e, he, hs'⟩
  · cases hs'.symm.trans hexec
    exact (hw.keeps_inv h).okDone
  · cases hs'.symm.trans hexec
    exact h.errDone he

/-- The engine's turn keeps the invariant. -/
theorem engineTurn_keeps_inv {s t : State} (h : s.Inv) (ht : engineTurn s = .next t) : t.Inv := by
  rcases engineTurn_cases ht with ⟨-, rfl⟩ | ⟨c, i, -, -, hexec⟩ | ⟨c, e, -, -, rfl⟩
  · exact h
  · exact exec_keeps_inv h hexec
  · exact h.errDone (e := ⟨.illegalCommand, 0, 0⟩) (by constructor <;> simp)

/-! ## The host's accesses -/

/-- A register write keeps the invariant: a length out of range is ignored, and a write of CMD puts that word in flight. -/
theorem State.Inv.writeReg {s : State} (h : s.Inv) (r : Reg) (v : Word) : (s.writeReg r v).Inv := by
  cases r with
  | ctrl => exact { h with }
  | status =>
    rw [writeReg_status]
    refine { h with in_flight := fun c hc => ?_ }
    obtain ⟨hcmd, hdone⟩ := h.in_flight c hc
    exact ⟨hcmd, by simp [hdone]⟩
  | cmd => exact { h with in_flight := fun c hc => ⟨Option.some.inj hc, rfl⟩ }
  | wlen => rw [writeReg_wlen]; exact { h with wlen_le := by split <;> [assumption; exact h.wlen_le] }
  | blen => rw [writeReg_blen]; exact { h with blen_le := by split <;> [assumption; exact h.blen_le] }
  | tlen => rw [writeReg_tlen]; exact { h with tlen_le := by split <;> [assumption; exact h.tlen_le] }
  | off => exact { h with }
  | arg => exact { h with }
  | _ => exact h

/-- A write of any target keeps the invariant: the memories stay canonical and inside their sizes. -/
theorem State.Inv.writeTarget {s : State} (h : s.Inv) (t : Target) (v : Word) : (s.writeTarget t v).Inv := by
  cases t with
  | reg r => exact h.writeReg r v
  | wbuf k =>
    obtain ⟨hwf, hbelow⟩ := busPutBytes_wf k v h.wbuf_wf h.wbuf_below
    exact { h with wbuf_wf := hwf, wbuf_below := hbelow }
  | bstr k =>
    obtain ⟨hwf, hbelow⟩ := busPutBits_wf (8 * k) v h.bstr_wf h.bstr_below
    exact { h with bstr_wf := hwf, bstr_below := hbelow }
  | stxt k =>
    obtain ⟨hwf, hbelow⟩ := busPutBytes_wf k v h.stxt_wf h.stxt_below
    exact { h with stxt_wf := hwf, stxt_below := hbelow }
  | present b k =>
    have hb := h.bank_wf b
    obtain ⟨hwf, hbelow⟩ := busPutBits_wf (32 * k) v hb.present_wf hb.present_below
    exact h.setBank b (hb.withPresent hwf hbelow)
  | val b i =>
    have hb := h.bank_wf b
    rw [writeTarget_val]
    refine h.setBank b ?_
    split
    · exact hb.withVal (storePut_wf _ _ _ hb.val_wf) (storePut_below _ hb.val_below ‹_›)
    · exact hb
  | ftab b f w => exact h
  | name b f j => exact h
  | unmapped => exact h

/-- A host access keeps the invariant, violations included: those write HOSTFAULT and the word read alone. -/
theorem busAccess_keeps_inv {s t : State} {a : Access} (h : s.Inv) (ht : busAccess a s = .next t) : t.Inv := by
  obtain ⟨-, ⟨-, rfl⟩ | ⟨-, rfl⟩⟩ := busAccess_cases ht
  · cases a with
    | read ad n => exact { h with }
    | write ad n v => exact { h with }
  · cases a with
    | read ad n => exact { h with }
    | write ad n v => exact h.writeTarget (targetAt ad) v

/-- Settles O49: a step is an engine's turn or a host access, and each keeps the invariant. -/
theorem stepKeepsTheInvariant : Obligations.StepKeepsTheInvariant := by
  intro s t h hstep
  rcases step_cases hstep with ⟨-, ht⟩ | ⟨rest, -, ht⟩ | ⟨a, rest, -, ht⟩
  · exact engineTurn_keeps_inv h ht
  · exact engineTurn_keeps_inv (h.withAgenda rest) ht
  · exact busAccess_keeps_inv (h.withAgenda rest) ht

end Sys2Proof.Machine
end

section
/-! The statements of 20_memory.md: the words host reads return, the packing of WBUF, BSTR and STXT, PRESENT, and the
addresses that ignore writes and read 0. -/

namespace Sys2Proof.Machine

/-! ## Reads and writes that keep the protocol (20_memory.md R101, R109) -/

/-- The registers a host may read at any time are those at these addresses (20_memory.md R109). -/
theorem regAt_readableWhileBusy :
    ∀ a ∈ [0x000, 0x004, 0x008, 0x00C, 0x100, 0x104, 0x108, 0x10C, 0x110, 0x114],
      (regAt a).any Reg.readableWhileBusy = true := by
  decide

theorem targetAt_of_regAt {a : Nat} {r : Reg} (hr : regAt a = some r) : targetAt a = .reg r :=
  targetAt_reg (by have := regAt_some hr; omega) hr

theorem read_allowedWhileBusy {a : Nat} (n : Nat)
    (h : a ∈ [0x000, 0x004, 0x008, 0x00C, 0x100, 0x104, 0x108, 0x10C, 0x110, 0x114]) :
    (Access.read a n).allowedWhileBusy = true := by
  obtain ⟨r, hr, hreadable⟩ := (Option.any_eq_true _ _).1 (regAt_readableWhileBusy a h)
  simpa [Access.allowedWhileBusy, targetAt_of_regAt hr] using hreadable

/-- A host read that keeps the protocol records the word of its address and changes nothing else (20_memory.md R117). -/
theorem step_hostRead {s : State} {a : Nat} {rest : List Turn} (ha : s.agenda = .host (.read a 4) :: rest)
    (h4 : a % 4 = 0) (hw : a < Config.windowSize) (hb : s.inflight = none ∨ (Access.read a 4).allowedWhileBusy = true) :
    step s = .next { s with agenda := rest, hostRead := s.readTarget (targetAt a) } := by
  rw [step_hostAccess ha rfl h4 hw hb, State.access, State.readTarget_withAgenda]

/-- A host write while idle, at an address whose target is known. -/
theorem step_writeTarget {s : State} {a : Nat} {v : Word} {rest : List Turn} {t : Target}
    (ha : s.agenda = .host (.write a 4 v) :: rest) (ht : targetAt a = t) (h4 : a % 4 = 0) (hw : a < Config.windowSize)
    (hi : s.inflight = none) : step s = .next (({ s with agenda := rest } : State).writeTarget t v) :=
  ht ▸ step_hostWrite ha h4 hw hi

/-! ## Register words (10_state.md R30 to R44) -/

theorem readTarget_of_regAt (s : State) {a : Nat} {r : Reg} (hr : regAt a = some r) :
    s.readTarget (targetAt a) = s.readReg r := by
  rw [targetAt_of_regAt hr, State.readTarget]

/-- A flag register of one bit reads as that bit. -/
theorem wordOfBits_single (b : Bool) : wordOfBits [b] = if b then 1#32 else 0#32 := by
  cases b <;> decide

/-- OVERLAP weighs 1 and LOADED 2 (10_state.md R43). -/
theorem flagsWord_eq_sum (b : BankState) :
    b.flagsWord = (if b.overlap then 1#32 else 0#32) + (if b.loaded then 2#32 else 0#32) := by
  unfold BankState.flagsWord
  cases b.overlap <;> cases b.loaded <;> decide

/-! ## Field table and name words (20_memory.md R106) -/

/-- The address of word `k` of entry `f` reaches that word. -/
theorem targetAt_ftab (b : Bank) {f k : Nat} (hf : f < 1024) (hk : k < 8) :
    targetAt (0x100000 * (b.number + 1) + (32 * f + 4 * k)) = .ftab b f k := by
  rw [targetAt_bank b (by omega), bankTarget_ftab b (by omega)]
  congr 1 <;> omega

/-- The address of word `k` of the name of entry `f` reaches the name's bytes from `4k` up. -/
theorem targetAt_name (b : Bank) {f k : Nat} (hf : f < 1024) (hk : k < 64) :
    targetAt (0x100000 * (b.number + 1) + (0x10000 + 256 * f + 4 * k)) = .name b f (4 * k) := by
  have hentry : (0x10000 + 256 * f + 4 * k - 0x10000) / 256 = f := by omega
  have hbyte : (0x10000 + 256 * f + 4 * k - 0x10000) % 256 = 4 * k := by omega
  rw [targetAt_bank b (by omega), bankTarget_name b (by omega) (by omega), hentry, hbyte]

theorem readTarget_ftab (s : State) (b : Bank) {f k : Nat} (hf : f < 1024) (hk : k < 8) :
    s.readTarget (targetAt (0x100000 * (b.number + 1) + (32 * f + 4 * k))) = ((s.bank b).entry f).busWord k := by
  rw [targetAt_ftab b hf hk, State.readTarget]

theorem readTarget_name (s : State) (b : Bank) {f k : Nat} (hf : f < 1024) (hk : k < 64) :
    s.readTarget (targetAt (0x100000 * (b.number + 1) + (0x10000 + 256 * f + 4 * k))) =
      ((s.bank b).entry f).busName (4 * k) := by
  rw [targetAt_name b hf hk, State.readTarget]

theorem Side.bit_eq_decide (d : Side) : d.bit = decide (d = .write) := by cases d <;> rfl

/-- The entry beyond NFIELDS reads 0 in every word. -/
theorem FieldEntry.zero_busWord (k : Nat) : FieldEntry.zero.busWord k = 0#32 := by
  match k with
  | 0 => rfl
  | 1 | 2 | 3 | 4 | 5 | 6 | _ + 7 => rfl

/-- A name of length 0 reads 0 in every word. -/
theorem FieldEntry.zero_busName (j : Nat) : FieldEntry.zero.busName j = 0#32 := by
  have hlen (i : Nat) : ¬ j + i < FieldEntry.zero.nameLen.toNat := Nat.not_lt_zero _
  simp only [FieldEntry.busName, hlen, if_false]
  decide

/-- Settles O53: a read turn, then the word of each register, entry word and name word. -/
theorem readsReturnTheWordOfTheirAddress : Obligations.ReadsReturnTheWordOfTheirAddress := by
  refine ⟨fun s a rest ha hw h4 hb => ?_, fun s => ?_, fun s b f hf => ?_⟩
  · exact step_hostRead ha h4 hw (hb.imp_right (read_allowedWhileBusy 4))
  · have word (r : Reg) {a : Nat} (hr : regAt a = some r) := readTarget_of_regAt s hr
    refine ⟨⟨word .ident rfl, ?_, word .status rfl, word .cmd rfl, word .err rfl, word .errInfo rfl⟩,
      ⟨word .wlen rfl, word .blen rfl, word .tlen rfl, word .off rfl, word .arg rfl, word .res rfl⟩,
      ⟨word (.nfields .bank0) rfl, word (.nwords .bank0) rfl, ?_⟩,
      ⟨word (.nfields .bank1) rfl, word (.nwords .bank1) rfl, ?_⟩,
      word .pNb rfl, word .pNt rfl, word .pNf rfl, word .pNameMax rfl, word .pNv rfl, ?_⟩
    · exact (word .ctrl rfl).trans (wordOfBits_single s.ie)
    · exact (word (.bflags .bank0) rfl).trans (flagsWord_eq_sum s.bank0)
    · exact (word (.bflags .bank1) rfl).trans (flagsWord_eq_sum s.bank1)
    · exact (word .pOpts rfl).trans (wordOfBits_single s.params.overlapIsError)
  · intro e entryWord nameWord
    have he : e = (s.bank b).entry f := ((s.bank b).entry_eq f).symm
    have hentry (k : Nat) (hk : k < 8) : entryWord k = e.busWord k := he ▸ readTarget_ftab s b hf hk
    have hname (k : Nat) (hk : k < 64) : nameWord k = e.busName (4 * k) := he ▸ readTarget_name s b hf hk
    refine ⟨fun i => ?_, ⟨hentry 1 (by decide), hentry 2 (by decide), hentry 3 (by decide), hentry 4 (by decide),
      hentry 5 (by decide), hentry 6 (by decide), hentry 7 (by decide)⟩, fun k j i hk hj hi => ?_, fun hge => ?_⟩
    · rw [hentry 0 (by decide), ← Side.bit_eq_decide]
      exact e.headWord_getLsbD i
    · rw [hname k hk]
      exact e.busName_getLsbD _ _ _ hj hi
    · have hzero : e = FieldEntry.zero := if_neg (Nat.not_lt.2 hge)
      rw [hzero] at hentry hname
      exact ⟨fun k hk => (hentry k hk).trans (FieldEntry.zero_busWord k),
        fun k hk => (hname k hk).trans (FieldEntry.zero_busName (4 * k))⟩

/-! ## Packed memory words (20_memory.md R102, R103, R105, R108) -/

/-- The address of word `k` of each memory region reaches the region's bytes from `4k` up (20_memory.md R105). -/
theorem targetAt_wbufWord {k : Nat} (h : 4 * k < 0x10000) : targetAt (0x10000 + 4 * k) = .wbuf (4 * k) := by
  rw [targetAt_wbuf (by omega) (by omega), Nat.add_sub_cancel_left]

theorem targetAt_bstrWord {k : Nat} (h : 4 * k < 0x10000) : targetAt (0x20000 + 4 * k) = .bstr (4 * k) := by
  rw [targetAt_bstr (by omega) (by omega), Nat.add_sub_cancel_left]

theorem targetAt_stxtWord {k : Nat} (h : 4 * k < 0x10000) : targetAt (0x30000 + 4 * k) = .stxt (4 * k) := by
  rw [targetAt_stxt (by omega) (by omega), Nat.add_sub_cancel_left]

/-- A bus write puts bits `8j` to `8j+7` of the word into byte `j` of it (20_memory.md R102). -/
theorem busPutBytes_getLsbD_inside (m : Memory) {size k j i : Nat} (v : Word) (hj : j < 4) (hi : i < 8)
    (hsize : k + j < size) : (storeGet 0#8 (busPutBytes m size k v) (k + j)).getLsbD i = v.getLsbD (8 * j + i) := by
  rw [storeGet_busPutBytes, if_pos ⟨by omega, by omega, hsize⟩, Nat.add_sub_cancel_left, BitVec.getLsbD_extractLsb']
  simp [hi]

theorem storeGet_busPutBytes_outside (m : Memory) {size k a : Nat} (v : Word) (h : a < k ∨ k + 4 ≤ a ∨ size ≤ a) :
    storeGet 0#8 (busPutBytes m size k v) a = storeGet 0#8 m a := by
  rw [storeGet_busPutBytes, if_neg (by omega)]

theorem storeGet_busPutBits_inside (m : BitStore) {size i j : Nat} (v : Word) (hj : j < 32) (hsize : i + j < size) :
    storeGet false (busPutBits m size i v) (i + j) = v.getLsbD j := by
  rw [storeGet_busPutBits, if_pos ⟨by omega, by omega, hsize⟩, Nat.add_sub_cancel_left]

theorem storeGet_busPutBits_outside (m : BitStore) {size i p : Nat} (v : Word) (h : p < i ∨ i + 32 ≤ p ∨ size ≤ p) :
    storeGet false (busPutBits m size i v) p = storeGet false m p := by
  rw [storeGet_busPutBits, if_neg (by omega)]

/-- Bits `8j` to `8j+7` of a bus word of bytes are those of its byte `j` (20_memory.md R102). -/
theorem busBytes_getLsbD_byte (m : Memory) (size k : Nat) {j i : Nat} (hj : j < 4) (hi : i < 8) :
    (busBytes m size k).getLsbD (8 * j + i) = (decide (k + j < size) && (storeGet 0#8 m (k + j)).getLsbD i) := by
  have hdiv : (8 * j + i) / 8 = j := by omega
  have hmod : (8 * j + i) % 8 = i := by omega
  rw [busBytes_getLsbD _ _ _ _ (by omega), hdiv, hmod]

/-- The bit of BSTR that a bus word of its region starts at (20_memory.md R103). -/
theorem bstrWord_firstBit (k : Nat) : 8 * (4 * k) = 32 * k := by omega

theorem readTarget_wbufWord (s : State) {k : Nat} (h : 4 * k < 0x10000) :
    s.readTarget (targetAt (0x10000 + 4 * k)) = busBytes s.wbuf s.params.nB (4 * k) := by
  rw [targetAt_wbufWord h, State.readTarget]

theorem readTarget_bstrWord (s : State) {k : Nat} (h : 4 * k < 0x10000) :
    s.readTarget (targetAt (0x20000 + 4 * k)) = busBits s.bstr (8 * s.params.nB) (32 * k) := by
  rw [targetAt_bstrWord h, State.readTarget, bstrWord_firstBit]

theorem readTarget_stxtWord (s : State) {k : Nat} (h : 4 * k < 0x10000) :
    s.readTarget (targetAt (0x30000 + 4 * k)) = busBytes s.stxt s.params.nT (4 * k) := by
  rw [targetAt_stxtWord h, State.readTarget]

/-- A host write in each memory region, as a replacement of that memory alone. -/
theorem step_writeWbufWord {s : State} {k : Nat} {v : Word} {rest : List Turn} (h : 4 * k < 0x10000)
    (hi : s.inflight = none) (ha : s.agenda = .host (.write (0x10000 + 4 * k) 4 v) :: rest) :
    step s = .next { s with agenda := rest, wbuf := busPutBytes s.wbuf s.params.nB (4 * k) v } :=
  step_writeTarget ha (targetAt_wbufWord h) (by omega) (by unfold Config.windowSize; omega) hi

theorem step_writeBstrWord {s : State} {k : Nat} {v : Word} {rest : List Turn} (h : 4 * k < 0x10000)
    (hi : s.inflight = none) (ha : s.agenda = .host (.write (0x20000 + 4 * k) 4 v) :: rest) :
    step s = .next { s with agenda := rest, bstr := busPutBits s.bstr (8 * s.params.nB) (32 * k) v } := by
  rw [← bstrWord_firstBit]
  exact step_writeTarget ha (targetAt_bstrWord h) (by omega) (by unfold Config.windowSize; omega) hi

theorem step_writeStxtWord {s : State} {k : Nat} {v : Word} {rest : List Turn} (h : 4 * k < 0x10000)
    (hi : s.inflight = none) (ha : s.agenda = .host (.write (0x30000 + 4 * k) 4 v) :: rest) :
    step s = .next { s with agenda := rest, stxt := busPutBytes s.stxt s.params.nT (4 * k) v } :=
  step_writeTarget ha (targetAt_stxtWord h) (by omega) (by unfold Config.windowSize; omega) hi

/-- Settles O55: each region's write replaces its memory by the packed one, and its read is the packed word. -/
theorem memoryWordsArePackedLittleEndian : Obligations.MemoryWordsArePackedLittleEndian := by
  refine ⟨fun s k v rest hk hi => ⟨fun ha => ?_, fun ha => ?_, fun ha => ?_⟩, fun s k hk => ⟨?_, ?_, ?_⟩⟩
  · refine ⟨_, step_writeWbufWord hk hi ha, rfl, fun j i hj hi hsize => ?_, fun a h => ?_⟩
    · exact busPutBytes_getLsbD_inside s.wbuf v hj hi hsize
    · exact storeGet_busPutBytes_outside s.wbuf v h
  · refine ⟨_, step_writeBstrWord hk hi ha, rfl, fun j hj hsize => ?_, fun p h => ?_⟩
    · exact storeGet_busPutBits_inside s.bstr v hj hsize
    · exact storeGet_busPutBits_outside s.bstr v h
  · refine ⟨_, step_writeStxtWord hk hi ha, rfl, fun j i hj hi hsize => ?_, fun a h => ?_⟩
    · exact busPutBytes_getLsbD_inside s.stxt v hj hi hsize
    · exact storeGet_busPutBytes_outside s.stxt v h
  · rw [readTarget_wbufWord s hk]
    exact fun j i hj hi => busBytes_getLsbD_byte _ _ _ hj hi
  · rw [readTarget_bstrWord s hk]
    exact fun j hj => busBits_getLsbD _ _ _ _ hj
  · rw [readTarget_stxtWord s hk]
    exact fun j i hj hi => busBytes_getLsbD_byte _ _ _ hj hi

/-! ## BSTR words after B2S (20_memory.md R103) -/

/-- After B2S, bit `8a + i` of BSTR is bit `i` of byte `a` of WBUF inside WLEN (40_bitorder.md R170). -/
theorem bufferToString_bit (s : State) {a i : Nat} (ha : a < s.wlen.toNat) (hi : i < 8) :
    s.bufferToString.bit (8 * a + i) = (s.byte a).getLsbD i := by
  rw [State.bit, State.bufferToString_bstr, storeGet_putWindow, if_pos (by simp; omega), Nat.sub_zero,
    bytesToBits_getD _ _ _ (by simpa using ha) hi, storeRead_getD _ _ _ _ _ ha, Nat.zero_add, State.byte]

/-- Settles O56: bit `j` of both words is bit `j % 8` of byte `4k + j / 8` of WBUF. -/
theorem bstrWordsReadLikeWbufWordsAfterB2s : Obligations.BstrWordsReadLikeWbufWordsAfterB2s := by
  intro s t k hexec hwlen hk hregion
  obtain rfl : s.bufferToString.okDone = t := by injection hexec
  have hread : ∀ j, j < 32 →
      (s.bufferToString.okDone.readTarget (targetAt (0x20000 + 4 * k))).getLsbD j =
        s.bufferToString.okDone.bit (32 * k + j) := by
    intro j hj
    have hin : 32 * k + j < 8 * s.params.nB := by omega
    rw [readTarget_bstrWord _ hregion, busBits_getLsbD _ _ _ _ hj]
    simp [hin, State.bit]
  refine ⟨BitVec.eq_of_getLsbD_eq fun j hj => ?_, hread⟩
  have hbyte : 4 * k + j / 8 < s.wlen.toNat := by omega
  have hsize : 4 * k + j / 8 < s.params.nB := by omega
  have hindex : 32 * k + j = 8 * (4 * k + j / 8) + j % 8 := by omega
  rw [hread j hj, readTarget_wbufWord _ hregion, busBytes_getLsbD _ _ _ _ hj]
  calc s.bufferToString.bit (32 * k + j)
      = (s.byte (4 * k + j / 8)).getLsbD (j % 8) := by
        rw [hindex, bufferToString_bit s hbyte (Nat.mod_lt _ (by decide))]
    _ = _ := by simp [hsize, State.byte]

/-! ## PRESENT words (20_memory.md R107) -/

/-- The address of PRESENT word `k` of a bank reaches that word. -/
theorem targetAt_present (b : Bank) {k : Nat} (h : k < 32) :
    targetAt (0x100000 * (b.number + 1) + 0x8000 + 4 * k) = .present b k := by
  rw [Nat.add_assoc, targetAt_bank b (by omega), bankTarget_present b (by omega) (by omega)]
  congr 1
  omega

/-- Every address of a bank lies inside the window (20_memory.md R105). -/
theorem bank_offset_lt_window (b : Bank) {o : Nat} (h : o < 0x100000) :
    0x100000 * (b.number + 1) + o < Config.windowSize := by
  cases b <;> simp only [Bank.number, Config.windowSize] <;> omega

/-- A host write of a PRESENT word replaces the bank's PRESENT alone. -/
theorem step_writePresent {s : State} {b : Bank} {k : Nat} {w : Word} {rest : List Turn} (h : k < 32)
    (hi : s.inflight = none)
    (ha : s.agenda = .host (.write (0x100000 * (b.number + 1) + 0x8000 + 4 * k) 4 w) :: rest) :
    step s = .next (({ s with agenda := rest } : State).setBank b
      { s.bank b with present := busPutBits (s.bank b).present (s.bank b).nfields.toNat (32 * k) w }) := by
  have hw := bank_offset_lt_window b (o := 0x8000 + 4 * k) (by omega)
  rw [step_writeTarget ha (targetAt_present b h) (by omega) (by rwa [Nat.add_assoc]) hi, State.writeTarget,
    State.bank_withAgenda]

/-- Settles O57: the write packs the word into PRESENT below NFIELDS, and the read unpacks it there. -/
theorem presentWritesSetTheFieldsBits : Obligations.PresentWritesSetTheFieldsBits := by
  intro s b k w rest hk hi ha
  refine ⟨_, step_writePresent hk hi ha, ?_⟩
  rw [targetAt_present b hk, State.readTarget, State.bank_setBank_same]
  refine ⟨rfl, fun j hj hsize => ?_, fun f h => ?_, fun j hj => ?_⟩
  · exact storeGet_busPutBits_inside (s.bank b).present w hj hsize
  · exact storeGet_busPutBits_outside (s.bank b).present w h
  · exact busBits_getLsbD _ _ _ _ hj

/-! ## Read-only and unmapped addresses (20_memory.md R104 to R106, R108) -/

/-- The holes of the register region, the gap before the banks, and the gaps and tails of the banks. -/
def UnmappedOffset (a : Nat) : Prop :=
  (0x030 ≤ a ∧ a < 0x040) ∨ (0x04C ≤ a ∧ a < 0x050) ∨ (0x05C ≤ a ∧ a < 0x100) ∨ (0x118 ≤ a ∧ a < 0x10000) ∨
    (0x40000 ≤ a ∧ a < 0x100000) ∨ (0x108080 ≤ a ∧ a < 0x110000) ∨ (0x150000 ≤ a ∧ a < 0x180000) ∨
    (0x1C0000 ≤ a ∧ a < 0x200000) ∨ (0x208080 ≤ a ∧ a < 0x210000) ∨ (0x250000 ≤ a ∧ a < 0x280000) ∨
    (0x2C0000 ≤ a ∧ a < 0x300000)

theorem targetAt_of_unmappedOffset {a : Nat} (h : UnmappedOffset a) : targetAt a = .unmapped := by
  unfold UnmappedOffset at h
  rcases Nat.lt_or_ge a 0x1000 with hreg | hreg
  · exact targetAt_reg_none hreg (regAt_hole (by omega))
  rcases Nat.lt_or_ge a 0x100000 with hmem | hmem
  · exact targetAt_gap (by omega)
  rcases Nat.lt_or_ge a 0x200000 with hbank | hbank
  · rw [targetAt_bank0 hmem hbank]
    exact bankTarget_gap _ (by omega)
  · rw [targetAt_bank1 hbank (by omega)]
    exact bankTarget_gap _ (by omega)

/-- The field tables and the names of both banks. -/
def TableOffset (a : Nat) : Prop :=
  (0x100000 ≤ a ∧ a < 0x108000) ∨ (0x110000 ≤ a ∧ a < 0x150000) ∨
    (0x200000 ≤ a ∧ a < 0x208000) ∨ (0x210000 ≤ a ∧ a < 0x250000)

/-- The targets a host write never changes anything through, registers apart (20_memory.md R106, R108). -/
def Target.ignoresWrites : Target → Bool
  | .ftab _ _ _ | .name _ _ _ | .unmapped => true
  | .reg _ | .wbuf _ | .bstr _ | .stxt _ | .present _ _ | .val _ _ => false

theorem writeTarget_of_ignoresWrites (s : State) {t : Target} (v : Word) (h : t.ignoresWrites = true) :
    s.writeTarget t v = s := by
  cases t with
  | ftab b f w => rfl
  | name b f j => rfl
  | unmapped => rfl
  | _ => cases h

theorem targetAt_ignoresWrites_of_tableOffset {a : Nat} (h : TableOffset a) : (targetAt a).ignoresWrites = true := by
  rcases h with ⟨hlo, hhi⟩ | ⟨hlo, hhi⟩ | ⟨hlo, hhi⟩ | ⟨hlo, hhi⟩
  · rw [targetAt_bank0 hlo (by omega), bankTarget_ftab _ (by omega), Target.ignoresWrites]
  · rw [targetAt_bank0 (by omega) (by omega), bankTarget_name _ (by omega) (by omega), Target.ignoresWrites]
  · rw [targetAt_bank1 hlo (by omega), bankTarget_ftab _ (by omega), Target.ignoresWrites]
  · rw [targetAt_bank1 (by omega) (by omega), bankTarget_name _ (by omega) (by omega), Target.ignoresWrites]

/-- Settles O59: an address that ignores writes is unmapped or in a read-only table, and an unmapped one reads 0. -/
theorem readOnlyAndUnmappedWritesAreIgnored : Obligations.ReadOnlyAndUnmappedWritesAreIgnored := by
  refine ⟨fun s a v rest ha h4 hi hrange => ?_, fun s a _ hrange => ?_⟩
  · have hsplit : UnmappedOffset a ∨ TableOffset a := by unfold UnmappedOffset TableOffset; omega
    have hignored : (targetAt a).ignoresWrites = true := by
      rcases hsplit with hunmapped | htable
      · rw [targetAt_of_unmappedOffset hunmapped, Target.ignoresWrites]
      · exact targetAt_ignoresWrites_of_tableOffset htable
    rw [step_hostWrite ha h4 (by unfold Config.windowSize; omega) hi, writeTarget_of_ignoresWrites _ v hignored]
  · rw [targetAt_of_unmappedOffset hrange, State.readTarget]

end Sys2Proof.Machine
end

section
/-! The statements of 30_encoding.md: the decoder and the encoder as one equivalence, the words that spell no command, and
what a command may write. -/

namespace Sys2Proof

/-! ## The fields of a command word as parts of its number (30_encoding.md R140) -/

theorem opField_toNat (c : Word) : (opField c).toNat = c.toNat % 256 := by
  simp [opField]

theorem bankField_number (c : Word) : (bankField c).number = c.toNat / 256 % 2 := by
  have hbit : c.getLsbD 8 = decide (c.toNat / 256 % 2 = 1) := by
    rw [← BitVec.testBit_toNat, Nat.testBit_eq_decide_div_mod_eq]
  by_cases hb : c.toNat / 256 % 2 = 1
  · rw [bankField, hbit, decide_eq_true hb, if_pos rfl, Bank.number, hb]
  · rw [bankField, hbit, decide_eq_false hb, if_neg Bool.false_ne_true, Bank.number]
    omega

theorem widthField_eq (c : Word) : widthField c = c.toNat / 65536 % 256 := by
  simp [widthField, Nat.shiftRight_eq_div_pow]

theorem reservedClear_iff (c : Word) :
    reservedClear c = true ↔ c.toNat / 512 % 128 = 0 ∧ c.toNat / 16777216 % 256 = 0 := by
  simp [reservedClear, ← BitVec.toNat_inj, Nat.shiftRight_eq_div_pow]

/-! ## The operands of a command -/

theorem Bank.number_le (b : Bank) : b.number ≤ 1 := by cases b <;> decide

theorem Bank.number_inj {b c : Bank} : b.number = c.number ↔ b = c := by cases b <;> cases c <;> decide

theorem Instr.bankOperand_le (i : Instr) : i.bankOperand ≤ 1 := by
  cases i with
  | parse b | decode b | encode b => exact b.number_le
  | _ => exact Nat.zero_le 1

/-- The operand is the bank `b` when the command takes `b`, or takes none and `b` is bank 0. -/
theorem Instr.bankOperand_eq_number_iff {i : Instr} {b : Bank} :
    i.bankOperand = b.number ↔
      (i.takesBank = true → i.bankOperand = b.number) ∧ ¬ (i.takesBank = false ∧ b = .bank1) := by
  cases i with
  | parse c | decode c | encode c => simp [Instr.takesBank]
  | _ => cases b <;> simp [Instr.takesBank, Instr.bankOperand, Bank.number]

/-- The operand is the width `w` when the command takes `w`, or takes none and `w` is 0. -/
theorem Instr.widthOperand_eq_iff {i : Instr} {w : Nat} :
    i.widthOperand = w ↔ (i.takesWidth = true → i.widthOperand = w) ∧ ¬ (i.takesWidth = false ∧ w ≠ 0) := by
  cases i with
  | swdec v | swenc v => simp [Instr.takesWidth]
  | _ => simp [Instr.takesWidth, Instr.widthOperand, eq_comm]

/-- A command has a word when its width operand fits the field `W`. -/
theorem Instr.wellFormed_iff (i : Instr) : i.wellFormed = true ↔ i.widthOperand < 256 := by
  cases i with
  | swdec w | swenc w => simp [Instr.wellFormed, Instr.widthOperand, widthFits, Nat.lt_succ_iff]
  | _ => simp [Instr.wellFormed, Instr.widthOperand]

/-! ## The decoder and the encoder on those fields -/

/-- The opcode map names the command with that opcode, and hands it the operands it takes (30_encoding.md R142). -/
theorem instrOfOp_eq_some_iff {op : BitVec 8} {b : Bank} {w : Nat} {i : Instr} :
    instrOfOp op b w = some i ↔
      i.opcode = op ∧ (i.takesBank = true → i.bankOperand = b.number) ∧ (i.takesWidth = true → i.widthOperand = w) := by
  constructor
  · intro h
    unfold instrOfOp at h
    split at h <;> cases h <;>
      simp [Instr.opcode, Instr.takesBank, Instr.bankOperand, Instr.takesWidth, Instr.widthOperand]
  · rintro ⟨rfl, hbank, hwidth⟩
    cases i with
    | parse c | decode c | encode c => rw [Bank.number_inj.1 (hbank rfl)]; rfl
    | swdec v | swenc v => rw [← hwidth rfl]; rfl
    | _ => rfl

/-- The checks of 30_encoding.md R140: a word decodes when its opcode names the command and none of the three fails. -/
theorem decodeWord_eq_ok_iff_checks {c : Word} {i : Instr} :
    decodeWord c = .ok i ↔
      instrOfOp (opField c) (bankField c) (widthField c) = some i ∧ reservedClear c = true ∧
        ¬ (i.takesBank = false ∧ bankField c = .bank1) ∧ ¬ (i.takesWidth = false ∧ widthField c ≠ 0) := by
  constructor
  · intro h
    unfold decodeWord at h
    split at h
    · cases h
    · split_ifs at h with hclear hbank hwidth
      cases h
      exact ⟨‹_›, by simpa using hclear, by simpa using hbank, by simpa using hwidth⟩
  · rintro ⟨hi, hclear, hbank, hwidth⟩
    simp [decodeWord, hi, hclear, hbank, hwidth]

/-- A word decodes to a command when the word's fields are the command's opcode and operands and its other bits are 0. -/
theorem decodeWord_eq_ok_iff_fields {c : Word} {i : Instr} :
    decodeWord c = .ok i ↔
      i.opcode = opField c ∧ i.bankOperand = (bankField c).number ∧ i.widthOperand = widthField c ∧
        reservedClear c = true := by
  rw [decodeWord_eq_ok_iff_checks, instrOfOp_eq_some_iff, Instr.bankOperand_eq_number_iff, Instr.widthOperand_eq_iff]
  tauto

/-- The command word is the sum of its fields at their places, since none reaches into the next. -/
theorem encode_toNat {i : Instr} (h : i.wellFormed = true) :
    (encode i).toNat = i.opcode.toNat + 256 * i.bankOperand + 65536 * i.widthOperand := by
  have hop := i.opcode.isLt
  have hbank := i.bankOperand_le
  have hwidth := (Instr.wellFormed_iff i).1 h
  have bank_or : i.opcode.toNat ||| 2 ^ 8 * i.bankOperand = 2 ^ 8 * i.bankOperand + i.opcode.toNat := by
    rw [Nat.two_pow_add_eq_or_of_lt hop, Nat.or_comm]
  have hlow : 2 ^ 8 * i.bankOperand + i.opcode.toNat < 2 ^ 16 := by omega
  have width_or : (2 ^ 8 * i.bankOperand + i.opcode.toNat) ||| 2 ^ 16 * i.widthOperand =
      2 ^ 16 * i.widthOperand + (2 ^ 8 * i.bankOperand + i.opcode.toNat) := by
    rw [Nat.two_pow_add_eq_or_of_lt hlow, Nat.or_comm]
  have hbank32 : (BitVec.ofNat 32 i.bankOperand <<< 8).toNat = 2 ^ 8 * i.bankOperand := by
    rw [BitVec.toNat_shiftLeft, BitVec.toNat_ofNat, Nat.shiftLeft_eq]; omega
  have hwidth32 : (BitVec.ofNat 32 i.widthOperand <<< 16).toNat = 2 ^ 16 * i.widthOperand := by
    rw [BitVec.toNat_shiftLeft, BitVec.toNat_ofNat, Nat.shiftLeft_eq]; omega
  have hop32 : (i.opcode.setWidth 32).toNat = i.opcode.toNat := by
    rw [BitVec.toNat_setWidth]; omega
  rw [encode, BitVec.toNat_or, BitVec.toNat_or, hop32, hbank32, hwidth32, bank_or, width_or]
  omega

/-- Decoding inverts encoding on the words that spell a command, and on no others (30_encoding.md R140, R148). -/
theorem decodeWord_eq_ok_iff {c : Word} {i : Instr} :
    decodeWord c = .ok i ↔ encode i = c ∧ i.wellFormed = true := by
  have hc := c.isLt
  have hop := i.opcode.isLt
  have hbank := i.bankOperand_le
  rw [decodeWord_eq_ok_iff_fields, reservedClear_iff, bankField_number, widthField_eq, ← BitVec.toNat_inj, opField_toNat]
  constructor
  · rintro ⟨hopcode, hb, hw, hlow, hhigh⟩
    have hwf : i.wellFormed = true := (Instr.wellFormed_iff i).2 (by omega)
    refine ⟨BitVec.eq_of_toNat_eq ?_, hwf⟩
    rw [encode_toNat hwf]
    omega
  · rintro ⟨rfl, hwf⟩
    have hwidth := (Instr.wellFormed_iff i).1 hwf
    rw [encode_toNat hwf]
    omega

/-- Settles O1: the equivalence, from the word. -/
theorem decodeOfEncode : Obligations.DecodeOfEncode :=
  fun _ hwf => decodeWord_eq_ok_iff.2 ⟨rfl, hwf⟩

/-- Settles O2: the equivalence, from the command. -/
theorem encodeOfDecode : Obligations.EncodeOfDecode :=
  fun _ _ hdecode => decodeWord_eq_ok_iff.1 hdecode

/-- Settles O3: each word is the encoding of the command the rule names. -/
theorem specExampleWordsDecode : Obligations.SpecExampleWordsDecode := by
  refine ⟨?_, ?_, ?_, ?_, ?_, ?_⟩ <;> exact decodeWord_eq_ok_iff.2 (by decide)

end Sys2Proof

namespace Sys2Proof.Machine

/-! ## Words that spell no command (30_encoding.md R147) -/

theorem engineTurn_rejected {s : State} {c : Word} {e : DecodeReject} (h : s.inflight = some c)
    (hd : decodeWord c = .error e) : engineTurn s = .next (s.errDone 6#4 0#4 0#32) := by
  simp [engineTurn, State.fetch, h, hd]

/-- The decoder refuses a word that is no command's encoding. -/
theorem decodeWord_error_of_not_encoding {c : Word} (h : ∀ i : Instr, i.wellFormed = true → encode i ≠ c) :
    ∃ e, decodeWord c = .error e := by
  cases hd : decodeWord c with
  | error e => exact ⟨e, rfl⟩
  | ok i =>
    obtain ⟨hword, hwf⟩ := decodeWord_eq_ok_iff.1 hd
    exact absurd hword (h i hwf)

/-- Settles O4: both kinds of engine turn take the decoder's refusal as IllegalCommand. -/
theorem illegalWordsRaiseIllegalCommand : Obligations.IllegalWordsRaiseIllegalCommand := by
  intro s c hc hno
  obtain ⟨e, hd⟩ := decodeWord_error_of_not_encoding hno
  refine ⟨fun ha => ?_, fun rest ha => ?_⟩
  · rw [step_agenda_nil ha, engineTurn_rejected hc hd]
  · exact (step_agenda_engine ha).trans (engineTurn_rejected hc hd)

/-! ## What each command may write (30_encoding.md R145, 10_state.md R39) -/

@[simp] theorem State.recordToString_bank (s : State) (b c : Bank) : (s.recordToString b).bank c = s.bank c := by
  cases c <;> rfl

/-- From `s` to `s'`, nothing changed in a bank that `i` does not write, nor in RES unless `i` is a read. -/
structure WritesOwn (i : Instr) (s s' : State) : Prop where
  banks : ∀ b, writesBank i ≠ some b → s'.bank b = s.bank b
  res : writesRes i = false → s'.res = s.res

/-- What a command hands to `complete` keeps to its own state when it succeeds; an error hands over no state. -/
def OutcomeWritesOwn (i : Instr) (s : State) : Except Raise State → Prop
  | .ok s' => WritesOwn i s s'
  | .error _ => True

theorem OutcomeWritesOwn.check {i : Instr} {s : State} {c : Prop} [Decidable c] {e : Raise} {r : Except Raise State}
    (hr : OutcomeWritesOwn i s r) : OutcomeWritesOwn i s (if c then .error e else r) := by
  split
  · exact trivial
  · exact hr

/-- Writes to the buffer and the string alone are any command's own. -/
theorem WritesOwn.memory {i : Instr} {s s' : State} (hbank : ∀ b, s'.bank b = s.bank b) (hres : s'.res = s.res) :
    WritesOwn i s s' := ⟨fun b _ => hbank b, fun _ => hres⟩

theorem WritesOwn.window (i : Instr) (s : State) (S : BitString) : WritesOwn i s (s.writeWindow S) :=
  .memory (s.writeWindow_bank S) (s.writeWindow_res S)

theorem WritesOwn.result {i : Instr} (s : State) (v : Word) (h : writesRes i = true) : WritesOwn i s { s with res := v } :=
  ⟨fun b _ => s.bank_withRes v b, fun hno => absurd h (by simp [hno])⟩

/-- A write of the command's bank, after writes to the memories. -/
theorem WritesOwn.setBank {i : Instr} {s s' : State} (b : Bank) (x : BankState) (h : writesBank i = some b)
    (hown : WritesOwn i s s') : WritesOwn i s (s'.setBank b x) where
  banks c hc := by
    have hne : c ≠ b := fun hcb => hc (hcb ▸ h)
    rw [State.bank_setBank_ne s' b c x hne, hown.banks c hc]
  res hno := by rw [State.setBank_res, hown.res hno]

/-- Every command's writes are its own. -/
theorem exec_completes_writesOwn (i : Instr) (s : State) : ∃ r, exec i s = complete s r ∧ OutcomeWritesOwn i s r := by
  have string {j : Instr} : WritesOwn j s s.bufferToString := .memory s.bufferToString_bank s.bufferToString_res
  have buffer {j : Instr} (n : Nat) : WritesOwn j s (s.stringToBuffer n) :=
    .memory (s.stringToBuffer_bank n) (s.stringToBuffer_res n)
  cases i with
  | nop => exact ⟨.ok s, rfl, .memory (fun _ => rfl) rfl⟩
  | b2s => exact ⟨.ok s.bufferToString, rfl, string⟩
  | s2b => exact ⟨_, rfl, .check (buffer _)⟩
  | bitrd | u8rd | fwdec => exact ⟨_, rfl, .check (.result s _ rfl)⟩
  | swdec w =>
    refine ⟨_, rfl, ?_⟩
    split
    · exact trivial
    · exact .check (.result s _ rfl)
  | bitwr | u8wr => exact ⟨_, rfl, .check (.check (.window _ s _))⟩
  | swenc w => exact ⟨_, rfl, .check (.check (.check (.window _ s _)))⟩
  | fwenc => exact ⟨_, rfl, .check (.window _ s _)⟩
  | parse b =>
    refine ⟨_, rfl, ?_⟩
    split
    · exact trivial
    · exact .setBank b _ rfl (.memory (fun _ => rfl) rfl)
  | decode b =>
    refine ⟨_, rfl, ?_⟩
    split
    · exact trivial
    · exact .setBank b _ rfl string
  | encode b =>
    refine ⟨_, rfl, ?_⟩
    split
    · exact trivial
    · split
      · exact trivial
      · have hrecord : WritesOwn (.encode b) s ((s.recordToString b).stringToBuffer (bufferBytes (s.bank b).schema)) :=
          .memory (fun c => by simp) rfl
        exact hrecord

/-- Settles O46: a success makes the command's own writes, and an error changes only the error record. -/
theorem commandsWriteOnlyTheirOwnState : Obligations.CommandsWriteOnlyTheirOwnState := by
  intro i s t hexec
  obtain ⟨r, hr, hown⟩ := exec_completes_writesOwn i s
  rcases complete_cases (hr.symm.trans hexec) with ⟨s', rfl, rfl⟩ | ⟨e, rfl, rfl⟩
  · refine ⟨fun b hb => ?_, fun hres => ⟨?_, State.okDone_errCode s'⟩⟩
    · rw [State.okDone_bank, hown.banks b hb]
    · by_contra hno
      exact hres (hown.res (by simpa using hno))
  · exact ⟨fun b _ => State.errDone_bank s _ _ _ b, fun hres => absurd (State.errDone_res s _ _ _) hres⟩

end Sys2Proof.Machine
end

section
/-! The statements of 40_bitorder.md: B2S and S2B bit by bit, the bit and byte windows, and the round trips. -/

namespace Sys2Proof.Machine

/-! ## The two checks of the window commands (40_bitorder.md R172 to R175, 60_exceptions.md R301) -/

theorem complete_lengthCheck_pastEnd {s : State} {n : Nat} {r : Except Raise State}
    (h : s.blen.toNat < s.off.toNat + n) :
    complete s (if s.windowPastEnd n then .error raiseLength else r) = .next (s.errDone 2#4 0#4 0#32) := by
  rw [if_pos (windowPastEnd_eq_true.2 h), complete_error]
  rfl

theorem complete_lengthCheck_fits {s : State} {n : Nat} {r : Except Raise State}
    (h : s.off.toNat + n ≤ s.blen.toNat) :
    complete s (if s.windowPastEnd n then .error raiseLength else r) = complete s r := by
  simp [windowPastEnd_eq_false.2 h]

theorem complete_rangeCheck_fails {s : State} {c : Prop} [Decidable c] {r : Except Raise State} (h : c) :
    complete s (if c then .error raiseRange else r) = .next (s.errDone 3#4 0#4 0#32) := by
  rw [if_pos h, complete_error]
  rfl

theorem complete_rangeCheck_passes {s : State} {c : Prop} [Decidable c] {r : Except Raise State} (h : ¬ c) :
    complete s (if c then .error raiseRange else r) = complete s r := by
  rw [if_neg h]

/-! ## What each command answers when its checks pass -/

theorem exec_b2s (s : State) : exec .b2s s = .next s.bufferToString.okDone := rfl

theorem exec_s2b_aligned {s : State} (h : s.blen.toNat % 8 = 0) :
    exec .s2b s = .next (s.stringToBuffer (s.blen.toNat / 8)).okDone := by
  show complete s (if s.blen.toNat % 8 ≠ 0 then _ else _) = _
  rw [if_neg (by simpa using h), complete_ok]

theorem exec_s2b_misaligned {s : State} (h : s.blen.toNat % 8 ≠ 0) :
    exec .s2b s = .next (s.errDone 2#4 0#4 0#32) := by
  show complete s (if s.blen.toNat % 8 ≠ 0 then _ else _) = _
  rw [if_pos h, complete_error]
  rfl

theorem exec_bitrd_fits {s : State} (h : s.off.toNat + 1 ≤ s.blen.toNat) :
    exec .bitrd s = .next { s.okDone with res := if s.bit s.off.toNat then 1#32 else 0#32 } :=
  complete_lengthCheck_fits h

theorem exec_bitwr_legal {s : State} (h : s.off.toNat + 1 ≤ s.blen.toNat) (harg : s.arg.toNat ≤ 1) :
    exec .bitwr s = .next (s.writeWindow (lowBits 1 s.arg)).okDone :=
  (complete_lengthCheck_fits h).trans (complete_rangeCheck_passes (Nat.not_lt.2 harg))

theorem exec_u8rd_fits {s : State} (h : s.off.toNat + 8 ≤ s.blen.toNat) :
    exec .u8rd s = .next { s.okDone with res := BitVec.ofNat 32 (parseBits (rev (s.readWindow 8))) } :=
  complete_lengthCheck_fits h

theorem exec_u8wr_legal {s : State} (h : s.off.toNat + 8 ≤ s.blen.toNat) (harg : s.arg.toNat ≤ 255) :
    exec .u8wr s = .next (s.writeWindow (lowBits 8 s.arg)).okDone :=
  (complete_lengthCheck_fits h).trans (complete_rangeCheck_passes (Nat.not_lt.2 harg))

/-! ## Bits and bytes after each write -/

@[simp] theorem State.okDone_bit (s : State) (p : Nat) : s.okDone.bit p = s.bit p := rfl
@[simp] theorem State.okDone_byte (s : State) (a : Nat) : s.okDone.byte a = s.byte a := rfl

/-- B2S leaves the bits above the buffer (40_bitorder.md R170). -/
theorem bufferToString_bit_above (s : State) {p : Nat} (h : 8 * s.wlen.toNat ≤ p) :
    s.bufferToString.bit p = s.bit p := by
  rw [State.bit, State.bufferToString_bstr, storeGet_putWindow, if_neg (by simp; omega), State.bit]

/-- After S2B, bit `i` of byte `B` of WBUF is bit `8B + i` of BSTR (40_bitorder.md R171). -/
theorem stringToBuffer_byte_getLsbD (s : State) {n B i : Nat} (hB : B < n) (hi : i < 8) :
    ((s.stringToBuffer n).byte B).getLsbD i = s.bit (8 * B + i) := by
  have hbyte : (s.stringToBuffer n).byte B = (bitsToBytes (window s.bstr 0 (8 * n)) n).getD B 0#8 := by
    rw [State.byte, State.stringToBuffer_wbuf, storeGet_fill, if_pos (by simpa using hB), Nat.sub_zero]
  rw [hbyte, bitsToBytes_getLsbD _ _ _ _ hB hi, window_getD _ _ _ _ (by omega), Nat.zero_add, State.bit]

/-- S2B leaves the bytes above the string (40_bitorder.md R171). -/
theorem stringToBuffer_byte_above (s : State) {n a : Nat} (h : n ≤ a) : (s.stringToBuffer n).byte a = s.byte a := by
  rw [State.byte, State.stringToBuffer_wbuf, storeGet_fill_outside _ _ _ _ (.inr (by simpa using h)), State.byte]

theorem writeWindow_bit_inside (s : State) {S : BitString} {i : Nat} (h : i < S.length) :
    (s.writeWindow S).bit (s.off.toNat + i) = S.getD i false :=
  storeGet_fill_inside S s.bstr s.off.toNat i h

theorem writeWindow_bit_outside (s : State) {S : BitString} {p : Nat}
    (h : p < s.off.toNat ∨ s.off.toNat + S.length ≤ p) : (s.writeWindow S).bit p = s.bit p :=
  storeGet_fill_outside S s.bstr s.off.toNat p h

/-- BITWR and U8WR put bit `i` of the value at OFF + `i` (40_bitorder.md R173, R175). -/
theorem writeWindow_lowBits_bit (s : State) {n i : Nat} (v : Word) (h : i < n) :
    (s.writeWindow (lowBits n v)).bit (s.off.toNat + i) = v.getLsbD i := by
  rw [writeWindow_bit_inside s (by simpa using h), lowBits_getD n v i h]

/-- BITWR and U8WR leave the bits outside the window (40_bitorder.md R173, R175). -/
theorem writeWindow_lowBits_bit_outside (s : State) {n p : Nat} (v : Word)
    (h : p < s.off.toNat ∨ s.off.toNat + n ≤ p) : (s.writeWindow (lowBits n v)).bit p = s.bit p :=
  writeWindow_bit_outside s (by simpa using h)

/-- A window written at OFF is read back at OFF. -/
theorem readWindow_writeWindow (s : State) {n : Nat} (S : BitString) (h : S.length = n) :
    (s.writeWindow S).readWindow n = S :=
  h ▸ window_putWindow s.bstr s.off.toNat S

/-! ## Values of windows -/

/-- The byte U8RD parses is window byte 0 (00_scope.md R10, 40_bitorder.md R174). -/
theorem parseBits_readWindow_eight (s : State) : parseBits (rev (s.readWindow 8)) = wbyte s.bit s.off.toNat 0 := by
  rw [wbyte_eq_parseBits]
  rfl

/-- The numeral of the low `n` bits, reversed, is the value modulo `2 ^ n` (40_bitorder.md R175). -/
theorem parseBits_rev_lowBits {w : Nat} (n : Nat) (v : BitVec w) :
    parseBits (rev (lowBits n v)) = v.toNat % 2 ^ n := by
  apply Nat.eq_of_testBit_eq
  intro i
  rw [parseBits_rev_testBit, Nat.testBit_mod_two_pow]
  by_cases h : i < n
  · rw [lowBits_getD n v i h, decide_eq_true h, Bool.true_and, BitVec.testBit_toNat]
  · rw [List.getD_eq_default _ _ (by simpa using h), decide_eq_false h, Bool.false_and]

/-- The values BITWR takes (40_bitorder.md R173). -/
theorem word_toNat_le_one_iff (v : Word) : v.toNat ≤ 1 ↔ v = 0#32 ∨ v = 1#32 := by
  simp only [← BitVec.toNat_inj, BitVec.toNat_ofNat]
  omega

/-! ## The round trips of the whole string (40_bitorder.md R177) -/

/-- The buffer's bit string is as long as its bytes when the buffer fits its memory. -/
theorem bufferToString_blen_toNat {s : State} (hlegal : s.params.Legal) (hwlen : s.wlen.toNat ≤ s.params.nB) :
    s.bufferToString.blen.toNat = 8 * s.wlen.toNat := by
  obtain ⟨⟨_, hnB⟩, _⟩ := hlegal
  rw [State.bufferToString_blen, BitVec.toNat_ofNat]
  omega

/-- BLEN, a 32-bit word, counts windows that fit in WLEN. -/
theorem stringToBuffer_wlen_toNat (s : State) :
    (s.stringToBuffer (s.blen.toNat / 8)).wlen.toNat = s.blen.toNat / 8 := by
  have hblen := s.blen.isLt
  rw [State.stringToBuffer_wlen, BitVec.toNat_ofNat]
  omega

/-- Bytes spelled out as bits and packed again are the same bytes. -/
theorem byte_stringToBuffer_bufferToString (s : State) {a : Nat} (h : a < s.wlen.toNat) :
    (s.bufferToString.stringToBuffer s.wlen.toNat).byte a = s.byte a := by
  apply BitVec.eq_of_getLsbD_eq
  intro i hi
  rw [stringToBuffer_byte_getLsbD _ h hi, bufferToString_bit s h hi]

/-- Bits packed into bytes and spelled out again are the same bits. -/
theorem bit_bufferToString_stringToBuffer (s : State) {p : Nat} (h : p / 8 < s.blen.toNat / 8) :
    (s.stringToBuffer (s.blen.toNat / 8)).bufferToString.bit p = s.bit p := by
  have hmod : p % 8 < 8 := Nat.mod_lt _ (by decide)
  have hbit := bufferToString_bit (s.stringToBuffer (s.blen.toNat / 8))
    (by rwa [stringToBuffer_wlen_toNat]) hmod
  rwa [stringToBuffer_byte_getLsbD s h hmod, Nat.div_add_mod] at hbit

/-! ## The statements -/

/-- Settles O9: B2S is `bufferToString`, whose bits inside and above the buffer are known. -/
theorem b2sWritesTheBitString : Obligations.B2sWritesTheBitString :=
  ⟨rfl, fun s => ⟨_, exec_b2s s, rfl, fun _ _ hB hi => bufferToString_bit s hB hi,
    fun _ hp => bufferToString_bit_above s hp⟩⟩

/-- Settles O10: on a byte boundary S2B is `stringToBuffer`, whose bytes inside and above the string are known. -/
theorem s2bWritesTheBytes : Obligations.S2bWritesTheBytes := by
  refine ⟨rfl, fun s => exec_s2b_misaligned, fun s haligned => ?_⟩
  refine ⟨_, exec_s2b_aligned haligned, rfl, fun B i hB hi => ?_, fun a ha => ?_, fun hblen => ?_⟩
  · exact stringToBuffer_byte_getLsbD s hB hi
  · exact stringToBuffer_byte_above s ha
  · rw [State.okDone_wlen, stringToBuffer_wlen_toNat]
    omega

/-- Settles O11: each command after the other keeps the length, and undoes the other's packing. -/
theorem b2sAndS2bAreInverse : Obligations.B2sAndS2bAreInverse := by
  refine ⟨fun s hlegal hwlen => ?_, fun s haligned => ?_⟩
  · have hblen : s.bufferToString.okDone.blen.toNat = 8 * s.wlen.toNat := bufferToString_blen_toNat hlegal hwlen
    have hcount : s.bufferToString.okDone.blen.toNat / 8 = s.wlen.toNat := by omega
    refine ⟨_, _, exec_b2s s, exec_s2b_aligned (by omega), rfl, rfl, ?_, fun a ha => ?_⟩
    · rw [hcount]
      simp
    · rw [hcount]
      exact byte_stringToBuffer_bufferToString s ha
  · refine ⟨_, _, exec_s2b_aligned haligned, exec_b2s _, rfl, rfl, ?_, fun p hp => ?_⟩
    · have hlength : 8 * (s.blen.toNat / 8) = s.blen.toNat := by omega
      rw [State.okDone_blen, State.bufferToString_blen, State.okDone_wlen, stringToBuffer_wlen_toNat, hlength]
      simp
    · exact bit_bufferToString_stringToBuffer s (by omega)

/-- Settles O12: the length check decides, and the read takes the bit at OFF. -/
theorem bitrdReadsOneBit : Obligations.BitrdReadsOneBit :=
  ⟨rfl, fun _ => complete_lengthCheck_pastEnd, fun _ => exec_bitrd_fits⟩

/-- Settles O13: the length check, the range check, then the window of one bit. -/
theorem bitwrWritesOneBit : Obligations.BitwrWritesOneBit := by
  refine ⟨rfl, fun s => complete_lengthCheck_pastEnd, fun s hfits hzero hone => ?_, fun s hfits hlegal => ?_⟩
  · have hrange : 1 < s.arg.toNat := by
      rw [← Nat.not_le, word_toNat_le_one_iff]
      exact not_or.2 ⟨hzero, hone⟩
    exact (complete_lengthCheck_fits hfits).trans (complete_rangeCheck_fails hrange)
  · refine ⟨_, exec_bitwr_legal hfits ((word_toNat_le_one_iff s.arg).2 hlegal), rfl, ?_, fun p hp => ?_⟩
    · exact writeWindow_lowBits_bit s s.arg Nat.one_pos
    · exact writeWindow_lowBits_bit_outside s s.arg (by omega)

/-- Settles O14: the length check decides, and the parsed window is the byte at OFF. -/
theorem u8rdReadsOneByte : Obligations.U8rdReadsOneByte := by
  refine ⟨rfl, fun s => complete_lengthCheck_pastEnd, fun s hfits => ⟨?_, Nat.le_of_lt_succ (wbyte_lt _ _ _)⟩⟩
  rw [exec_u8rd_fits hfits, parseBits_readWindow_eight]

/-- Settles O15: the length check, the range check, then the window of eight bits. -/
theorem u8wrWritesOneByte : Obligations.U8wrWritesOneByte := by
  refine ⟨rfl, fun s => complete_lengthCheck_pastEnd, fun s hfits hrange => ?_, fun s hfits hlegal => ?_⟩
  · exact (complete_lengthCheck_fits hfits).trans (complete_rangeCheck_fails hrange)
  · refine ⟨_, exec_u8wr_legal hfits hlegal, rfl, fun i hi => ?_, fun p hp => ?_⟩
    · exact writeWindow_lowBits_bit s s.arg hi
    · exact writeWindow_lowBits_bit_outside s s.arg hp

/-- Settles O16: the read finds the window the write left, and a legal ARG is the value of its low bits. -/
theorem windowWriteThenReadGivesArg : Obligations.WindowWriteThenReadGivesArg := by
  refine ⟨fun s hfits hlegal => ?_, fun s hfits hlegal => ?_⟩
  · refine ⟨_, _, exec_bitwr_legal hfits ((word_toNat_le_one_iff s.arg).2 hlegal), exec_bitrd_fits hfits, rfl, ?_⟩
    have hbit : (s.writeWindow (lowBits 1 s.arg)).bit s.off.toNat = s.arg.getLsbD 0 :=
      writeWindow_lowBits_bit s s.arg Nat.one_pos
    have hword : (if s.arg.getLsbD 0 then 1#32 else 0#32) = s.arg := by
      rcases hlegal with harg | harg <;> rw [harg] <;> rfl
    simp only [State.okDone_off, State.writeWindow_off, State.okDone_bit, hbit, hword]
  · refine ⟨_, _, exec_u8wr_legal hfits hlegal, exec_u8rd_fits hfits, rfl, ?_⟩
    have hwindow : (s.writeWindow (lowBits 8 s.arg)).okDone.readWindow 8 = lowBits 8 s.arg :=
      readWindow_writeWindow s _ (lowBits_length 8 s.arg)
    have hbyte : s.arg.toNat % 2 ^ 8 = s.arg.toNat := Nat.mod_eq_of_lt (Nat.lt_succ_of_le hlegal)
    rw [hwindow, parseBits_rev_lowBits, hbyte]
    simp

end Sys2Proof.Machine
end

section
/-! The statements of 41_signed_word.md: the signed-word codec as big-endian two's complement, SWDEC, SWENC and their round
trip. -/

namespace Sys2Proof

/-- The command word as the number of its fields (30_encoding.md R148). -/
theorem encode_eq_ofNat {i : Instr} (h : i.wellFormed = true) :
    encode i = BitVec.ofNat 32 (i.opcode.toNat + 256 * i.bankOperand + 65536 * i.widthOperand) := by
  rw [← encode_toNat h, BitVec.ofNat_toNat, BitVec.setWidth_eq]

end Sys2Proof

namespace Sys2Proof.Machine

/-! ## Bit positions in big-endian order (00_scope.md R10) -/

/-- The window position of value bit `p` in a big-endian window of `n` bits, and the value bit of window position `p`: the
order of the bytes is reversed, the order inside a byte is kept. -/
def bePos (n p : Nat) : Nat := n - 8 - 8 * (p / 8) + p % 8

theorem beBit_eq (n : Nat) (u : Word) (p : Nat) : beBit n u p = u.getLsbD (bePos n p) := rfl

theorem bePos_lt {n p : Nat} (hn : 8 ∣ n) (hp : p < n) : bePos n p < n := by
  unfold bePos; omega

theorem bePos_bePos {n p : Nat} (hn : 8 ∣ n) (hp : p < n) : bePos n (bePos n p) = p := by
  unfold bePos; omega

/-! ## The big-endian value of a window (00_scope.md R10) -/

/-- Bit `i` of a window byte is the window's bit at that place. -/
theorem wbyte_testBit (bit : Nat → Bool) (o k : Nat) {i : Nat} (h : i < 8) :
    (wbyte bit o k).testBit i = bit (o + 8 * k + i) := by
  rw [wbyte_eq_parseBits, parseBits_rev_testBit]
  simp [List.getD_eq_getElem?_getD, h]

/-- One more byte shifts the bytes before it up by one place. -/
theorem beRead_succ (bit : Nat → Bool) (o m : Nat) :
    beRead bit o (8 * (m + 1)) = 2 ^ 8 * beRead bit o (8 * m) + wbyte bit o m := by
  have shifted : ∀ k ∈ List.range m,
      wbyte bit o k * 2 ^ (8 * (m + 1) - 8 - 8 * k) = 2 ^ 8 * (wbyte bit o k * 2 ^ (8 * m - 8 - 8 * k)) := by
    intro k hk
    have hk : k < m := List.mem_range.1 hk
    have hexp : 8 * (m + 1) - 8 - 8 * k = 8 + (8 * m - 8 - 8 * k) := by omega
    rw [hexp, Nat.pow_add, Nat.mul_left_comm]
  have hlast : 8 * (m + 1) - 8 - 8 * m = 0 := by omega
  simp only [beRead, Nat.mul_div_cancel_left _ (by decide : 0 < 8), List.range_succ, List.map_append, List.sum_append,
    List.map_congr_left shifted, List.sum_map_mul_left]
  simp [hlast]

/-- Bit `i` of the big-endian value is the window's bit at `bePos`. -/
theorem beRead_testBit (bit : Nat → Bool) (o : Nat) {n i : Nat} (hn : 8 ∣ n) (hi : i < n) :
    (beRead bit o n).testBit i = bit (o + bePos n i) := by
  obtain ⟨m, rfl⟩ := hn
  induction m generalizing i with
  | zero => omega
  | succ m ih =>
    rw [beRead_succ, Nat.testBit_two_pow_mul_add _ (wbyte_lt bit o m)]
    by_cases hlow : i < 8
    · have hpos : o + bePos (8 * (m + 1)) i = o + 8 * m + i := by unfold bePos; omega
      rw [if_pos hlow, wbyte_testBit bit o m hlow, hpos]
    · have hpos : bePos (8 * (m + 1)) i = bePos (8 * m) (i - 8) := by unfold bePos; omega
      rw [if_neg hlow, ih (by omega), hpos]

theorem beRead_16 (bit : Nat → Bool) (o : Nat) : beRead bit o 16 = 2 ^ 8 * wbyte bit o 0 + wbyte bit o 1 := by
  simp [beRead, List.range_succ]
  omega

theorem beRead_32 (bit : Nat → Bool) (o : Nat) :
    beRead bit o 32 =
      2 ^ 24 * wbyte bit o 0 + 2 ^ 16 * wbyte bit o 1 + 2 ^ 8 * wbyte bit o 2 + wbyte bit o 3 := by
  simp [beRead, List.range_succ]
  omega

/-! ## The pattern of a string -/

/-- The characters of a string by position. -/
def charAt (S : BitString) (p : Nat) : Bool := S.getD p false

/-- The `n`-bit word a string spells in big-endian order: be_read of the string at position 0 (00_scope.md R10). -/
def stringPattern (S : BitString) (n : Nat) : BitVec n := BitVec.ofNat n (beRead (charAt S) 0 n)

theorem stringPattern_getLsbD (S : BitString) {n i : Nat} (hn : 8 ∣ n) (hi : i < n) :
    (stringPattern S n).getLsbD i = S.getD (bePos n i) false := by
  rw [stringPattern, BitVec.getLsbD_ofNat, beRead_testBit _ 0 hn hi, decide_eq_true hi, Bool.true_and, Nat.zero_add,
    charAt]

/-- The pattern of the string in a window is be_read of the window. -/
theorem stringPattern_window (m : BitStore) (o : Nat) {n : Nat} (hn : 8 ∣ n) :
    stringPattern (window m o n) n = BitVec.ofNat n (beRead (storeGet false m) o n) := by
  apply BitVec.eq_of_getLsbD_eq
  intro i hi
  rw [stringPattern_getLsbD _ hn hi, window_getD _ _ _ _ (bePos_lt hn hi), BitVec.getLsbD_ofNat,
    beRead_testBit _ o hn hi, decide_eq_true hi, Bool.true_and]

/-! ## The numerals the source's algorithm parses (41_signed_word.md R200) -/

theorem parseBits_rev_append (A B : BitString) :
    parseBits (rev (A ++ B)) = parseBits (rev A) + 2 ^ A.length * parseBits (rev B) := by
  induction A with
  | nil => simp
  | cons a A ih =>
    rw [List.cons_append, parseBits_rev_cons, parseBits_rev_cons, ih, List.length_cons]
    ring

/-- A numeral and the numeral of its complement add up to all ones. -/
theorem parseBits_rev_complBits (S : BitString) :
    parseBits (rev (complBits S)) + parseBits (rev S) + 1 = 2 ^ S.length := by
  induction S with
  | nil => rfl
  | cons b S ih =>
    have hcons : complBits (b :: S) = (!b) :: complBits S := rfl
    have hb : (!b).toNat + b.toNat = 1 := by cases b <;> rfl
    rw [hcons, parseBits_rev_cons, parseBits_rev_cons, List.length_cons, Nat.pow_succ]
    omega

/-- Complementing before or after the bytes are put in order is the same. -/
theorem swReorder_complBits (S : BitString) (w : Nat) : swReorder (complBits S) w = complBits (swReorder S w) := by
  unfold swReorder
  split <;> simp [complBits, seg]

theorem swReorder_length {S : BitString} {w : Nat} (hw : w = 16 ∨ w = 32) (hS : S.length = w) :
    (swReorder S w).length = w - 1 := by
  rcases hw with rfl | rfl <;> simp [swReorder, seg, hS]

/-- A byte of a string, as the numeral of its eight characters. -/
theorem wbyte_charAt {S : BitString} {k : Nat} (h : 8 * k + 8 ≤ S.length) :
    wbyte (charAt S) 0 k = parseBits (rev (seg S (8 * k) (8 * k + 8))) := by
  rw [wbyte_eq_parseBits]
  congr 2
  apply List.ext_getElem
  · simp [seg]; omega
  · intro i hi hi'
    have hlt : 8 * k + i < S.length := by simp at hi; omega
    simp [charAt, seg, hlt]

/-- The first byte of a string: seven magnitude bits and the sign bit at position 7. -/
theorem wbyte_charAt_zero {S : BitString} (h : 8 ≤ S.length) :
    wbyte (charAt S) 0 0 = parseBits (rev (seg S 0 7)) + 2 ^ 7 * (S.getD 7 false).toNat := by
  have hsplit : seg S 0 8 = seg S 0 7 ++ [S.getD 7 false] := by
    simp [seg, List.take_add_one, List.getD_eq_getElem?_getD, List.getElem?_eq_getElem (show 7 < S.length by omega)]
  have hlen : (seg S 0 7).length = 7 := by simp [seg]; omega
  rw [wbyte_charAt (k := 0) h, hsplit, parseBits_rev_append, hlen, parseBits_rev_cons]
  simp

/-- The reassembled magnitude with the sign bit above it is the big-endian value (41_signed_word.md R200, R201). -/
theorem swReorder_value {S : BitString} {w : Nat} (hw : w = 16 ∨ w = 32) (hS : S.length = w) :
    parseBits (rev (swReorder S w)) + 2 ^ (w - 1) * (S.getD 7 false).toNat = beRead (charAt S) 0 w := by
  have segLength {a b : Nat} (hb : b ≤ w) : (seg S a b).length = b - a := by simp [seg]; omega
  have first := wbyte_charAt_zero (by omega : 8 ≤ S.length)
  rcases hw with rfl | rfl
  · have second : wbyte (charAt S) 0 1 = parseBits (rev (seg S 8 16)) := wbyte_charAt (by omega)
    rw [beRead_16, first, second, swReorder, if_pos rfl, parseBits_rev_append, segLength (by decide)]
    omega
  · have second : wbyte (charAt S) 0 1 = parseBits (rev (seg S 8 16)) := wbyte_charAt (by omega)
    have third : wbyte (charAt S) 0 2 = parseBits (rev (seg S 16 24)) := wbyte_charAt (by omega)
    have fourth : wbyte (charAt S) 0 3 = parseBits (rev (seg S 24 32)) := wbyte_charAt (by omega)
    rw [beRead_32, first, second, third, fourth, swReorder, if_neg (by decide)]
    simp only [parseBits_rev_append, List.length_append, segLength (show 32 ≤ 32 by decide),
      segLength (show 24 ≤ 32 by decide), segLength (show 16 ≤ 32 by decide)]
    omega

/-! ## The codec as two's complement (41_signed_word.md R201, R203) -/

theorem widthSupported_iff {w : Nat} : widthSupported w = true ↔ w = 16 ∨ w = 32 := by
  simp [widthSupported]

/-- Two's complement of a pattern with its sign bit apart. -/
theorem toInt_ofNat_sign {w m : Nat} (hw : 0 < w) (hm : m < 2 ^ (w - 1)) (neg : Bool) :
    (BitVec.ofNat w (m + 2 ^ (w - 1) * neg.toNat)).toInt = if neg then (m : Int) - (2 ^ (w - 1) : Nat) else m := by
  have hpow : 2 ^ w = 2 * 2 ^ (w - 1) := by rw [← Nat.pow_succ']; congr 1; omega
  have hlt : m + 2 ^ (w - 1) * neg.toNat < 2 ^ w := by cases neg <;> simp <;> omega
  rw [BitVec.toInt_eq_toNat_cond, BitVec.toNat_ofNat, Nat.mod_eq_of_lt hlt, hpow]
  cases neg <;> simp <;> omega

/-- The source's algorithm reads a window as a big-endian two's-complement number (41_signed_word.md R201). -/
theorem swdec_eq {S : BitString} {w : Nat} (hw : w = 16 ∨ w = 32) (hS : S.length = w) :
    swdec S w = some (stringPattern S w).toInt := by
  have hlen := swReorder_length hw hS
  have hcompl := parseBits_rev_complBits (swReorder S w)
  have hlt := parseBits_rev_lt (swReorder S w)
  rw [hlen] at hcompl hlt
  rw [stringPattern, ← swReorder_value hw hS, toInt_ofNat_sign (by omega) hlt, swdec, if_pos (widthSupported_iff.2 hw)]
  cases S.getD 7 false with
  | false => rfl
  | true =>
    simp only [if_true, swReorder_complBits]
    congr 1
    omega

theorem swdec_unsupported {w : Nat} (S : BitString) (h16 : w ≠ 16) (h32 : w ≠ 32) : swdec S w = none := by
  simp [swdec, widthSupported_iff, h16, h32]

theorem swenc_length {w : Nat} (u : Word) (hw : w = 16 ∨ w = 32) : (swenc u w).length = w :=
  swenc_length_of_supported u (widthSupported_iff.2 hw)

/-- SWENC's window is the value's bytes from the most significant down. -/
theorem swenc_eq_bytesToBits {w : Nat} (u : Word) (hw : w = 16 ∨ w = 32) :
    swenc u w = bytesToBits ((List.range (w / 8)).map fun k => u.extractLsb' (w - 8 - 8 * k) 8) := by
  rcases hw with rfl | rfl <;> simp [swenc, bytesToBits_cons, List.range_succ]

/-- SWENC's window is be_write of the value (00_scope.md R10). -/
theorem swenc_getD {w p : Nat} (u : Word) (hw : w = 16 ∨ w = 32) (hp : p < w) :
    (swenc u w).getD p false = beBit w u p := by
  have hbyte : p / 8 < w / 8 := by omega
  have hmod : p % 8 < 8 := Nat.mod_lt _ (by decide)
  have h := bytesToBits_getD ((List.range (w / 8)).map fun k => u.extractLsb' (w - 8 - 8 * k) 8) (p / 8) (p % 8)
    (by simpa using hbyte) hmod
  rw [← swenc_eq_bytesToBits u hw, Nat.div_add_mod] at h
  simpa [List.getD_eq_getElem?_getD, hbyte, hmod, beBit] using h

/-- The pattern of the window SWENC writes is the value's low bits. -/
theorem stringPattern_swenc {w : Nat} (u : Word) (hw : w = 16 ∨ w = 32) :
    stringPattern (swenc u w) w = u.setWidth w := by
  have hdvd : 8 ∣ w := by omega
  apply BitVec.eq_of_getLsbD_eq
  intro i hi
  rw [stringPattern_getLsbD _ hdvd hi, swenc_getD u hw (bePos_lt hdvd hi), beBit_eq, bePos_bePos hdvd hi,
    BitVec.getLsbD_setWidth, decide_eq_true hi, Bool.true_and]

theorem swdec_swenc {w : Nat} (u : Word) (hw : w = 16 ∨ w = 32) :
    swdec (swenc u w) w = some (u.setWidth w).toInt := by
  rw [swdec_eq hw (swenc_length u hw), stringPattern_swenc u hw]

/-- A window of a supported width is determined by the number it spells. -/
theorem swdec_injective {S T : BitString} {w : Nat} (hw : w = 16 ∨ w = 32) (hS : S.length = w) (hT : T.length = w)
    (h : swdec S w = swdec T w) : S = T := by
  have hdvd : 8 ∣ w := by omega
  rw [swdec_eq hw hS, swdec_eq hw hT, Option.some_inj, BitVec.toInt_inj] at h
  refine List.ext_getElem (hS.trans hT.symm) fun p hpS hpT => ?_
  have hp : p < w := hS ▸ hpS
  have hbit := congrArg (fun v => v.getLsbD (bePos w p)) h
  simp only [stringPattern_getLsbD _ hdvd (bePos_lt hdvd hp), bePos_bePos hdvd hp] at hbit
  simpa [List.getD_eq_getElem?_getD, hpS, hpT] using hbit

/-! ## What SWDEC and SWENC answer (41_signed_word.md R202, R204) -/

theorem readWindow_length (s : State) (n : Nat) : (s.readWindow n).length = n := window_length _ _ _

theorem exec_swdec_unsupported (s : State) {w : Nat} (h16 : w ≠ 16) (h32 : w ≠ 32) :
    exec (.swdec w) s = .next (s.errDone 5#4 0#4 0#32) := by
  show execSwdec w s = _
  rw [execSwdec, swdec_unsupported _ h16 h32]
  rfl

/-- At a supported width only the length check is left, and the result is the window's signed value. -/
theorem exec_swdec_supported (s : State) {w : Nat} (hw : w = 16 ∨ w = 32) :
    exec (.swdec w) s = complete s (if s.windowPastEnd w then .error raiseLength else
      .ok { s with res := BitVec.ofInt 32 (stringPattern (s.readWindow w) w).toInt }) := by
  show execSwdec w s = _
  rw [execSwdec, swdec_eq hw (readWindow_length s w)]

theorem exec_swdec_fits {s : State} {w : Nat} (hw : w = 16 ∨ w = 32) (hfits : s.off.toNat + w ≤ s.blen.toNat) :
    exec (.swdec w) s =
      .next { s.okDone with res := BitVec.ofInt 32 (stringPattern (s.readWindow w) w).toInt } :=
  (exec_swdec_supported s hw).trans (complete_lengthCheck_fits hfits)

theorem exec_swenc_unsupported (s : State) {w : Nat} (h16 : w ≠ 16) (h32 : w ≠ 32) :
    exec (.swenc w) s = .next (s.errDone 5#4 0#4 0#32) := by
  show execSwenc w s = _
  rw [execSwenc, if_pos (by simp [widthSupported, h16, h32])]
  rfl

/-- At a supported width the length check comes before the range check. -/
theorem exec_swenc_supported (s : State) {w : Nat} (hw : w = 16 ∨ w = 32) :
    exec (.swenc w) s = complete s (if s.windowPastEnd w then .error raiseLength else
      if !fitsSigned w s.arg then .error raiseRange else .ok (s.writeWindow (swenc s.arg w))) := by
  show execSwenc w s = _
  rw [execSwenc, if_neg (by simp [widthSupported_iff.2 hw])]

theorem fitsSigned_iff {w : Nat} {v : Word} :
    fitsSigned w v = true ↔ -(2 ^ (w - 1) : Int) ≤ v.toInt ∧ v.toInt < 2 ^ (w - 1) := by
  simp [fitsSigned]

/-- At width 32 every ARG fits (41_signed_word.md R204). -/
theorem fitsSigned_32 (v : Word) : fitsSigned 32 v = true :=
  fitsSigned_iff.2 ⟨v.le_toInt, v.toInt_lt⟩

theorem exec_swenc_fits {s : State} {w : Nat} (hw : w = 16 ∨ w = 32) (hfits : s.off.toNat + w ≤ s.blen.toNat)
    (hrange : fitsSigned w s.arg = true) : exec (.swenc w) s = .next (s.writeWindow (swenc s.arg w)).okDone := by
  rw [exec_swenc_supported s hw, complete_lengthCheck_fits hfits, complete_rangeCheck_passes (by simp [hrange]),
    complete_ok]

/-- A value that fits in `w` signed bits is the signed value of its low `w` bits. -/
theorem toInt_setWidth_of_fitsSigned {w : Nat} {v : Word} (hpos : 0 < w) (h32 : w ≤ 32) (h : fitsSigned w v = true) :
    (v.setWidth w).toInt = v.toInt := by
  obtain ⟨hlow, hhigh⟩ := fitsSigned_iff.1 h
  have hpattern : v.setWidth w = BitVec.ofInt w v.toInt := by
    rw [← BitVec.toInt_inj, BitVec.toInt_setWidth, BitVec.toInt_ofInt, BitVec.toInt_eq_toNat_bmod,
      Int.bmod_bmod_of_dvd (Nat.pow_dvd_pow 2 h32)]
  rw [hpattern, BitVec.toInt_ofInt_eq_self hpos hlow hhigh]

/-! ## The statements -/

/-- Settles O17: SWENC's window decodes to the value, and decoding is injective on the windows of a width. -/
theorem swencIsTheInverseOfSwdec : Obligations.SwencIsTheInverseOfSwdec :=
  fun u _ hw => ⟨swenc_length u hw, fun _ hp => swenc_getD u hw hp, swdec_swenc u hw,
    fun _ hS hdec => swdec_injective hw hS (swenc_length u hw) (hdec.trans (swdec_swenc u hw).symm)⟩

/-- Settles O18: the width check, the length check, then the window's signed value. -/
theorem swdecDecodesTheWindow : Obligations.SwdecDecodesTheWindow := by
  refine ⟨fun w hw => ?_, fun s w => exec_swdec_unsupported s, fun s w hw hpast => ?_, fun s w hw hfits => ?_⟩
  · exact encode_eq_ofNat ((Instr.wellFormed_iff _).2 (Nat.lt_succ_of_le hw))
  · rw [exec_swdec_supported s hw, complete_lengthCheck_pastEnd hpast]
  · refine ⟨_, swdec_eq hw (window_length _ _ _), ?_, exec_swdec_fits hw hfits⟩
    exact congrArg BitVec.toInt (stringPattern_window s.bstr s.off.toNat (by omega))

/-- Settles O19: the width, length and range checks, then the window whose bits are be_write of ARG. -/
theorem swencWritesTheWindow : Obligations.SwencWritesTheWindow := by
  refine ⟨fun w hw => ?_, fun s w => exec_swenc_unsupported s, fun s w hw hpast => ?_, fun s hfits hrange => ?_,
    fun s w hlegal hfits => ?_⟩
  · exact encode_eq_ofNat ((Instr.wellFormed_iff _).2 (Nat.lt_succ_of_le hw))
  · rw [exec_swenc_supported s hw, complete_lengthCheck_pastEnd hpast]
  · have hrange : ¬ fitsSigned 16 s.arg = true := by rw [fitsSigned_iff]; omega
    rw [exec_swenc_supported s (.inl rfl), complete_lengthCheck_fits hfits,
      complete_rangeCheck_fails (by simpa using hrange)]
  · have hw : w = 16 ∨ w = 32 := hlegal.imp_left And.left
    have hrange : fitsSigned w s.arg = true := by
      rcases hlegal with ⟨rfl, hlow, hhigh⟩ | rfl
      · exact fitsSigned_iff.2 (by omega)
      · exact fitsSigned_32 s.arg
    have hlen := swenc_length s.arg hw
    refine ⟨_, exec_swenc_fits hw hfits hrange, rfl, fun p hp => ?_, fun p hp => ?_⟩
    · rw [State.okDone_bit, writeWindow_bit_inside s (hlen.symm ▸ hp), swenc_getD s.arg hw hp]
    · rw [State.okDone_bit, writeWindow_bit_outside s (hlen.symm ▸ hp)]

/-- Settles O20: the window SWENC leaves holds the pattern of a value that fits, and SWDEC reads it as that value. -/
theorem swencThenSwdecGivesTheValue : Obligations.SwencThenSwdecGivesTheValue := by
  intro s w v hw hlow hhigh harg hfits
  have hword : -(2 ^ (32 - 1) : Int) ≤ v ∧ v < 2 ^ (32 - 1) := by rcases hw with rfl | rfl <;> omega
  have hargInt : s.arg.toInt = v := harg ▸ BitVec.toInt_ofInt_eq_self (by decide) hword.1 hword.2
  have hrange : fitsSigned w s.arg = true := fitsSigned_iff.2 (hargInt.symm ▸ ⟨hlow, hhigh⟩)
  refine ⟨_, _, exec_swenc_fits hw hfits hrange, exec_swdec_fits hw hfits, rfl, ?_⟩
  have hwindow : (s.writeWindow (swenc s.arg w)).okDone.readWindow w = swenc s.arg w :=
    readWindow_writeWindow s _ (swenc_length s.arg hw)
  rw [hwindow, stringPattern_swenc s.arg hw, toInt_setWidth_of_fitsSigned (by omega) (by omega) hrange,
    BitVec.ofInt_toInt, hargInt]

end Sys2Proof.Machine
end

section
/-! The statements of 42_float_word.md: the float-word codec as a big-endian copy of the pattern, FWDEC, FWENC and their
round trip. -/

namespace Sys2Proof.Machine

/-! ## The codec as a copy of the pattern (42_float_word.md R221, R223) -/

/-- Byte `k` of the number the source's algorithm parses is byte `k` of the string (42_float_word.md R220). -/
theorem wordOfBits_byte (S : BitString) {k : Nat} (hk : k < 4) :
    ((wordOfBits S).extractLsb' (8 * k) 8).toNat = wbyte (charAt S) 0 k := by
  have hbyte : (wordOfBits S).extractLsb' (8 * k) 8 = BitVec.ofNat 8 (wbyte (charAt S) 0 k) := by
    apply BitVec.eq_of_getLsbD_eq
    intro i hi
    rw [BitVec.getLsbD_extractLsb', wordOfBits_getLsbD S (8 * k + i) (by omega), BitVec.getLsbD_ofNat,
      wbyte_testBit _ _ _ hi, Nat.zero_add, charAt]
  rw [hbyte, BitVec.toNat_ofNat, Nat.mod_eq_of_lt (wbyte_lt _ _ _)]

/-- The source's two changes of byte order make the string's first byte the most significant: FWDEC's pattern is the one the
string spells in big-endian order (42_float_word.md R221). -/
theorem fwdec_eq_stringPattern (S : BitString) : fwdec S = stringPattern S 32 := by
  have first := wordOfBits_byte S (k := 0) (by decide)
  have second := wordOfBits_byte S (k := 1) (by decide)
  have third := wordOfBits_byte S (k := 2) (by decide)
  have fourth := wordOfBits_byte S (k := 3) (by decide)
  simp only [fwdec, stringPattern]
  rw [← wordOfBits, first, second, third, fourth, beRead_32]
  congr 1
  omega

/-- FWENC's window is be_write of the pattern (00_scope.md R10). -/
theorem fwenc_getD {p : Nat} (P : Word) (hp : p < 32) : (fwenc P).getD p false = beBit 32 P p := by
  rw [← swenc_32_eq_fwenc, swenc_getD P (.inr rfl) hp]

/-- Decoding what was encoded gives every pattern back (42_float_word.md R227). -/
theorem fwdec_fwenc (P : Word) : fwdec (fwenc P) = P := by
  rw [fwdec_eq_stringPattern, ← swenc_32_eq_fwenc, stringPattern_swenc P (.inr rfl), BitVec.setWidth_eq]

/-! ## What FWDEC and FWENC answer (42_float_word.md R222, R224) -/

theorem exec_fwdec_pastEnd {s : State} (h : s.blen.toNat < s.off.toNat + 32) :
    exec .fwdec s = .next (s.errDone 2#4 0#4 0#32) :=
  complete_lengthCheck_pastEnd h

theorem exec_fwdec_fits {s : State} (h : s.off.toNat + 32 ≤ s.blen.toNat) :
    exec .fwdec s = .next { s.okDone with res := fwdec (s.readWindow 32) } :=
  complete_lengthCheck_fits h

theorem exec_fwenc_pastEnd {s : State} (h : s.blen.toNat < s.off.toNat + 32) :
    exec .fwenc s = .next (s.errDone 2#4 0#4 0#32) :=
  complete_lengthCheck_pastEnd h

theorem exec_fwenc_fits {s : State} (h : s.off.toNat + 32 ≤ s.blen.toNat) :
    exec .fwenc s = .next (s.writeWindow (fwenc s.arg)).okDone :=
  complete_lengthCheck_fits h

/-- The pattern in the window at OFF is be_read of its 32 bits (42_float_word.md R222). -/
theorem fwdec_readWindow (s : State) :
    fwdec (s.readWindow 32) = BitVec.ofNat 32 (beRead s.bit s.off.toNat 32) := by
  rw [fwdec_eq_stringPattern]
  exact stringPattern_window s.bstr s.off.toNat (by decide)

/-! ## The statements -/

/-- Settles O21: the length check decides, and the pattern of the window is its be_read. -/
theorem fwdecCopiesThePattern : Obligations.FwdecCopiesThePattern := by
  refine ⟨rfl, fun s => exec_fwdec_pastEnd, fun s hfits => ?_⟩
  rw [exec_fwdec_fits hfits, fwdec_readWindow]

/-- Settles O22: the length check decides, and the write leaves be_write of ARG in the window at OFF. -/
theorem fwencWritesThePattern : Obligations.FwencWritesThePattern := by
  refine ⟨rfl, fun s => exec_fwenc_pastEnd, fun s hfits => ?_⟩
  refine ⟨_, exec_fwenc_fits hfits, rfl, fun p hp => ?_, fun p hp => ?_⟩
  · rw [State.okDone_bit, writeWindow_bit_inside s (by simpa using hp), fwenc_getD s.arg hp]
  · rw [State.okDone_bit, writeWindow_bit_outside s (by simpa using hp)]

/-- Settles O23: the read finds the window the write left, and decoding it gives ARG back. -/
theorem fwencThenFwdecGivesThePattern : Obligations.FwencThenFwdecGivesThePattern := by
  intro s hfits
  refine ⟨_, _, exec_fwenc_fits hfits, exec_fwdec_fits hfits, rfl, ?_⟩
  have hwindow : (s.writeWindow (fwenc s.arg)).okDone.readWindow 32 = fwenc s.arg :=
    readWindow_writeWindow s _ (fwenc_length s.arg)
  rw [hwindow, fwdec_fwenc]

end Sys2Proof.Machine
end

section
/-! The statement of 43_schema.md R256: over every step, host turns included, a bank's schema changes only through a successful
PARSE into it. -/

namespace Sys2Proof.Machine

/-! ## PARSE (43_schema.md R240, R255) -/

theorem exec_parse_accepted {s : State} {acc : ParseAcc} (b : Bank) (h : parseText s.params s.schemaText = .ok acc) :
    exec (.parse b) s = .next (s.setBank b (committedBank acc)).okDone := by
  simp [exec, execParse, h]

theorem exec_parse_refused {s : State} {e : Raise} (b : Bank) (h : parseText s.params s.schemaText = .error e) :
    exec (.parse b) s = .next (s.errDone e.kind.code (BitVec.ofNat 4 e.sub) (BitVec.ofNat 32 e.info)) := by
  simp [exec, execParse, h]

/-! ## The schema under a command -/

/-- DECODE writes the values of its bank alone (44_record.md R281). -/
theorem exec_decode_schemaPart {s t : State} {b : Bank} (h : exec (.decode b) s = .next t) :
    (t.bank b).schemaPart = (s.bank b).schemaPart := by
  rcases complete_cases h with ⟨s', hok, rfl⟩ | ⟨e, -, rfl⟩
  · split at hok <;> cases hok
    simp [BankState.schemaPart]
  · simp

/-- The only commands that write a bank are PARSE and DECODE (30_encoding.md R145). -/
theorem writesBank_eq_some {i : Instr} {b : Bank} (h : writesBank i = some b) : i = .parse b ∨ i = .decode b := by
  cases i <;> cases h
  · exact .inl rfl
  · exact .inr rfl

/-- A command that changes a bank's schema is a PARSE into it that completes without error. -/
theorem exec_changes_schemaPart {i : Instr} {s t : State} {b : Bank} (hexec : exec i s = .next t)
    (hne : (t.bank b).schemaPart ≠ (s.bank b).schemaPart) : i = .parse b ∧ t.inflight = none ∧ t.errCode = 0#4 := by
  have hwrites : writesBank i = some b := by
    by_contra hno
    obtain ⟨hbanks, -⟩ := commandsWriteOnlyTheirOwnState i s t hexec
    exact hne (by rw [hbanks b hno])
  rcases writesBank_eq_some hwrites with rfl | rfl
  · refine ⟨rfl, ?_⟩
    rcases complete_cases hexec with ⟨s', -, rfl⟩ | ⟨e, -, rfl⟩
    · exact ⟨rfl, rfl⟩
    · exact absurd (by simp) hne
  · exact absurd (exec_decode_schemaPart hexec) hne

/-- So it is for the word in flight at the engine's turn; IllegalCommand leaves every bank as it was. -/
theorem engineTurn_changes_schemaPart {s t : State} {b : Bank} (h : engineTurn s = .next t)
    (hne : (t.bank b).schemaPart ≠ (s.bank b).schemaPart) :
    ∃ c, s.inflight = some c ∧ decodeWord c = .ok (.parse b) ∧ t.inflight = none ∧ t.errCode = 0#4 := by
  rcases engineTurn_cases h with ⟨-, rfl⟩ | ⟨c, i, hc, hdecode, hexec⟩ | ⟨c, e, -, -, rfl⟩
  · exact absurd rfl hne
  · obtain ⟨rfl, hdone⟩ := exec_changes_schemaPart hexec hne
    exact ⟨c, hc, hdecode, hdone⟩
  · exact absurd (by simp) hne

/-! ## The schema under a host access (20_memory.md R123) -/

@[simp] theorem State.writeReg_bank (s : State) (r : Reg) (v : Word) (b : Bank) : (s.writeReg r v).bank b = s.bank b := by
  cases r with
  | status => rw [writeReg_status]; cases b <;> rfl
  | wlen => rw [writeReg_wlen]; cases b <;> rfl
  | blen => rw [writeReg_blen]; cases b <;> rfl
  | tlen => rw [writeReg_tlen]; cases b <;> rfl
  | _ => cases b <;> rfl

/-- Replacing a bank by one with the same schema leaves the schema of every bank. -/
theorem State.setBank_schemaPart {s : State} {c : Bank} {x : BankState} (h : x.schemaPart = (s.bank c).schemaPart)
    (b : Bank) : ((s.setBank c x).bank b).schemaPart = (s.bank b).schemaPart := by
  rw [State.bank_setBank]
  split
  · next hbc => rw [h, hbc]
  · rfl

/-- A host write reaches PRESENT and VAL of a bank, never its schema. -/
theorem State.writeTarget_schemaPart (s : State) (g : Target) (v : Word) (b : Bank) :
    ((s.writeTarget g v).bank b).schemaPart = (s.bank b).schemaPart := by
  cases g with
  | reg r => rw [State.writeTarget, State.writeReg_bank]
  | present c k => exact State.setBank_schemaPart (by rfl) b
  | val c i => rw [writeTarget_val]; exact State.setBank_schemaPart (by rfl) b
  | _ => cases b <;> rfl

/-- A host access changes no schema, violations included. -/
theorem busAccess_schemaPart {s t : State} {a : Access} (h : busAccess a s = .next t) (b : Bank) :
    (t.bank b).schemaPart = (s.bank b).schemaPart := by
  obtain ⟨-, ⟨-, rfl⟩ | ⟨-, rfl⟩⟩ := busAccess_cases h
  · cases a <;> cases b <;> rfl
  · cases a with
    | read ad n => cases b <;> rfl
    | write ad n v => exact s.writeTarget_schemaPart (targetAt ad) v b

/-- Settles O47: a step is an engine's turn, where the command in flight answers for the change, or a host access, which
changes no schema. -/
theorem schemaChangesOnlyByParse : Obligations.SchemaChangesOnlyByParse := by
  intro s t b hstep hne
  rcases step_cases hstep with ⟨-, ht⟩ | ⟨rest, -, ht⟩ | ⟨a, rest, -, ht⟩
  · exact engineTurn_changes_schemaPart ht hne
  · obtain ⟨c, hc, hdone⟩ := engineTurn_changes_schemaPart ht (by rwa [State.bank_withAgenda])
    exact ⟨c, hc, hdone⟩
  · exact absurd ((busAccess_schemaPart ht b).trans (by rw [State.bank_withAgenda])) hne

end Sys2Proof.Machine
end

section
/-! The statements of 43_schema.md on the schema text: lines, tokens, the checks of a field line, the overlap mark, and what PARSE
commits. -/

namespace Sys2Proof.Machine

/-! ## Lines (43_schema.md R241) -/

theorem splitLines_lineFeed (cs : List Byte) : splitLines (0x0A#8 :: cs) = [] :: splitLines cs := by
  simp [splitLines]

/-- A byte other than a line feed goes to the front of the first line of the rest. -/
theorem splitLines_cons {c : Byte} {cs l : List Byte} {ls : List (List Byte)} (hc : c ≠ 0x0A#8)
    (hcs : splitLines cs = l :: ls) : splitLines (c :: cs) = (c :: l) :: ls := by
  rw [splitLines, if_neg hc, hcs]

theorem splitLines_eq_cons (text : List Byte) : ∃ l ls, splitLines text = l :: ls := by
  induction text with
  | nil => exact ⟨[], [], rfl⟩
  | cons c cs ih =>
    by_cases hc : c = 0x0A#8
    · exact ⟨[], splitLines cs, by rw [hc, splitLines_lineFeed]⟩
    · obtain ⟨l, ls, hcs⟩ := ih
      exact ⟨c :: l, ls, splitLines_cons hc hcs⟩

theorem splitLines_of_no_lineFeed {text : List Byte} (h : ∀ c ∈ text, c ≠ 0x0A#8) : splitLines text = [text] := by
  induction text with
  | nil => rfl
  | cons c cs ih => exact splitLines_cons (h c (by simp)) (ih fun d hd => h d (by simp [hd]))

/-- Settles O24, by induction on the text: a line feed starts a new line, any other byte joins the line it stands in. -/
theorem linesAreCutAtLineFeeds : Obligations.LinesAreCutAtLineFeeds := by
  intro text
  induction text with
  | nil => simp [splitLines, List.intercalate]
  | cons c cs ih =>
    obtain ⟨l, ls, hcs⟩ := splitLines_eq_cons cs
    rw [hcs] at ih
    obtain ⟨hjoin, hfree, hcount⟩ := ih
    by_cases hc : c = 0x0A#8
    · subst hc
      rw [splitLines_lineFeed, hcs]
      refine ⟨?_, ?_, ?_⟩
      · rw [← hjoin]
        simp [List.intercalate]
      · simpa using hfree
      · simpa using hcount
    · rw [splitLines_cons hc hcs]
      refine ⟨?_, ?_, ?_⟩
      · rw [← hjoin]
        cases ls <;> simp [List.intercalate]
      · simpa [Ne.symm hc] using hfree
      · simpa [hc] using hcount

/-! ## Tokens (43_schema.md R242) -/

theorem isSpace_iff (c : Byte) : isSpace c = true ↔ c.toNat ∈ [0x09, 0x0B, 0x0C, 0x0D, 0x20] := by
  simp [isSpace, BitVec.toNat_eq, or_assoc]

/-- Whitespace ends the token under way, and what follows it is read afresh. -/
theorem tokensFrom_append_space (cur a b : List Byte) {c : Byte} (hc : isSpace c = true) :
    tokensFrom cur (a ++ c :: b) = tokensFrom cur a ++ tokens b := by
  induction a generalizing cur with
  | nil => by_cases hcur : cur = [] <;> simp [tokensFrom, tokens, hc, hcur]
  | cons d a ih =>
    by_cases hd : isSpace d = true
    · by_cases hcur : cur = [] <;> simp [tokensFrom, hd, hcur, ih]
    · simp [tokensFrom, hd, ih]

theorem tokens_append_space (a b : List Byte) {c : Byte} (hc : isSpace c = true) :
    tokens (a ++ c :: b) = tokens a ++ tokens b := tokensFrom_append_space [] a b hc

theorem tokens_of_run {run : List Byte} (hne : run ≠ []) (h : ∀ c ∈ run, isSpace c = false) : tokens run = [run] := by
  rw [tokens, ← List.append_nil run, tokensFrom_run run [] [] h]
  simp [tokensFrom, hne]

/-- Settles O25: a run is one token, and whitespace ends the token before it. -/
theorem tokensAreMaximalRuns : Obligations.TokensAreMaximalRuns :=
  ⟨isSpace_iff, rfl, fun _ => tokens_of_run, fun a b _ => tokens_append_space a b⟩

/-! ## Offset, type and length tokens (43_schema.md R244, R246, R247) -/

theorem isDigit_iff (c : Byte) : isDigit c = true ↔ 0x30 ≤ c.toNat ∧ c.toNat ≤ 0x39 := by simp [isDigit]

theorem isBitDigit_iff (c : Byte) : isBitDigit c = true ↔ 0x30 ≤ c.toNat ∧ c.toNat ≤ 0x37 := by simp [isBitDigit]

theorem decimal_append_digit (ds : List Byte) (c : Byte) : decimal (ds ++ [c]) = 10 * decimal ds + (c.toNat - 0x30) := by
  simp [decimal]

/-- A digit run, a dot and a bit digit are an offset token. -/
theorem offsetOf_digits {ds : List Byte} {b : Byte} (hne : ds ≠ []) (hds : ∀ c ∈ ds, isDigit c = true)
    (hb : isBitDigit b = true) : offsetOf (ds ++ [0x2E#8, b]) = some (8 * decimal ds + (b.toNat - 0x30)) := by
  have hrun : (ds ++ [0x2E#8, b]).takeWhile isDigit = ds := by
    rw [List.takeWhile_append_of_pos hds]
    simp [isDigit]
  have hrest : (ds ++ [0x2E#8, b]).dropWhile isDigit = [0x2E#8, b] := by
    rw [List.dropWhile_append_of_pos hds]
    simp [isDigit]
  obtain ⟨d, ds, rfl⟩ := List.exists_cons_of_ne_nil hne
  rw [offsetOf, hrun, hrest]
  exact if_pos ⟨rfl, hb⟩

/-- No other token is one. -/
theorem offsetOf_eq_some {tok : List Byte} {v : Nat} (h : offsetOf tok = some v) :
    ∃ ds b, ds ≠ [] ∧ (∀ c ∈ ds, isDigit c = true) ∧ isBitDigit b = true ∧ tok = ds ++ [0x2E#8, b] ∧
      v = 8 * decimal ds + (b.toNat - 0x30) := by
  unfold offsetOf at h
  split at h
  · next d ds dot b hrun hrest =>
    split at h
    · next hdot =>
      obtain ⟨rfl, hb⟩ := hdot
      refine ⟨d :: ds, b, by simp, fun c hc => ?_, hb, ?_, (Option.some.inj h).symm⟩
      · exact List.mem_takeWhile_imp (hrun ▸ hc)
      · rw [← hrun, ← hrest, List.takeWhile_append_dropWhile]
    · cases h
  · cases h

theorem kindOf_token (k : FieldKind) : kindOf k.token = some k := by cases k <;> decide

theorem kindOf_eq_some_iff {tok : List Byte} {k : FieldKind} : kindOf tok = some k ↔ tok = k.token := by
  refine ⟨fun h => ?_, fun h => h ▸ kindOf_token k⟩
  exact (eq_of_beq (List.find?_some (p := fun kind : FieldKind => kind.token == tok) h)).symm

theorem kindOf_eq_none_iff {tok : List Byte} : kindOf tok = none ↔ ∀ k : FieldKind, k.token ≠ tok := by
  rw [Option.eq_none_iff_forall_ne_some]
  exact forall_congr' fun k => not_congr (kindOf_eq_some_iff.trans eq_comm)

theorem lengthOf_digits {tok : List Byte} (hne : tok ≠ []) (hds : ∀ c ∈ tok, isDigit c = true) (hpos : 1 ≤ decimal tok) :
    lengthOf tok = some (decimal tok) :=
  if_pos ⟨hne, List.all_eq_true.2 hds, by omega⟩

/-! ## One field line (43_schema.md R250) -/

theorem parseLine_blank (p : Params) (k : Nat) {line : List Byte} (acc : ParseAcc) (h : tokens line = []) :
    parseLine p k line acc = .ok acc := by
  simp [parseLine, h]

section FieldLine

variable {p : Params} {k : Nat} {line : List Byte} {acc : ParseAcc} {first : List Byte} {rest : List (List Byte)}

theorem parseLine_malformed {sub : SchemaSub} (ht : tokens line = first :: rest) (hr : readLine first rest = .error sub) :
    parseLine p k line acc = .error (raiseSchema sub k) := by
  simp [parseLine, ht, hr]

theorem parseLine_refused {l : LineFields} {sub : SchemaSub} (ht : tokens line = first :: rest)
    (hr : readLine first rest = .ok l) (hc : capacityCheck p acc l = some sub) :
    parseLine p k line acc = .error (raiseSchema sub k) := by
  simp [parseLine, ht, hr, hc]

theorem parseLine_accepted {l : LineFields} (ht : tokens line = first :: rest) (hr : readLine first rest = .ok l)
    (hc : capacityCheck p acc l = none) : parseLine p k line acc = .ok (acc.add l k) := by
  simp [parseLine, ht, hr, hc]

end FieldLine

theorem readLine_malformedOffset {first : List Byte} (rest : List (List Byte)) (hoff : offsetOf first = none) :
    readLine first rest = .error .malformedOffset := by
  simp [readLine, hoff]

theorem readLine_missingToken {first : List Byte} {rest : List (List Byte)} {off : Nat} (hoff : offsetOf first = some off)
    (hrest : rest.length < 2) : readLine first rest = .error .missingToken := by
  rcases rest with _ | ⟨name, _ | ⟨type, more⟩⟩
  · simp [readLine, hoff]
  · simp [readLine, hoff]
  · simp at hrest

theorem readLine_unknownType {first name type : List Byte} {more : List (List Byte)} (hoff : offsetOf first ≠ none)
    (htype : kindOf type = none) : readLine first (name :: type :: more) = .error .unknownType := by
  obtain ⟨off, hoff⟩ := Option.ne_none_iff_exists'.1 hoff
  simp [readLine, hoff, htype]

/-- With an offset and a type token, the tokens after the type token decide. -/
theorem readLine_typed {first name type : List Byte} {more : List (List Byte)} {off : Nat} {kind : FieldKind}
    (hoff : offsetOf first = some off) (htype : kindOf type = some kind) :
    readLine first (name :: type :: more) = (arrayLength kind more).map (LineFields.mk off name kind) := by
  simp only [readLine, hoff, htype]
  cases arrayLength kind more <;> rfl

theorem arrayLength_scalar {kind : FieldKind} (h : kind ≠ .float32Array) (more : List (List Byte)) :
    arrayLength kind more = if more = [] then .ok 0 else .error .extraTokens := by
  cases kind <;> cases more <;> simp_all [arrayLength]

theorem readLine_scalar {first name : List Byte} {off : Nat} {kind : FieldKind} (hoff : offsetOf first = some off)
    (hkind : kind ≠ .float32Array) : readLine first [name, kind.token] = .ok ⟨off, name, kind, 0⟩ := by
  rw [readLine_typed hoff (kindOf_token kind), arrayLength_scalar hkind, if_pos rfl]
  rfl

theorem readLine_array {first name len : List Byte} {off n : Nat} (hoff : offsetOf first = some off)
    (hlen : lengthOf len = some n) :
    readLine first [name, FieldKind.token .float32Array, len] = .ok ⟨off, name, .float32Array, n⟩ := by
  have hlength : arrayLength .float32Array [len] = .ok n := by simp [arrayLength, hlen]
  rw [readLine_typed hoff (kindOf_token .float32Array), hlength]
  rfl

/-- Settles O26: each token's reading is its own lemma, and a third token that is no type token fails check (c). -/
theorem offsetAndTypeTokenSyntax : Obligations.OffsetAndTypeTokenSyntax := by
  refine ⟨fun c => ⟨isDigit_iff c, isBitDigit_iff c⟩, ⟨rfl, decimal_append_digit⟩, fun tok v => ?_, fun tok k => ?_,
    kindOf_token, rfl, fun p k line acc first name type more ht hoff htype => ?_⟩
  · simp only [← isDigit_iff, ← and_assoc, ← isBitDigit_iff]
    constructor
    · intro h
      obtain ⟨ds, b, hne, hds, hb, htok, hv⟩ := offsetOf_eq_some h
      exact ⟨ds, b, ⟨⟨⟨hne, hds⟩, hb⟩, htok⟩, hv⟩
    · rintro ⟨ds, b, ⟨⟨⟨hne, hds⟩, hb⟩, rfl⟩, rfl⟩
      exact offsetOf_digits hne hds hb
  · rw [kindOf_eq_some_iff]
    cases k <;> simp [FieldKind.token]
  · refine parseLine_malformed ht (readLine_unknownType hoff (kindOf_eq_none_iff.2 fun kind => ?_))
    exact htype (kind.token, kind) (by cases kind <;> simp [FieldKind.token])

/-! ## The checks (a) to (l) as a list (43_schema.md R250) -/

/-- What the tokens of a field line say once checks (a) to (f) have passed, by position. -/
def lineFields (toks : List (List Byte)) : LineFields :=
  ⟨lineOffset toks, toks.getD 1 [], lineKind toks, lineLength toks⟩

/-- Checks (a) to (f), which look at the tokens alone. -/
def formChecks (p : Params) (acc : ParseAcc) (toks : List (List Byte)) : List Bool :=
  (lineChecks p acc.fields acc.words toks).take 6

/-- Checks (g) to (l), which look at the room that the fields before it leave. -/
def roomChecks (p : Params) (acc : ParseAcc) (toks : List (List Byte)) : List Bool :=
  (lineChecks p acc.fields acc.words toks).drop 6

theorem lineChecks_eq (p : Params) (acc : ParseAcc) (toks : List (List Byte)) :
    lineChecks p acc.fields acc.words toks = formChecks p acc toks ++ roomChecks p acc toks :=
  (List.take_append_drop 6 _).symm

/-- Where a chain of checks numbered from `n` up first fails, if it does, it answers that subcause. -/
def FirstFailing (n : Nat) (checks : List Bool) (sub : Option SchemaSub) : Prop :=
  (checks.findIdx? id).map (· + n) = sub.map SchemaSub.code

section FirstFailing

variable {n : Nat} {b : Bool} {checks : List Bool} {sub : SchemaSub} {answer : Option SchemaSub}

theorem FirstFailing.nil : FirstFailing n [] none := rfl

theorem FirstFailing.fail (hb : b = true) (hcode : sub.code = n) : FirstFailing n (b :: checks) (some sub) := by
  simp [FirstFailing, List.findIdx?_cons, hb, hcode]

theorem FirstFailing.pass (hb : b = false) (h : FirstFailing (n + 1) checks answer) : FirstFailing n (b :: checks) answer := by
  unfold FirstFailing at h ⊢
  rw [← h, hb]
  simp [List.findIdx?_cons, Function.comp_def, Nat.add_assoc, Nat.add_comm 1 n]

theorem FirstFailing.check {c : Prop} [Decidable c] (hb : b = true ↔ c) (hcode : sub.code = n)
    (h : FirstFailing (n + 1) checks answer) : FirstFailing n (b :: checks) (if c then some sub else answer) := by
  split
  · exact .fail (hb.2 ‹_›) hcode
  · exact .pass (by simpa using mt hb.1 ‹_›) h

theorem FirstFailing.code_eq (h : FirstFailing 1 checks (some sub)) {j : Nat} (hj : checks.findIdx? id = some j) :
    sub.code = j + 1 := by
  rw [FirstFailing, hj] at h
  exact (Option.some.inj h).symm

theorem FirstFailing.findIdx?_eq_none : FirstFailing n checks none ↔ checks.findIdx? id = none :=
  Option.map_eq_none_iff

/-- The check that fails first stays the first whatever checks follow. -/
theorem FirstFailing.append_of_fails (h : FirstFailing n checks (some sub)) (more : List Bool) :
    FirstFailing n (checks ++ more) (some sub) := by
  obtain ⟨j, hj, hsub⟩ := Option.map_eq_some_iff.1 h
  rw [FirstFailing, List.findIdx?_append, hj]
  exact congrArg some hsub

/-- Checks that all pass leave the answer to the checks that follow. -/
theorem FirstFailing.append_of_passes (h : FirstFailing n checks none) {more : List Bool}
    (hmore : FirstFailing (n + checks.length) more answer) : FirstFailing n (checks ++ more) answer := by
  have hnone := FirstFailing.findIdx?_eq_none.1 h
  unfold FirstFailing at hmore ⊢
  rw [← hmore, List.findIdx?_append, hnone]
  simp [Function.comp_def, Nat.add_assoc, Nat.add_comm n]

end FirstFailing

/-- The subcause a reading fails with, if it fails. -/
def failedCheck {α : Type} : Except SchemaSub α → Option SchemaSub
  | .error sub => some sub
  | .ok _ => none

theorem failedCheck_map {α β : Type} (f : α → β) (r : Except SchemaSub α) : failedCheck (r.map f) = failedCheck r := by
  cases r <;> rfl

/-- Check (e) fails exactly where the token is no length token. -/
theorem lengthOf_isNone (tok : List Byte) :
    (lengthOf tok).isNone = (!tok.all isDigit || tok == [] || decide (decimal tok = 0)) := by
  by_cases hne : tok = [] <;> by_cases hds : tok.all isDigit = true <;> by_cases hzero : decimal tok = 0 <;>
    simp [lengthOf, hne, hds, hzero]

theorem decimal_of_lengthOf {tok : List Byte} {n : Nat} (h : lengthOf tok = some n) : decimal tok = n := by
  unfold lengthOf at h
  split at h
  · exact Option.some.inj h
  · cases h

section FieldLineChecks

variable {p : Params} {acc : ParseAcc} {first name type : List Byte} {more : List (List Byte)}

theorem formChecks_array (h : lineKind (first :: name :: type :: more) = .float32Array) :
    (formChecks p acc (first :: name :: type :: more)).drop 3 =
      [decide (more = []), (lengthOf (more.getD 0 [])).isNone, decide (1 < more.length)] := by
  cases more <;> simp [formChecks, lineChecks, h, lengthOf_isNone]

theorem formChecks_scalar (h : lineKind (first :: name :: type :: more) ≠ .float32Array) :
    (formChecks p acc (first :: name :: type :: more)).drop 3 = [false, false, decide (more ≠ [])] := by
  cases more <;> simp [formChecks, lineChecks, h]

/-- Checks (d) to (f) are those of the tokens after the type token. -/
theorem arrayLength_firstFailing :
    FirstFailing 4 ((formChecks p acc (first :: name :: type :: more)).drop 3)
      (failedCheck (arrayLength (lineKind (first :: name :: type :: more)) more)) := by
  by_cases harray : lineKind (first :: name :: type :: more) = .float32Array
  · rw [formChecks_array harray, harray]
    rcases more with _ | ⟨len, extra⟩
    · exact .fail rfl rfl
    · refine .pass rfl ?_
      cases hlen : lengthOf len with
      | none =>
        simp only [arrayLength, hlen, failedCheck]
        exact .fail (by simp [hlen]) rfl
      | some n =>
        refine .pass (by simp [hlen]) ?_
        simp only [arrayLength, hlen]
        cases extra with
        | nil => exact .pass rfl .nil
        | cons => exact .fail rfl rfl
  · rw [formChecks_scalar harray, arrayLength_scalar harray]
    refine .pass rfl (.pass rfl ?_)
    cases more with
    | nil => exact .pass rfl .nil
    | cons => exact .fail rfl rfl

/-- Checks (a) to (f) are those of the reading of the line. -/
theorem readLine_firstFailing (rest : List (List Byte)) :
    FirstFailing 1 (formChecks p acc (first :: rest)) (failedCheck (readLine first rest)) := by
  cases hoff : offsetOf first with
  | none =>
    rw [readLine_malformedOffset rest hoff]
    exact .fail (by simp [hoff]) rfl
  | some off =>
    refine .pass (by simp [hoff]) ?_
    rcases rest with _ | ⟨name, _ | ⟨type, more⟩⟩
    · rw [readLine_missingToken hoff (by simp)]
      exact .fail rfl rfl
    · rw [readLine_missingToken hoff (by simp)]
      exact .fail rfl rfl
    · refine .pass (by simp) ?_
      cases htype : kindOf type with
      | none =>
        rw [readLine_unknownType (by simp [hoff]) htype]
        exact .fail (by simp [htype]) rfl
      | some kind =>
        have hkind : lineKind (first :: name :: type :: more) = kind := by simp [lineKind, htype]
        rw [readLine_typed hoff htype, failedCheck_map, ← hkind]
        exact .pass (by simp [htype]) arrayLength_firstFailing

theorem lineLength_of_arrayLength {n : Nat}
    (h : arrayLength (lineKind (first :: name :: type :: more)) more = .ok n) :
    lineLength (first :: name :: type :: more) = n := by
  by_cases harray : lineKind (first :: name :: type :: more) = .float32Array
  · rw [harray] at h
    rcases more with _ | ⟨len, extra⟩
    · cases h
    · cases hlen : lengthOf len with
      | none => simp [arrayLength, hlen] at h
      | some m =>
        simp only [arrayLength, hlen] at h
        split at h <;> cases h
        simp [lineLength, harray, decimal_of_lengthOf hlen]
  · rw [arrayLength_scalar harray] at h
    split at h <;> cases h
    unfold lineLength
    split
    · exact absurd ‹_› harray
    all_goals rfl

/-- A line that passes checks (a) to (f) says what its tokens say by position. -/
theorem readLine_eq_lineFields {rest : List (List Byte)} {l : LineFields} (h : readLine first rest = .ok l) :
    l = lineFields (first :: rest) := by
  obtain ⟨type, more, rfl, hoff, htype, hlength⟩ := readLine_ok h
  have hkind : lineKind (first :: l.name :: type :: more) = l.kind := by simp [lineKind, htype]
  rw [← hkind] at hlength
  have halen := lineLength_of_arrayLength hlength
  simp [lineFields, lineOffset, hoff, hkind, halen]

end FieldLineChecks

/-- Checks (g) to (l) are the capacity check of the model. -/
theorem capacityCheck_firstFailing (p : Params) (acc : ParseAcc) (toks : List (List Byte)) :
    FirstFailing 7 (roomChecks p acc toks) (capacityCheck p acc (lineFields toks)) :=
  .check decide_eq_true_iff rfl <| .check Iff.rfl rfl <| .check decide_eq_true_iff rfl <|
    .check decide_eq_true_iff rfl <| .check decide_eq_true_iff rfl <| .check Iff.rfl rfl .nil

/-- A field line is refused by the first of its checks that fails; when all pass, its field is added. -/
theorem parseLine_firstFailing (p : Params) (k : Nat) {line : List Byte} (acc : ParseAcc) (hne : tokens line ≠ []) :
    (∃ sub, FirstFailing 1 (lineChecks p acc.fields acc.words (tokens line)) (some sub) ∧
      parseLine p k line acc = .error (raiseSchema sub k)) ∨
    (FirstFailing 1 (lineChecks p acc.fields acc.words (tokens line)) none ∧
      parseLine p k line acc = .ok (acc.add (lineFields (tokens line)) k)) := by
  obtain ⟨first, rest, ht⟩ := List.exists_cons_of_ne_nil hne
  have hform := readLine_firstFailing (p := p) (acc := acc) (first := first) rest
  rw [lineChecks_eq, ht]
  cases hread : readLine first rest with
  | error sub =>
    rw [hread] at hform
    exact .inl ⟨sub, hform.append_of_fails _, parseLine_malformed ht hread⟩
  | ok l =>
    rw [hread] at hform
    have hroom := hform.append_of_passes (capacityCheck_firstFailing p acc (first :: rest))
    rw [← readLine_eq_lineFields hread] at hroom ⊢
    cases hc : capacityCheck p acc l with
    | some sub => exact .inl ⟨sub, hc ▸ hroom, parseLine_refused ht hread hc⟩
    | none => exact .inr ⟨hc ▸ hroom, parseLine_accepted ht hread hc⟩

/-! ## Refused texts (43_schema.md R240, R243, R250) -/

/-- A refused text is refused at one of its lines, counted from 1, with every line before it accepted. -/
theorem parseText_error {p : Params} {text : List Byte} {e : Raise} (h : parseText p text = .error e) :
    ∃ pre line post acc sub, splitLines text = pre ++ line :: post ∧ parseLines p 1 pre ParseAcc.empty = .ok acc ∧
      parseLine p (pre.length + 1) line acc = .error e ∧ e = raiseSchema sub (pre.length + 1) := by
  obtain ⟨pre, line, post, acc, sub, hsplit, hpre, hbad, he⟩ := parseLines_error h
  rw [Nat.add_comm] at hbad he
  exact ⟨pre, line, post, acc, sub, hsplit, hpre, hbad, he⟩

theorem parseText_error_code {p : Params} {text : List Byte} {e : Raise} (h : parseText p text = .error e) :
    e.kind.code = 1#4 := by
  obtain ⟨_, _, _, _, _, _, _, _, rfl⟩ := parseText_error h
  rfl

/-- Settles O27: a line's answer is the first of its checks that fails, or its field when all pass. -/
theorem firstFailingCheckRaises : Obligations.FirstFailingCheckRaises := by
  refine ⟨fun s b e hparse => ⟨_, exec_parse_refused b hparse, parseText_error_code hparse, rfl, rfl⟩,
    fun p k line acc hne => ?_⟩
  rcases parseLine_firstFailing p k acc hne with ⟨sub, hfirst, hline⟩ | ⟨hfirst, hline⟩
  · refine ⟨fun j hj => ?_, fun hnone => ?_⟩
    · rw [hline, raiseSchema, hfirst.code_eq hj]
    · rw [FirstFailing, hnone] at hfirst
      cases hfirst
  · refine ⟨fun j hj => ?_, fun _ => hline⟩
    rw [FirstFailing.findIdx?_eq_none.1 hfirst] at hj
    cases hj

/-- Settles O28: a blank line keeps the accumulator, and the loop stops at the first line refused. -/
theorem parseStopsAtTheFirstBadLine : Obligations.ParseStopsAtTheFirstBadLine := by
  refine ⟨fun p k line acc => parseLine_blank p k acc, fun p text e h => ?_⟩
  obtain ⟨pre, line, post, acc, sub, hsplit, hpre, hbad, rfl⟩ := parseText_error h
  exact ⟨pre, post, line, acc, hsplit, hpre, hbad, rfl, sub.code_range.1, sub.code_range.2, rfl⟩

/-! ## The overlap mark (43_schema.md R253) -/

/-- Under legal parameters the window of an accepted line is the one its entry holds. -/
theorem LineFields.entry_window {p : Params} {acc : ParseAcc} {l : LineFields} (k vbase : Nat) (hp : p.Legal)
    (hc : capacityCheck p acc l = none) :
    (l.entry k vbase).offset.toNat = l.off ∧ (l.entry k vbase).bitEnd = l.off + l.kind.width l.alen := by
  obtain ⟨-, -, -, hwindow, -, -⟩ := capacityCheck_none hc
  obtain ⟨⟨-, hnB⟩, -⟩ := hp
  have hoff : (l.entry k vbase).offset.toNat = l.off := Nat.mod_eq_of_lt (by omega)
  have hwidth : (l.entry k vbase).width.toNat = l.kind.width l.alen := Nat.mod_eq_of_lt (by omega)
  exact ⟨hoff, by rw [FieldEntry.bitEnd, hoff, hwidth]⟩

/-- A window overlaps none of the fields exactly when it is disjoint from each. -/
theorem overlaps_eq_false {e : FieldEntry} {off w : Nat} (fields : List FieldEntry) (hoff : e.offset.toNat = off)
    (hend : e.bitEnd = off + w) : overlaps off w fields = false ↔ ∀ g ∈ fields, g.Disjoint e := by
  simp only [overlaps, List.any_eq_false, Bool.and_eq_true, decide_eq_true_eq, FieldEntry.Disjoint, hoff, hend]
  refine forall₂_congr fun g _ => ?_
  omega

/-- What PARSE keeps of the overlap mark: it is clear exactly while the fields are disjoint, and where overlap is an error. -/
structure ParseAcc.OverlapExact (p : Params) (acc : ParseAcc) : Prop where
  clear_iff : acc.ovl = false ↔ acc.fields.Pairwise FieldEntry.Disjoint
  clear_of_error : p.overlapIsError = true → acc.ovl = false

theorem ParseAcc.OverlapExact.empty (p : Params) : ParseAcc.empty.OverlapExact p where
  clear_iff := ⟨fun _ => .nil, fun _ => rfl⟩
  clear_of_error _ := rfl

theorem ParseAcc.OverlapExact.add {p : Params} {acc : ParseAcc} {l : LineFields} (k : Nat) (h : acc.OverlapExact p)
    (hp : p.Legal) (hc : capacityCheck p acc l = none) : (acc.add l k).OverlapExact p where
  clear_iff := by
    obtain ⟨hoff, hend⟩ := LineFields.entry_window k acc.words hp hc
    have hnew := overlaps_eq_false acc.fields hoff hend
    simp [ParseAcc.add, h.clear_iff, hnew, List.pairwise_append]
  clear_of_error hop := by
    obtain ⟨-, -, -, -, -, hoverlap⟩ := capacityCheck_none hc
    simp [ParseAcc.add, h.clear_of_error hop, hoverlap hop]

theorem parseText_overlapExact {p : Params} {text : List Byte} {acc : ParseAcc} (hp : p.Legal)
    (h : parseText p text = .ok acc) : acc.OverlapExact p :=
  parseLines_induct (fun k _ _ _ _ hacc _ hc _ => hacc.add k hp hc) (.empty p) h

/-- A relation holds along a list exactly when it holds between any two of its positions, read with a default. -/
theorem pairwise_iff_getD {α : Type} {R : α → α → Prop} (xs : List α) (d : α) :
    xs.Pairwise R ↔ ∀ i j, i < j → j < xs.length → R (xs.getD i d) (xs.getD j d) := by
  rw [List.pairwise_iff_getElem]
  constructor
  · intro h i j hij hj
    have hi : i < xs.length := by omega
    rw [List.getD_eq_getElem _ _ hi, List.getD_eq_getElem _ _ hj]
    exact h i j hi hj hij
  · intro h i j hi hj hij
    have hR := h i j hij hj
    rwa [List.getD_eq_getElem _ _ hi, List.getD_eq_getElem _ _ hj] at hR

/-- Settles O29: every accepted line keeps the mark exact, and a set mark names two fields that are not disjoint. -/
theorem overlapFlagIsExact : Obligations.OverlapFlagIsExact := by
  intro p text acc hp hparse
  obtain ⟨hclear, herror⟩ := parseText_overlapExact hp hparse
  refine ⟨?_, herror⟩
  rw [← Bool.not_eq_false, hclear, pairwise_iff_getD _ FieldEntry.zero]
  push Not
  rfl

/-! ## What PARSE commits (43_schema.md R240, R254, R255) -/

/-- Settles O30: PARSE commits the bank of what it collected, or takes the error on the state as it was. -/
theorem parseCommitsOrChangesNothing : Obligations.ParseCommitsOrChangesNothing := by
  refine ⟨⟨rfl, rfl⟩, fun s b e h => ?_, fun s b acc h => ⟨_, exec_parse_accepted b h, ?_⟩⟩
  · rw [exec_parse_refused b h, parseText_error_code h]
  · rw [State.okDone_bank, State.bank_setBank_same]
    refine ⟨?_, rfl, rfl, rfl, rfl, rfl, fun _ => rfl, fun _ => rfl⟩
    cases b <;> rfl

/-! ## A text of one line (43_schema.md R240, R241) -/

/-- A token that a one-line text may hold: a non-empty run without whitespace and line feeds. -/
structure IsToken (tok : List Byte) : Prop where
  nonempty : tok ≠ []
  bytes : ∀ c ∈ tok, isSpace c = false ∧ c ≠ 0x0A#8

theorem isToken_byte_of_toNat {c : Byte} (h : 0x2E ≤ c.toNat) : isSpace c = false ∧ c ≠ 0x0A#8 := by
  refine ⟨?_, ?_⟩
  · rw [← Bool.not_eq_true, isSpace_iff]
    simp only [List.mem_cons, List.not_mem_nil, or_false]
    omega
  · rintro rfl
    exact absurd h (by decide)

theorem isToken_digits {ds : List Byte} (hne : ds ≠ []) (h : ∀ c ∈ ds, isDigit c = true) : IsToken ds where
  nonempty := hne
  bytes c hc := isToken_byte_of_toNat (by have := (isDigit_iff c).1 (h c hc); omega)

theorem isToken_offset {ds : List Byte} {b : Byte} (h : ∀ c ∈ ds, isDigit c = true) (hb : isBitDigit b = true) :
    IsToken (ds ++ [0x2E#8, b]) where
  nonempty := by simp
  bytes c hc := by
    rcases List.mem_append.1 hc with hc | hc
    · exact isToken_byte_of_toNat (by have := (isDigit_iff c).1 (h c hc); omega)
    · have hlow := ((isBitDigit_iff b).1 hb).1
      rcases List.mem_pair.1 hc with rfl | rfl
      · decide
      · exact isToken_byte_of_toNat (by omega)

theorem isToken_token (k : FieldKind) : IsToken k.token := by
  cases k <;> exact ⟨by decide, by decide⟩

/-- A line of tokens with one space between them. -/
def spacedLine (toks : List (List Byte)) : List Byte := List.intercalate [0x20#8] toks

theorem spacedLine_cons_cons (t u : List Byte) (toks : List (List Byte)) :
    spacedLine (t :: u :: toks) = t ++ 0x20#8 :: spacedLine (u :: toks) := by
  simp [spacedLine, List.intercalate]

theorem tokens_spacedLine {toks : List (List Byte)} (h : ∀ t ∈ toks, IsToken t) : tokens (spacedLine toks) = toks := by
  induction toks with
  | nil => rfl
  | cons t toks ih =>
    have ht := h t (by simp)
    have hrun : tokens t = [t] := tokens_of_run ht.nonempty fun c hc => (ht.bytes c hc).1
    cases toks with
    | nil => simpa [spacedLine] using hrun
    | cons u toks =>
      rw [spacedLine_cons_cons, tokens_append_space _ _ (by decide), hrun, ih fun v hv => h v (by simp [hv])]
      rfl

theorem splitLines_spacedLine {toks : List (List Byte)} (h : ∀ t ∈ toks, IsToken t) :
    splitLines (spacedLine toks) = [spacedLine toks] := by
  refine splitLines_of_no_lineFeed ?_
  induction toks with
  | nil => simp [spacedLine]
  | cons t toks ih =>
    cases toks with
    | nil => simpa [spacedLine] using fun c hc => ((h t (by simp)).bytes c hc).2
    | cons u toks =>
      intro c hc
      rw [spacedLine_cons_cons, List.mem_append, List.mem_cons] at hc
      rcases hc with hc | rfl | hc
      · exact ((h t (by simp)).bytes c hc).2
      · decide
      · exact ih (fun v hv => h v (by simp [hv])) c hc

/-- The first field of a schema has no other to conflict with: its name, its window and its slot only have to fit. -/
theorem capacityCheck_empty {p : Params} {l : LineFields} (hp : p.Legal) (hname : l.name.length ≤ p.nameMax)
    (hwindow : l.off + l.kind.width l.alen ≤ 8 * p.nB) (hwords : l.kind.words l.alen ≤ p.nV) :
    capacityCheck p ParseAcc.empty l = none := by
  obtain ⟨-, -, ⟨hnF, -⟩, -⟩ := hp
  have hfull : 0 ≠ p.nF := by omega
  simp [capacityCheck, ParseAcc.empty, overlaps, hfull, Nat.not_lt.2 hname, Nat.not_lt.2 hwindow, Nat.not_lt.2 hwords]

/-- A text of one field line that fits is parsed to that field. -/
theorem exec_parse_spacedLine {s : State} (b : Bank) {first : List Byte} {rest : List (List Byte)} {l : LineFields}
    (hp : s.params.Legal) (htext : s.schemaText = spacedLine (first :: rest)) (htoks : ∀ t ∈ first :: rest, IsToken t)
    (hread : readLine first rest = .ok l) (hname : l.name.length ≤ s.params.nameMax)
    (hwindow : l.off + l.kind.width l.alen ≤ 8 * s.params.nB) (hwords : l.kind.words l.alen ≤ s.params.nV) :
    exec (.parse b) s = .next (s.setBank b (committedBank (ParseAcc.empty.add l 1))).okDone := by
  apply exec_parse_accepted
  rw [parseText, htext, splitLines_spacedLine htoks, parseLines_cons,
    parseLine_accepted (tokens_spacedLine htoks) hread (capacityCheck_empty hp hname hwindow hwords)]
  rfl

theorem FieldKind.words_scalar {k : FieldKind} (h : k ≠ .float32Array) (n : Nat) : k.words n = 1 := by
  cases k <;> first | rfl | exact absurd rfl h

/-- Settles O31: the line's three tokens read as one scalar field, which the empty schema has room for. -/
theorem parseOfOneScalarLine : Obligations.ParseOfOneScalarLine := by
  intro s bk ds nm b k hp hne hds hb hnm hname hbytes hk hwindow htext
  have hline : s.schemaText = spacedLine [ds ++ [0x2E#8, b], nm, k.token] := by simp [htext, spacedLine, List.intercalate]
  have htoks : ∀ t ∈ [ds ++ [0x2E#8, b], nm, k.token], IsToken t := by
    simp [isToken_offset hds hb, isToken_token, IsToken.mk hnm hbytes]
  have hread := readLine_scalar (name := nm) (offsetOf_digits hne hds hb) hk
  have hwords : k.words 0 = 1 := FieldKind.words_scalar hk 0
  have hroom : k.words 0 ≤ s.params.nV := by omega
  refine ⟨_, exec_parse_spacedLine bk hp hline htoks hread hname hwindow hroom, rfl, ?_⟩
  rw [State.okDone_bank, State.bank_setBank_same]
  refine ⟨rfl, ?_, rfl, rfl, rfl⟩
  simp [committedBank, ParseAcc.add, ParseAcc.empty, hwords]

/-- Settles O32: the line's four tokens read as one array field, which the empty schema has room for. -/
theorem parseOfOneArrayLine : Obligations.ParseOfOneArrayLine := by
  intro s bk ds nm ls b hp hne hds hb hnm hname hbytes hls hlen hpos hwindow hroom htext
  have hline : s.schemaText = spacedLine [ds ++ [0x2E#8, b], nm, FieldKind.token .float32Array, ls] := by
    simp [htext, spacedLine, List.intercalate]
  have htoks : ∀ t ∈ [ds ++ [0x2E#8, b], nm, FieldKind.token .float32Array, ls], IsToken t := by
    simp [isToken_offset hds hb, isToken_token, IsToken.mk hnm hbytes, isToken_digits hls hlen]
  have hread := readLine_array (name := nm) (offsetOf_digits hne hds hb) (lengthOf_digits hls hlen hpos)
  refine ⟨_, exec_parse_spacedLine bk hp hline htoks hread hname hwindow hroom, rfl, ?_⟩
  rw [State.okDone_bank, State.bank_setBank_same]
  refine ⟨rfl, ?_, rfl⟩
  simp [committedBank, ParseAcc.add, ParseAcc.empty, FieldKind.words]

end Sys2Proof.Machine
end

section
/-! The statements of 44_record.md on names and slots: the read/write partition, what DECODE and ENCODE make of one field, and
the range check. -/

namespace Sys2Proof.Machine

/-! ## The read/write partition (44_record.md R280, R287) -/

theorem sideOf_eq_write_iff {nm : List Byte} : sideOf nm = .write ↔ nm.take 11 = writePrefix := by
  simp [sideOf]

@[simp] theorem sideOf_writePrefix_append (rest : List Byte) : sideOf (writePrefix ++ rest) = .write :=
  sideOf_eq_write_iff.2 (List.take_left' rfl)

/-- A name on the write side is `copyDbWrite` and its key. -/
theorem writePrefix_append_keyOf {nm : List Byte} (h : sideOf nm = .write) : writePrefix ++ keyOf nm = nm := by
  rw [keyOf, keyOffOf, h, ← sideOf_eq_write_iff.1 h]
  exact List.take_append_drop 11 nm

/-- A name on the read side is its own key. -/
theorem keyOf_of_read {nm : List Byte} (h : sideOf nm = .read) : keyOf nm = nm := by
  rw [keyOf, keyOffOf, h, List.drop_zero]

/-- On one side the key determines the name. -/
theorem eq_of_keyOf_eq {nm nm' : List Byte} (hside : sideOf nm = sideOf nm') (hkey : keyOf nm = keyOf nm') : nm = nm' := by
  cases h : sideOf nm with
  | read => rwa [keyOf_of_read h, keyOf_of_read (hside.symm.trans h)] at hkey
  | write => rw [← writePrefix_append_keyOf h, ← writePrefix_append_keyOf (hside.symm.trans h), hkey]

/-- An entry holds the side and the key offset of its name. -/
def FieldEntry.SplitsName (e : FieldEntry) : Prop :=
  e.side = sideOf e.name ∧ e.keyOff = BitVec.ofNat 32 (keyOffOf e.name)

/-- PARSE splits the name of every entry it builds. -/
theorem parseText_splitsName {p : Params} {text : List Byte} {acc : ParseAcc} (h : parseText p text = .ok acc) :
    ∀ e ∈ acc.fields, e.SplitsName := by
  refine parseLines_induct (P := fun acc => ∀ e ∈ acc.fields, e.SplitsName) ?_ (fun _ he => by cases he) h
  intro k _ _ l acc hacc _ _ _ e he
  rcases List.mem_append.1 he with he | he
  · exact hacc e he
  · rw [List.mem_singleton.1 he]
    exact ⟨rfl, rfl⟩

/-- Settles O33: a name splits after `copyDbWrite` or not at all, and every line that PARSE accepts adds a split name. -/
theorem keyIsTheNameWithoutThePrefix : Obligations.KeyIsTheNameWithoutThePrefix := by
  refine ⟨fun rest => ?_, fun nm hno => ?_, fun p text acc => parseText_splitsName⟩
  · have hside := sideOf_writePrefix_append rest
    exact ⟨hside, by rw [keyOffOf, hside], List.append_cancel_left (writePrefix_append_keyOf hside)⟩
  · have hside : sideOf nm = .read := by
      cases h : sideOf nm with
      | read => rfl
      | write => exact absurd (writePrefix_append_keyOf h).symm (hno _)
    exact ⟨hside, by rw [keyOffOf, hside], keyOf_of_read hside⟩

/-- The keys of one side, in index order. -/
theorem BankState.record_keys (b : BankState) (side : Side) :
    (b.record side).map Prod.fst = ((b.schema.filter fun e => e.side == side).map FieldEntry.name).map keyOf := by
  simp [BankState.record]

/-- Settles O34: the names are distinct, and on one side the key determines the name. -/
theorem keysOfASideAreDistinct : Obligations.KeysOfASideAreDistinct := by
  intro p b side h
  rw [BankState.record_keys, h.schema_eq]
  have hside : ∀ nm ∈ (b.fields.filter fun e => e.side == side).map FieldEntry.name, sideOf nm = side := by
    intro nm hnm
    obtain ⟨e, he, rfl⟩ := List.mem_map.1 hnm
    obtain ⟨he, heq⟩ := List.mem_filter.1 he
    rw [← (h.entries e he).side_eq, eq_of_beq heq]
  have hnames : ((b.fields.filter fun e => e.side == side).map FieldEntry.name).Nodup :=
    h.names.sublist (List.filter_sublist.map _)
  exact hnames.map_on fun nm hnm nm' hnm' => eq_of_keyOf_eq ((hside nm hnm).trans (hside nm' hnm').symm)

/-! ## What DECODE extracts for one field (44_record.md R283) -/

/-- The numeral of an 8-character window is its window byte (00_scope.md R10). -/
theorem parseBits_window_eight (m : BitStore) (o : Nat) :
    parseBits (rev (window m o 8)) = wbyte (storeGet false m) o 0 := by
  rw [wbyte_eq_parseBits]
  rfl

theorem swdec_window (m : BitStore) (o : Nat) {w : Nat} (hw : w = 16 ∨ w = 32) :
    swdec (window m o w) w = some (BitVec.ofNat w (beRead (storeGet false m) o w)).toInt := by
  rw [swdec_eq hw (window_length _ _ _), stringPattern_window m o (by omega)]

theorem fwdec_window (m : BitStore) (o : Nat) :
    fwdec (window m o 32) = BitVec.ofNat 32 (beRead (storeGet false m) o 32) := by
  rw [fwdec_eq_stringPattern, stringPattern_window m o (by decide)]

/-- Settles O35: each type's codec reads its window as be_read. -/
theorem slotHoldsTheWindowsValue : Obligations.SlotHoldsTheWindowsValue := by
  intro m e bit o
  cases h : e.kind <;> simp only [decodeSlot, h]
  case bool => rfl
  case uint8 => rw [parseBits_window_eight]
  case int16 => rw [swdec_window m _ (.inl rfl)]; rfl
  case int32 => rw [swdec_window m _ (.inr rfl), Option.getD_some, BitVec.ofInt_toInt]
  case float32 => rw [fwdec_window]
  case float32Array => simp only [fwdec_window]; rfl

/-- What DECODE extracts depends on the bits alone. -/
theorem decodeSlot_congr {m m' : BitStore} (e : FieldEntry) (h : ∀ i, storeGet false m i = storeGet false m' i) :
    decodeSlot m e = decodeSlot m' e := by
  rw [slotHoldsTheWindowsValue m e, slotHoldsTheWindowsValue m' e, funext h]

/-! ## What ENCODE inserts for one field (44_record.md R284) -/

theorem flatMap_fwenc_length (ws : List Word) : (ws.flatMap fwenc).length = 32 * ws.length := by
  simp [List.length_flatMap, Nat.mul_comm]

/-- The windows of an array follow each other, 32 bits apart. -/
theorem flatMap_fwenc_getD (ws : List Word) {k p : Nat} (hk : k < ws.length) (hp : p < 32) :
    (ws.flatMap fwenc).getD (32 * k + p) false = beBit 32 (ws.getD k 0#32) p := by
  induction ws generalizing k with
  | nil => cases hk
  | cons w ws ih =>
    rw [List.flatMap_cons]
    cases k with
    | zero =>
      rw [Nat.mul_zero, Nat.zero_add, List.getD_append _ _ _ _ (by simpa using hp), fwenc_getD w hp]
      rfl
    | succ k =>
      have hpos : 32 * (k + 1) + p - 32 = 32 * k + p := by omega
      rw [List.getD_append_right _ _ _ _ (by simp; omega), fwenc_length, hpos, ih (Nat.lt_of_succ_lt_succ hk)]
      rfl

/-- The string inserted is as long as the field's type is wide (00_scope.md R14). -/
theorem encodeSlot_length_eq (val : WordStore) (e : FieldEntry) :
    (encodeSlot val e).length = e.kind.width e.alen.toNat := by
  cases h : e.kind <;> simp only [encodeSlot, h]
  case float32Array => rw [flatMap_fwenc_length, storeRead_length]; rfl
  case bool => rfl
  case uint8 => exact lowBits_length 8 _
  case int16 => exact swenc_length_16 _
  case int32 => exact swenc_length_32 _
  case float32 => exact fwenc_length _

/-- Settles O36: each type's codec writes be_write of its words. -/
theorem windowHoldsTheSlotsBits : Obligations.WindowHoldsTheSlotsBits := by
  intro val e hwidth word
  rw [hwidth]
  refine ⟨encodeSlot_length_eq val e, fun p hp => ?_⟩
  cases h : e.kind <;> simp only [encodeSlot, h] <;> rw [h] at hp
  case bool =>
    obtain rfl : p = 0 := Nat.lt_one_iff.1 hp
    rfl
  case uint8 => exact lowBits_getD 8 _ p hp
  case int16 => exact swenc_getD _ (.inl rfl) hp
  case int32 => exact swenc_getD _ (.inr rfl) hp
  case float32 => exact fwenc_getD _ hp
  case float32Array =>
    have hlen : p < 32 * e.alen.toNat := hp
    have hk : p / 32 < e.alen.toNat := by omega
    have hbit := flatMap_fwenc_getD (storeRead 0#32 val e.vbase.toNat e.alen.toNat) (by simpa using hk)
      (Nat.mod_lt p (by decide : 32 > 0))
    rwa [Nat.div_add_mod, storeRead_getD _ _ _ _ _ hk] at hbit

/-! ## The range check of one field (44_record.md R285) -/

/-- A word is the sign extension of its low half exactly when it fits in 16 signed bits. -/
theorem extractLow16_toInt_eq_iff {w : Word} : (w.extractLsb' 0 16).toInt = w.toInt ↔ fitsSigned 16 w = true := by
  rw [← BitVec.setWidth_eq_extractLsb' (by decide : 16 ≤ 32)]
  refine ⟨fun h => fitsSigned_iff.2 ?_, toInt_setWidth_of_fitsSigned (by decide) (by decide)⟩
  rw [← h]
  exact ⟨(w.setWidth 16).le_toInt, (w.setWidth 16).toInt_lt⟩

/-- Settles O37: the check of each type is the type's range. -/
theorem legalSlotsAreTheRangesOfTheTypes : Obligations.LegalSlotsAreTheRangesOfTheTypes := by
  intro val e w
  cases h : e.kind <;> simp only [slotLegal, h, decide_eq_true_eq]
  case bool => exact word_toNat_le_one_iff w
  case uint8 => rfl
  case int16 =>
    rw [extractLow16_toInt_eq_iff, fitsSigned_iff]
    show -(2 ^ 15 : Int) ≤ w.toInt ∧ w.toInt < 2 ^ 15 ↔ _
    omega

end Sys2Proof.Machine
end

section
/-! The statements of 44_record.md on the commands: DECODE, ENCODE, the buffer length, and the round trip of a record. -/

namespace Sys2Proof.Machine

/-! ## Fields by index (10_state.md R50, R54) -/

theorem BankState.entry_eq_getElem {b : BankState} {f : Nat} (hf : f < b.schema.length) : b.entry f = b.schema[f] :=
  List.getD_eq_getElem _ _ hf

/-- The lowest field that fails a check is the one a search finds. -/
theorem BankState.findIdx?_schema_eq_some {b : BankState} {c : FieldEntry → Bool} {f : Nat} (hf : f < b.schema.length)
    (hfails : c (b.entry f) = true) (hlowest : ∀ g, g < f → ¬ c (b.entry g) = true) : b.schema.findIdx? c = some f := by
  refine List.findIdx?_eq_some_iff_getElem.2 ⟨hf, b.entry_eq_getElem hf ▸ hfails, fun g hg => ?_⟩
  exact b.entry_eq_getElem (hg.trans hf) ▸ hlowest g hg

/-- The slots of a well-formed bank follow each other. -/
theorem BankState.Wf.slots_pairwise {p : Params} {b : BankState} (h : b.Wf p) :
    b.schema.Pairwise fun e g => e.vbase.toNat + e.words ≤ g.vbase.toNat := by
  obtain ⟨_, _, hpairwise⟩ := slotsTile_layout h.tile
  exact h.schema_eq ▸ hpairwise

theorem BankState.Wf.encodeSlot_lengths {p : Params} {b : BankState} (h : b.Wf p) (val : WordStore) :
    ∀ e ∈ b.schema, (encodeSlot val e).length = e.width.toNat :=
  fun e he => encodeSlot_length val (h.entries e (h.schema_eq ▸ he))

/-! ## DECODE (44_record.md R281, R286) -/

/-- What a successful DECODE makes of the state, its completion apart: the bit string, and every slot filled from it. -/
def State.bufferToRecord (s : State) (b : Bank) : State :=
  s.bufferToString.setBank b
    { s.bank b with val := extractAll s.bufferToString.bstr (s.bank b).schema (s.bank b).val }

@[simp] theorem State.bufferToRecord_bank (s : State) (b : Bank) : (s.bufferToRecord b).bank b =
    { s.bank b with val := extractAll s.bufferToString.bstr (s.bank b).schema (s.bank b).val } :=
  State.bank_setBank_same _ _ _

@[simp] theorem State.bufferToRecord_bstr (s : State) (b : Bank) : (s.bufferToRecord b).bstr = s.bufferToString.bstr :=
  State.setBank_bstr _ _ _

@[simp] theorem State.bufferToRecord_blen (s : State) (b : Bank) : (s.bufferToRecord b).blen = s.bufferToString.blen :=
  State.setBank_blen _ _ _

@[simp] theorem State.bufferToRecord_bit (s : State) (b : Bank) (p : Nat) :
    (s.bufferToRecord b).bit p = s.bufferToString.bit p := by
  rw [State.bit, State.bufferToRecord_bstr, State.bit]

theorem slotOf_bufferToRecord {s : State} {b : Bank}
    (hslots : (s.bank b).schema.Pairwise fun e g => e.vbase.toNat + e.words ≤ g.vbase.toNat) {e : FieldEntry}
    (he : e ∈ (s.bank b).schema) :
    slotOf ((s.bufferToRecord b).bank b).val e = decodeSlot s.bufferToString.bstr e := by
  rw [State.bufferToRecord_bank]
  exact slotOf_extractAll _ _ hslots he

theorem word_bufferToRecord_outside {s : State} {b : Bank} {v : Nat}
    (h : ∀ e ∈ (s.bank b).schema, ¬ e.OwnsWord v) : ((s.bufferToRecord b).bank b).word v = (s.bank b).word v := by
  rw [State.bufferToRecord_bank]
  exact storeGet_extractAll_outside _ _ _ v h

theorem firstPastEnd_eq_none_iff {fields : List FieldEntry} {n : Nat} :
    firstPastEnd fields n = none ↔ ∀ e ∈ fields, e.bitEnd ≤ 8 * n := by
  simp [firstPastEnd, List.findIdx?_eq_none_iff]

theorem exec_decode_pastEnd {s : State} {b : Bank} {f : Nat} (h : firstPastEnd (s.bank b).schema s.wlen.toNat = some f) :
    exec (.decode b) s = .next (s.errDone 2#4 0#4 (BitVec.ofNat 32 f)) := by
  show execDecode b s = _
  rw [execDecode, h]
  rfl

theorem exec_decode_fits {s : State} {b : Bank} (h : ∀ e ∈ (s.bank b).schema, e.bitEnd ≤ 8 * s.wlen.toNat) :
    exec (.decode b) s = .next (s.bufferToRecord b).okDone := by
  show execDecode b s = _
  rw [execDecode, firstPastEnd_eq_none_iff.2 h]
  rfl

/-- A DECODE that ends without error found every window inside the buffer. -/
theorem windows_fit_of_decode_succeeds {s t : State} {b : Bank} (hexec : exec (.decode b) s = .next t)
    (hcode : t.errCode = 0#4) : ∀ e ∈ (s.bank b).schema, e.bitEnd ≤ 8 * s.wlen.toNat := by
  cases hfirst : firstPastEnd (s.bank b).schema s.wlen.toNat with
  | none => exact firstPastEnd_eq_none_iff.1 hfirst
  | some f =>
    obtain rfl := Host.Outcome.next.inj ((exec_decode_pastEnd hfirst).symm.trans hexec)
    exact absurd hcode (by simp)

/-- Settles O38: the search finds the lowest field past the end; without one, DECODE is `bufferToRecord`. -/
theorem decodeFillsEverySlot : Obligations.DecodeFillsEverySlot := by
  refine ⟨⟨rfl, rfl⟩, fun s b f hf hpast hlowest => ?_, fun s b hwf hfits => ?_⟩
  · apply exec_decode_pastEnd
    exact BankState.findIdx?_schema_eq_some hf (by simpa using hpast) fun g hg => by simpa using hlowest g hg
  · refine ⟨_, exec_decode_fits hfits, ?_, fun B i hB hi => ?_, fun p hp => ?_, fun e he => ?_, fun v hv => ?_⟩
    · cases b <;> rfl
    · rw [State.okDone_bit, State.bufferToRecord_bit, bufferToString_bit s hB hi]
    · rw [State.okDone_bit, State.bufferToRecord_bit, bufferToString_bit_above s hp]
    · rw [State.okDone_bank, slotOf_bufferToRecord hwf.slots_pairwise he, State.okDone_bstr, State.bufferToRecord_bstr]
    · rw [State.okDone_bank, word_bufferToRecord_outside hv]

/-- Settles O39: neither the length checks nor what DECODE extracts look at VAL. -/
theorem decodeCarriesNothingOver : Obligations.DecodeCarriesNothingOver := by
  intro s t b val hwf hexec hcode
  have hfits := windows_fit_of_decode_succeeds hexec hcode
  obtain rfl := Host.Outcome.next.inj ((exec_decode_fits hfits).symm.trans hexec)
  have hschema : ((s.setBank b { s.bank b with val := val }).bank b).schema = (s.bank b).schema := by
    rw [State.bank_setBank_same]
    rfl
  have hstring : (s.setBank b { s.bank b with val := val }).bufferToString.bstr = s.bufferToString.bstr := by simp
  refine ⟨_, exec_decode_fits (by rw [hschema, State.setBank_wlen]; exact hfits), rfl, ?_, ?_, fun e he => ?_⟩
  · simp
  · simp
  · rw [State.okDone_bank, State.okDone_bank, slotOf_bufferToRecord hwf.slots_pairwise he,
      slotOf_bufferToRecord (hschema ▸ hwf.slots_pairwise) (hschema ▸ he), hstring]

/-! ## The buffer length (44_record.md R288) -/

theorem le_foldl_max_bitEnd (es : List FieldEntry) (m : Nat) :
    m ≤ es.foldl (fun m e => max m e.bitEnd) m ∧ ∀ e ∈ es, e.bitEnd ≤ es.foldl (fun m e => max m e.bitEnd) m := by
  induction es generalizing m with
  | nil => simp
  | cons x es ih =>
    obtain ⟨hm, he⟩ := ih (max m x.bitEnd)
    refine ⟨(Nat.le_max_left _ _).trans hm, fun e hmem => ?_⟩
    rcases List.mem_cons.1 hmem with rfl | hmem
    · exact (Nat.le_max_right _ _).trans hm
    · exact he e hmem

/-- The buffer ENCODE builds covers every window. -/
theorem bitEnd_le_bufferBytes (es : List FieldEntry) : ∀ e ∈ es, e.bitEnd ≤ 8 * bufferBytes es := by
  intro e he
  obtain ⟨_, hmax⟩ := le_foldl_max_bitEnd es 0
  have := hmax e he
  unfold bufferBytes
  omega

/-! ## ENCODE (44_record.md R282) -/

/-- What a successful ENCODE makes of the state, its completion apart: the record's bit string, packed into the buffer. -/
def State.recordToBuffer (s : State) (b : Bank) : State :=
  (s.recordToString b).stringToBuffer (bufferBytes (s.bank b).schema)

@[simp] theorem State.recordToBuffer_bank (s : State) (b c : Bank) : (s.recordToBuffer b).bank c = s.bank c := by
  rw [State.recordToBuffer, State.stringToBuffer_bank, State.recordToString_bank]

@[simp] theorem State.recordToBuffer_bit (s : State) (b : Bank) (p : Nat) :
    (s.recordToBuffer b).bit p = (s.recordToString b).bit p := rfl

theorem firstMissing_eq_none_iff {b : BankState} :
    b.firstMissing = none ↔ ∀ f, f < b.nfields.toNat → b.isPresent f = true := by
  simp [BankState.firstMissing]

theorem firstMissing_eq_some {b : BankState} {f : Nat} (hf : f < b.nfields.toNat) (hmissing : b.isPresent f = false)
    (hlowest : ∀ g, g < f → b.isPresent g = true) : b.firstMissing = some f :=
  List.find?_range_eq_some.2 ⟨by simp [hmissing], List.mem_range.2 hf, fun g hg => by simp [hlowest g hg]⟩

theorem firstIllegal_eq_none_iff {b : BankState} :
    b.firstIllegal = none ↔ ∀ e ∈ b.schema, slotLegal b.val e = true := by
  simp [BankState.firstIllegal, List.findIdx?_eq_none_iff]

theorem exec_encode_missing {s : State} {b : Bank} {f : Nat} (h : (s.bank b).firstMissing = some f) :
    exec (.encode b) s = .next (s.errDone 4#4 0#4 (BitVec.ofNat 32 f)) := by
  show execEncode b s = _
  rw [execEncode, h]
  rfl

theorem exec_encode_illegal {s : State} {b : Bank} {f : Nat} (hpresent : (s.bank b).firstMissing = none)
    (h : (s.bank b).firstIllegal = some f) :
    exec (.encode b) s = .next (s.errDone 3#4 0#4 (BitVec.ofNat 32 f)) := by
  show execEncode b s = _
  rw [execEncode, hpresent]
  dsimp only
  rw [h]
  rfl

theorem exec_encode_legal {s : State} {b : Bank} (hpresent : (s.bank b).firstMissing = none)
    (hlegal : (s.bank b).firstIllegal = none) : exec (.encode b) s = .next (s.recordToBuffer b).okDone := by
  show execEncode b s = _
  rw [execEncode, hpresent]
  dsimp only
  rw [hlegal]
  rfl

/-- ENCODE ends with a MissingFieldError, with a RangeError or without error. -/
theorem exec_encode_errCode {s t : State} {b : Bank} (h : exec (.encode b) s = .next t) :
    t.errCode = 4#4 ∨ t.errCode = 3#4 ∨ t.errCode = 0#4 := by
  cases hmissing : (s.bank b).firstMissing with
  | some f =>
    obtain rfl := Host.Outcome.next.inj ((exec_encode_missing hmissing).symm.trans h)
    exact .inl rfl
  | none =>
    cases hillegal : (s.bank b).firstIllegal with
    | some f =>
      obtain rfl := Host.Outcome.next.inj ((exec_encode_illegal hmissing hillegal).symm.trans h)
      exact .inr (.inl rfl)
    | none =>
      obtain rfl := Host.Outcome.next.inj ((exec_encode_legal hmissing hillegal).symm.trans h)
      exact .inr (.inr rfl)

/-- Settles O40: L rounds the highest window end up to bytes, and no outcome of ENCODE is a LengthError. -/
theorem bufferLengthIsLeast : Obligations.BufferLengthIsLeast := by
  refine ⟨fun fields => ⟨bitEnd_le_bufferBytes fields, fun n => bufferBytes_le⟩, fun p b h => bufferBytes_le h.bitEnd_le,
    fun s t b h => ?_⟩
  rcases exec_encode_errCode h with hcode | hcode | hcode <;> rw [hcode] <;> decide

/-! ## The bits ENCODE leaves (44_record.md R282, R284) -/

/-- A bit that no window covers is zeroed inside the buffer and kept above it. -/
theorem recordToString_bit_uncovered {s : State} {b : Bank} (hwf : (s.bank b).Wf s.params) {i : Nat}
    (h : ∀ e ∈ (s.bank b).schema, ¬ e.Covers i) :
    (s.recordToString b).bit i = if i < 8 * bufferBytes (s.bank b).schema then false else s.bit i := by
  show storeGet false (insertAll _ _ _) i = _
  rw [storeGet_insertAll_outside (hwf.encodeSlot_lengths _) _ _ h, storeGet_putWindow]
  simp [State.bit]

theorem recordToString_bit_above {s : State} {b : Bank} (hwf : (s.bank b).Wf s.params) {i : Nat}
    (h : 8 * bufferBytes (s.bank b).schema ≤ i) : (s.recordToString b).bit i = s.bit i := by
  rw [recordToString_bit_uncovered hwf, if_neg (Nat.not_lt.2 h)]
  rintro e he ⟨_, hlt⟩
  have := bitEnd_le_bufferBytes _ e he
  omega

/-- A covered bit is the one the highest field that covers it inserts. -/
theorem recordToString_bit_highest {s : State} {b : Bank} (hwf : (s.bank b).Wf s.params) {f i : Nat}
    (hf : f < (s.bank b).schema.length) (hc : ((s.bank b).entry f).Covers i)
    (hhighest : ∀ g, f < g → g < (s.bank b).schema.length → ¬ ((s.bank b).entry g).Covers i) :
    (s.recordToString b).bit i =
      (encodeSlot (s.bank b).val ((s.bank b).entry f)).getD (i - ((s.bank b).entry f).offset.toNat) false := by
  rw [BankState.entry_eq_getElem hf] at hc ⊢
  exact storeGet_insertAll_highest (hwf.encodeSlot_lengths _) _ i f hf hc fun g hg hfg =>
    BankState.entry_eq_getElem hg ▸ hhighest g hfg hg

/-- Settles O41: presence and range are checked by search; then ENCODE is `recordToBuffer`, whose bits and bytes are known. -/
theorem encodeBuildsTheBuffer : Obligations.EncodeBuildsTheBuffer := by
  refine ⟨⟨rfl, rfl⟩, fun s b f hf hmissing hlowest => ?_, fun s b f hpresent hf hillegal hlowest => ?_,
    fun s b hwf hpresent hlegal => ?_⟩
  · exact exec_encode_missing (firstMissing_eq_some hf hmissing hlowest)
  · apply exec_encode_illegal (firstMissing_eq_none_iff.2 hpresent)
    exact BankState.findIdx?_schema_eq_some hf (by simp [hillegal]) fun g hg => by simp [hlowest g hg]
  · intro n
    refine ⟨_, exec_encode_legal (firstMissing_eq_none_iff.2 hpresent) (firstIllegal_eq_none_iff.2 hlegal), rfl,
      fun i hi hout => ?_, fun f i => recordToString_bit_highest hwf, fun i => recordToString_bit_above hwf,
      fun B i => stringToBuffer_byte_getLsbD _, fun a => stringToBuffer_byte_above _⟩
    rw [State.okDone_bit, State.recordToBuffer_bit, recordToString_bit_uncovered hwf hout, if_pos hi]

/-! ## DECODE of what ENCODE built (44_record.md R289) -/

/-- A buffer that already holds the string's bits leaves every bit as it is. -/
theorem bufferToString_bit_of_packed {s : State}
    (h : ∀ B i, B < s.wlen.toNat → i < 8 → (s.byte B).getLsbD i = s.bit (8 * B + i)) (p : Nat) :
    s.bufferToString.bit p = s.bit p := by
  by_cases hp : p < 8 * s.wlen.toNat
  · have hB : p / 8 < s.wlen.toNat := by omega
    have hi : p % 8 < 8 := Nat.mod_lt p (by decide)
    have hbit := bufferToString_bit s hB hi
    rwa [h _ _ hB hi, Nat.div_add_mod] at hbit
  · exact bufferToString_bit_above s (Nat.le_of_not_lt hp)

theorem recordToBuffer_wlen_toNat {s : State} {b : Bank} (hp : s.params.Legal) (hwf : (s.bank b).Wf s.params) :
    (s.recordToBuffer b).wlen.toNat = bufferBytes (s.bank b).schema := by
  obtain ⟨⟨_, hnB⟩, _⟩ := hp
  have hbytes := bufferBytes_le hwf.bitEnd_le
  rw [State.recordToBuffer, State.stringToBuffer_wlen, BitVec.toNat_ofNat]
  omega

/-- DECODE rebuilds the bit string that ENCODE packed. -/
theorem bufferToString_bit_recordToBuffer {s : State} {b : Bank} (hp : s.params.Legal) (hwf : (s.bank b).Wf s.params)
    (p : Nat) : (s.recordToBuffer b).okDone.bufferToString.bit p = (s.recordToBuffer b).okDone.bit p := by
  refine bufferToString_bit_of_packed (fun B i hB hi => ?_) p
  rw [State.okDone_wlen, recordToBuffer_wlen_toNat hp hwf] at hB
  exact stringToBuffer_byte_getLsbD _ hB hi

/-! ## The codecs of one field undo each other (44_record.md R283 to R285) -/

theorem window_eq_of_bits {m : BitStore} {o : Nat} {S : BitString} {n : Nat} (hn : S.length = n)
    (h : ∀ p, p < n → storeGet false m (o + p) = S.getD p false) : window m o n = S := by
  subst hn
  refine List.ext_getElem (window_length _ _ _) fun p _ hp => ?_
  rw [← List.getD_eq_getElem S false hp, ← h p hp]
  exact storeRead_getElem _ _ _ _ _

theorem slotOf_scalar (val : WordStore) {e : FieldEntry} (h : e.kind ≠ .float32Array) :
    slotOf val e = [storeGet 0#32 val e.vbase.toNat] := by
  rw [slotOf, FieldEntry.words, FieldKind.words_scalar h]
  rfl

/-- A legal Bool slot is its bit. -/
theorem word_of_bit_zero {w : Word} (h : w.toNat ≤ 1) : (if w.getLsbD 0 then 1#32 else 0#32) = w := by
  rcases (word_toNat_le_one_iff w).1 h with rfl | rfl <;> rfl

/-- A window that holds what ENCODE inserts for a legal slot decodes to the slot. -/
theorem decodeSlot_of_encoded {m : BitStore} {val : WordStore} {e : FieldEntry} (hlegal : slotLegal val e = true)
    (h : ∀ p, p < e.kind.width e.alen.toNat → storeGet false m (e.offset.toNat + p) = (encodeSlot val e).getD p false) :
    decodeSlot m e = slotOf val e := by
  have hwindow := window_eq_of_bits (encodeSlot_length_eq val e) h
  cases hk : e.kind <;> simp only [slotLegal, encodeSlot, hk, decide_eq_true_eq, FieldKind.width] at hlegal h hwindow <;>
    simp only [decodeSlot, hk]
  case bool =>
    have hbit : storeGet false m e.offset.toNat = (storeGet 0#32 val e.vbase.toNat).getLsbD 0 := h 0 Nat.one_pos
    rw [hbit, word_of_bit_zero hlegal, slotOf_scalar _ (by simp [hk])]
  case uint8 =>
    have hbyte : (storeGet 0#32 val e.vbase.toNat).toNat % 2 ^ 8 = (storeGet 0#32 val e.vbase.toNat).toNat :=
      Nat.mod_eq_of_lt (Nat.lt_succ_of_le hlegal)
    rw [hwindow, slotOf_scalar _ (by simp [hk]), parseBits_rev_lowBits, hbyte, BitVec.ofNat_toNat, BitVec.setWidth_eq]
  case int16 =>
    have hfits := toInt_setWidth_of_fitsSigned (by decide) (by decide) (extractLow16_toInt_eq_iff.1 hlegal)
    rw [hwindow, slotOf_scalar _ (by simp [hk]), swdec_swenc _ (.inl rfl), Option.getD_some, hfits, BitVec.ofInt_toInt]
  case int32 =>
    rw [hwindow, slotOf_scalar _ (by simp [hk]), swdec_swenc _ (.inr rfl), Option.getD_some, BitVec.setWidth_eq,
      BitVec.ofInt_toInt]
  case float32 => rw [hwindow, slotOf_scalar _ (by simp [hk]), fwdec_fwenc]
  case float32Array =>
    have hwords : e.words = e.alen.toNat := by rw [FieldEntry.words, hk]; rfl
    rw [slotOf, hwords]
    refine List.map_congr_left fun k hmem => ?_
    have hk : k < e.alen.toNat := List.mem_range.1 hmem
    rw [window_eq_of_bits (fwenc_length (storeGet 0#32 val (e.vbase.toNat + k))), fwdec_fwenc]
    intro p hp
    rw [fwenc_getD _ hp, Nat.add_assoc, h _ (by omega), flatMap_fwenc_getD _ (by simpa using hk) hp,
      storeRead_getD _ _ _ _ _ hk]

/-! ## The round trip of a record (44_record.md R289) -/

theorem FieldEntry.Disjoint.not_covers {e g : FieldEntry} (h : e.Disjoint g) {i : Nat} (he : e.Covers i) :
    ¬ g.Covers i := by
  unfold FieldEntry.Covers at *
  unfold FieldEntry.Disjoint at h
  omega

/-- Where no windows overlap, ENCODE leaves in each window what it inserts for the field. -/
theorem recordToString_bit_window {s : State} {b : Bank} (hwf : (s.bank b).Wf s.params)
    (hdisjoint : (s.bank b).schema.Pairwise FieldEntry.Disjoint) {e : FieldEntry} (he : e ∈ (s.bank b).schema) {p : Nat}
    (hp : p < e.width.toNat) :
    (s.recordToString b).bit (e.offset.toNat + p) = (encodeSlot (s.bank b).val e).getD p false := by
  obtain ⟨f, hf, rfl⟩ := List.mem_iff_getElem.1 he
  rw [← BankState.entry_eq_getElem hf] at hp ⊢
  have hcovers : ((s.bank b).entry f).Covers (((s.bank b).entry f).offset.toNat + p) :=
    ⟨Nat.le_add_right _ _, Nat.add_lt_add_left hp _⟩
  rw [recordToString_bit_highest hwf hf hcovers, Nat.add_sub_cancel_left]
  exact fun g hfg hg => FieldEntry.Disjoint.not_covers
    ((pairwise_iff_getD _ FieldEntry.zero).1 hdisjoint f g hfg hg) hcovers

/-- Two VAL memories with the same content of a slot agree on each word of it. -/
theorem word_eq_of_slotOf_eq {val val' : WordStore} {e : FieldEntry} {v : Nat} (hv : e.OwnsWord v)
    (h : slotOf val' e = slotOf val e) : storeGet 0#32 val' v = storeGet 0#32 val v := by
  obtain ⟨hlow, hhigh⟩ := hv
  have hk : v - e.vbase.toNat < e.words := by omega
  have hget := congrArg (fun l => l.getD (v - e.vbase.toNat) 0#32) h
  simpa only [slotOf, storeRead_getD _ _ _ _ _ hk, Nat.add_sub_cancel' hlow] using hget

theorem slotValue_congr {val val' : WordStore} (e : FieldEntry) (h : ∀ v, storeGet 0#32 val' v = storeGet 0#32 val v) :
    slotValue val' e = slotValue val e := by
  simp only [slotValue, slotOf, storeRead, h]

/-- The record of a schema depends on the words of VAL alone. -/
theorem BankState.record_congr {b c : BankState} (hschema : c.schema = b.schema) (hword : ∀ v, c.word v = b.word v)
    (side : Side) : c.record side = b.record side := by
  rw [BankState.record, BankState.record, hschema]
  exact List.map_congr_left fun e _ => by rw [slotValue_congr e hword]

/-- Settles O42: DECODE finds the string ENCODE packed; where no windows overlap each codec gives its slot back. -/
theorem encodeThenDecodeGivesTheRecordBack : Obligations.EncodeThenDecodeGivesTheRecordBack := by
  intro s b hp hwf hpresent hlegal
  have hbits := bufferToString_bit_recordToBuffer (b := b) hp hwf
  have hbank : (s.recordToBuffer b).okDone.bank b = s.bank b := by rw [State.okDone_bank, State.recordToBuffer_bank]
  have hfits : ∀ e ∈ ((s.recordToBuffer b).okDone.bank b).schema,
      e.bitEnd ≤ 8 * (s.recordToBuffer b).okDone.wlen.toNat := by
    rw [hbank, State.okDone_wlen, recordToBuffer_wlen_toNat hp hwf]
    exact bitEnd_le_bufferBytes _
  have hslot : ∀ e ∈ (s.bank b).schema,
      slotOf (((s.recordToBuffer b).okDone.bufferToRecord b).okDone.bank b).val e =
        decodeSlot (s.recordToBuffer b).okDone.bstr e := by
    intro e he
    rw [State.okDone_bank, slotOf_bufferToRecord (hbank ▸ hwf.slots_pairwise) (hbank ▸ he)]
    exact decodeSlot_congr e hbits
  refine ⟨_, _, exec_encode_legal (firstMissing_eq_none_iff.2 hpresent) (firstIllegal_eq_none_iff.2 hlegal),
    exec_decode_fits hfits, rfl, rfl, hslot, fun f g i _ hg _ hc hhighest => ?_, fun hdisjoint => ?_⟩
  · exact recordToString_bit_highest hwf hg hc hhighest
  · have hword : ∀ v, (((s.recordToBuffer b).okDone.bufferToRecord b).okDone.bank b).word v = (s.bank b).word v := by
      intro v
      by_cases hv : ∃ e ∈ (s.bank b).schema, e.OwnsWord v
      · obtain ⟨e, he, hv⟩ := hv
        refine word_eq_of_slotOf_eq hv ((hslot e he).trans (decodeSlot_of_encoded (hlegal e he) fun p hp => ?_))
        have hwidth := (hwf.entries e (hwf.schema_eq ▸ he)).width_eq
        exact recordToString_bit_window hwf hdisjoint he (hwidth ▸ hp)
      · rw [State.okDone_bank, word_bufferToRecord_outside (hbank ▸ fun e he ho => hv ⟨e, he, ho⟩), hbank]
    have hschema : (((s.recordToBuffer b).okDone.bufferToRecord b).okDone.bank b).schema = (s.bank b).schema := by
      rw [State.okDone_bank, State.bufferToRecord_bank, hbank]
      rfl
    exact ⟨hword, BankState.record_congr hschema hword .read, BankState.record_congr hschema hword .write⟩

end Sys2Proof.Machine
end

section
/-! The statement of 45_control.md: NOP. -/

namespace Sys2Proof.Machine

/-- NOP makes no check and writes no data, so what remains is the completion of the state it started from. -/
theorem exec_nop (s : State) : exec .nop s = .next s.okDone :=
  calc exec .nop s = complete s (.ok s) := rfl
    _ = .next s.okDone := complete_ok s s

/-- Settles O8: the word has no field set, and the answer is `exec_nop`. -/
theorem nopOnlyCompletes : Obligations.NopOnlyCompletes :=
  ⟨encode_eq_ofNat rfl, exec_nop⟩

end Sys2Proof.Machine
end

section
/-! The statements of 60_exceptions.md: an error changes only the error record, each command raises only its own errors, and a
failed command fails again. -/

namespace Sys2Proof.Machine

/-! ## Precise errors (60_exceptions.md R300, R305) -/

/-- Settles O43: the record of a failed command is the one its error wrote. -/
theorem errorsChangeOnlyTheErrorRecord : Obligations.ErrorsChangeOnlyTheErrorRecord := by
  intro i s t hexec hcode
  obtain ⟨r, hr⟩ := exec_is_completion i s
  rcases complete_cases (hr.symm.trans hexec) with ⟨s', -, rfl⟩ | ⟨e, -, rfl⟩
  · exact absurd s'.okDone_errCode hcode
  · rfl

/-! ## The errors of each command (60_exceptions.md R301, R302) -/

/-- An error that the table of 60_exceptions.md R301 gives the command, with an info word only where the table has a line or a
field index. -/
structure Raise.RaisedBy (i : Instr) (e : Raise) : Prop where
  code : e.kind.code ∈ raisable i
  info : e.info = 0 ∨ ∃ b, i = .parse b ∨ i = .decode b ∨ i = .encode b

/-- What a command hands to `complete`: a success, or an error that is its own. -/
def OutcomeRaisedBy (i : Instr) : Except Raise State → Prop
  | .ok _ => True
  | .error e => e.RaisedBy i

/-- A check without an info word leaves the rest of the command to look at. -/
theorem OutcomeRaisedBy.check {i : Instr} {c : Prop} [Decidable c] {k : ErrorKind} {r : Except Raise State}
    (hcode : k.code ∈ raisable i) (hr : OutcomeRaisedBy i r) :
    OutcomeRaisedBy i (if c then .error ⟨k, 0, 0⟩ else r) := by
  split
  · exact ⟨hcode, .inl rfl⟩
  · exact hr

/-- A refused text raises SchemaError. -/
theorem parseText_error_kind {p : Params} {text : List Byte} {e : Raise} (h : parseText p text = .error e) :
    e.kind = .schemaError := by
  obtain ⟨_, _, _, _, _, _, _, _, rfl⟩ := parseLines_error h
  rfl

/-- Every command completes with a success or with an error that is its own. -/
theorem exec_completes_raisedBy (i : Instr) (s : State) : ∃ r, exec i s = complete s r ∧ OutcomeRaisedBy i r := by
  cases i with
  | nop => exact ⟨.ok s, rfl, trivial⟩
  | b2s => exact ⟨.ok s.bufferToString, rfl, trivial⟩
  | s2b | bitrd | u8rd | fwdec | fwenc => exact ⟨_, rfl, .check (.head _) trivial⟩
  | bitwr | u8wr => exact ⟨_, rfl, .check (.head _) (.check (.tail _ (.head _)) trivial)⟩
  | swdec w =>
    refine ⟨_, rfl, ?_⟩
    split
    · exact ⟨.head _, .inl rfl⟩
    · exact .check (.tail _ (.head _)) trivial
  | swenc w =>
    exact ⟨_, rfl, .check (.head _) (.check (.tail _ (.head _)) (.check (.tail _ (.tail _ (.head _))) trivial))⟩
  | parse b =>
    refine ⟨_, rfl, ?_⟩
    split
    next e hparse =>
      have hcode : e.kind.code ∈ raisable (.parse b) := by rw [parseText_error_kind hparse]; exact .head _
      exact ⟨hcode, .inr ⟨b, .inl rfl⟩⟩
    · exact trivial
  | decode b =>
    refine ⟨_, rfl, ?_⟩
    split
    · exact ⟨.head _, .inr ⟨b, .inr (.inl rfl)⟩⟩
    · exact trivial
  | encode b =>
    refine ⟨_, rfl, ?_⟩
    split
    · exact ⟨.head _, .inr ⟨b, .inr (.inr rfl)⟩⟩
    · split
      · exact ⟨.tail _ (.head _), .inr ⟨b, .inr (.inr rfl)⟩⟩
      · exact trivial

/-- ERR.SUB at the end of a command is a subcause of 43_schema.md R250 exactly after a SchemaError. -/
theorem exec_errSub {i : Instr} {s t : State} (hexec : exec i s = .next t) :
    t.errSub.toNat ≤ 12 ∧ (t.errSub ≠ 0#4 ↔ t.errCode = 1#4) := by
  rcases exec_answers i s with ⟨s', _, hok⟩ | ⟨e, he, herror⟩
  · obtain rfl := Host.Outcome.next.inj (hok.symm.trans hexec)
    simp
  · obtain rfl := Host.Outcome.next.inj (herror.symm.trans hexec)
    exact he.sub_word

/-- ERR.CODE and ERRINFO at the end of a command are those of a success or of one of the command's own errors. -/
theorem exec_errCode_errInfo {i : Instr} {s t : State} (hexec : exec i s = .next t) :
    (t.errCode = 0#4 ∧ t.errInfo = 0#32) ∨
      (t.errCode ≠ 0#4 ∧ t.errCode ∈ raisable i ∧
        (t.errInfo ≠ 0#32 → ∃ b, i = .parse b ∨ i = .decode b ∨ i = .encode b)) := by
  obtain ⟨r, hr, hraised⟩ := exec_completes_raisedBy i s
  rcases complete_cases (hr.symm.trans hexec) with ⟨s', -, rfl⟩ | ⟨e, rfl, rfl⟩
  · exact .inl ⟨rfl, rfl⟩
  · refine .inr ⟨e.kind.code_ne_zero, hraised.code, fun hinfo => hraised.info.resolve_left fun h0 => hinfo ?_⟩
    rw [State.errDone_errInfo, h0]

/-- Settles O44: code and info word by the command's own errors, subcause by the table of errors. -/
theorem commandsRaiseOnlyTheirErrors : Obligations.CommandsRaiseOnlyTheirErrors := by
  intro i s t hexec
  obtain ⟨hsub_le, hsub_iff⟩ := exec_errSub hexec
  have hsub_zero (h : t.errCode ≠ 1#4) : t.errSub = 0#4 := by_contra fun hne => h (hsub_iff.1 hne)
  have hsub_range (h : t.errCode = 1#4) : 1 ≤ t.errSub.toNat ∧ t.errSub.toNat ≤ 12 :=
    ⟨Nat.one_le_iff_ne_zero.2 fun h0 => hsub_iff.2 h (BitVec.eq_of_toNat_eq h0), hsub_le⟩
  rcases exec_errCode_errInfo hexec with ⟨hcode, hinfo⟩ | ⟨hcode, hmem, hplace⟩
  · exact ⟨.inl hcode, hsub_zero, hsub_range, fun _ => hinfo, fun h => absurd hinfo h⟩
  · exact ⟨.inr hmem, hsub_zero, hsub_range, fun h => absurd h hcode, hplace⟩

/-! ## A failed command issued again (60_exceptions.md R300, 20_memory.md R117) -/

/-- A check that `s` and `s` with another error record both make ends in the same state from either; what follows it is left. -/
theorem complete_check_errDone {s : State} {code sub : BitVec 4} {info : Word} {c : Prop} [Decidable c] {e : Raise}
    {r r' : Except Raise State} (hr : complete (s.errDone code sub info) r' = complete s r) :
    complete (s.errDone code sub info) (if c then .error e else r') = complete s (if c then .error e else r) := by
  split
  · rfl
  · exact hr

/-- No command reads the error record or the completion bits, and its completion writes them all. -/
theorem exec_errDone (i : Instr) (s : State) (code sub : BitVec 4) (info : Word) :
    exec i (s.errDone code sub info) = exec i s := by
  have hbank := s.errDone_bank code sub info
  cases i with
  | nop | b2s => rfl
  | s2b | bitrd | u8rd | fwdec | fwenc => exact complete_check_errDone rfl
  | bitwr | u8wr => exact complete_check_errDone (complete_check_errDone rfl)
  | swdec w =>
    by_cases hw : w = 16 ∨ w = 32
    · rw [exec_swdec_supported _ hw, exec_swdec_supported _ hw]
      exact complete_check_errDone rfl
    · obtain ⟨h16, h32⟩ := not_or.1 hw
      rw [exec_swdec_unsupported _ h16 h32, exec_swdec_unsupported _ h16 h32]
      rfl
  | swenc w => exact complete_check_errDone (complete_check_errDone (complete_check_errDone rfl))
  | parse b =>
    have htext : parseText (s.errDone code sub info).params (s.errDone code sub info).schemaText =
        parseText s.params s.schemaText := rfl
    cases hparse : parseText s.params s.schemaText with
    | error e => rw [exec_parse_refused b hparse, exec_parse_refused b (htext.trans hparse)]; rfl
    | ok acc => rw [exec_parse_accepted b hparse, exec_parse_accepted b (htext.trans hparse)]; cases b <;> rfl
  | decode b =>
    cases hfirst : firstPastEnd (s.bank b).schema s.wlen.toNat with
    | some f =>
      rw [exec_decode_pastEnd hfirst, exec_decode_pastEnd (by rw [hbank]; exact hfirst)]
      rfl
    | none =>
      have hfits := firstPastEnd_eq_none_iff.1 hfirst
      rw [exec_decode_fits hfits, exec_decode_fits (by rw [hbank]; exact hfits)]
      cases b <;> rfl
  | encode b =>
    cases hmissing : (s.bank b).firstMissing with
    | some f =>
      rw [exec_encode_missing hmissing, exec_encode_missing (hbank b ▸ hmissing)]
      rfl
    | none =>
      cases hillegal : (s.bank b).firstIllegal with
      | some f =>
        rw [exec_encode_illegal hmissing hillegal, exec_encode_illegal (hbank b ▸ hmissing) (hbank b ▸ hillegal)]
        rfl
      | none =>
        rw [exec_encode_legal hmissing hillegal, exec_encode_legal (hbank b ▸ hmissing) (hbank b ▸ hillegal)]
        cases b <;> rfl

/-- Settles O45: a failed command leaves its own error record on the state it started from, and no command reads that. -/
theorem failedCommandsFailAgain : Obligations.FailedCommandsFailAgain := by
  intro i s t hexec hcode
  calc exec i t = exec i (s.errDone t.errCode t.errSub t.errInfo) :=
        congrArg (exec i) (errorsChangeOnlyTheErrorRecord i s t hexec hcode)
    _ = exec i s := exec_errDone i s _ _ _
    _ = .next t := hexec

end Sys2Proof.Machine
end

section
/-! The statements of 70_reset_and_hazards.md: what holds at reset, HOSTFAULT and the violations that set it, and progress. -/

namespace Sys2Proof.Machine

/-! ## Reset (70_reset_and_hazards.md R340) -/

/-- The bank of reset has no field and no word to constrain. -/
theorem BankState.Wf.empty (p : Params) : BankState.empty.Wf p where
  nfields_eq := rfl
  nfields_le := Nat.zero_le _
  nwords_le := Nat.zero_le _
  tile := rfl
  entries := fun _ h => nomatch h
  names := .nil
  present_wf := rfl
  present_below := rfl
  val_wf := rfl
  val_below := rfl
  unloaded_empty := fun _ => ⟨rfl, rfl⟩

/-- The launch state: lengths 0, memories and banks empty, nothing in flight and no error recorded. -/
theorem State.Inv.resetWith {p : Params} (hp : p.Legal) : (State.resetWith p).Inv where
  params_legal := hp
  wlen_le := Nat.zero_le _
  blen_le := Nat.zero_le _
  tlen_le := Nat.zero_le _
  wbuf_wf := rfl
  wbuf_below := rfl
  bstr_wf := rfl
  bstr_below := rfl
  stxt_wf := rfl
  stxt_below := rfl
  bank0_wf := .empty p
  bank1_wf := .empty p
  in_flight := fun _ h => nomatch h
  err_code := Nat.zero_le _
  err_sub := ⟨Nat.zero_le _, by simp [State.resetWith]⟩
  err_info := fun _ => rfl

/-- The reference parameters are in the ranges of 00_scope.md R6. -/
theorem Params.reference_legal : Params.reference.Legal := by decide

/-- Settles O50: the launch state meets the invariant for legal parameters, and the reference values are legal. -/
theorem resetHasTheInvariant : Obligations.ResetHasTheInvariant :=
  ⟨fun _ hp => .resetWith hp, .resetWith Params.reference_legal⟩

@[simp] theorem State.resetWith_bank (p : Params) (b : Bank) : (State.resetWith p).bank b = BankState.empty := by
  cases b <;> rfl

/-- Without a recorded error ERR reads 0 (10_state.md R34). -/
theorem errWord_of_no_error {s : State} (hcode : s.errCode = 0#4) (hsub : s.errSub = 0#4) : s.errWord = 0#32 := by
  rw [State.errWord, hcode, hsub]
  rfl

/-- Without a field DECODE fills no slot. -/
theorem bufferToRecord_of_schema_nil {s : State} {b : Bank} (h : (s.bank b).schema = []) :
    s.bufferToRecord b = s.bufferToString := by
  have hbank : { s.bank b with val := extractAll s.bufferToString.bstr [] (s.bank b).val } = s.bufferToString.bank b :=
    (s.bufferToString_bank b).symm
  rw [State.bufferToRecord, h, hbank, State.setBank_bank]

/-- Without a field ENCODE leaves every bit and every byte, and both lengths become 0. -/
theorem recordToBuffer_of_schema_nil {s : State} {b : Bank} (h : (s.bank b).schema = []) :
    s.recordToBuffer b = { s with blen := 0#32, wlen := 0#32 } := by
  rw [State.recordToBuffer, State.recordToString, h]
  rfl

/-- DECODE of an empty schema has no window to check and is B2S. -/
theorem exec_decode_of_schema_nil {s : State} {b : Bank} (h : (s.bank b).schema = []) :
    exec (.decode b) s = exec .b2s s := by
  have hfits : ∀ e ∈ (s.bank b).schema, e.bitEnd ≤ 8 * s.wlen.toNat := by simp [h]
  rw [exec_decode_fits hfits, bufferToRecord_of_schema_nil h, exec_b2s]

/-- ENCODE of the bank of reset has no field to miss or to range-check, and gives a buffer of 0 bytes. -/
theorem exec_encode_empty {s : State} {b : Bank} (h : s.bank b = BankState.empty) :
    exec (.encode b) s = .next { s.okDone with blen := 0#32, wlen := 0#32 } := by
  have hpresent : (s.bank b).firstMissing = none := by rw [h]; rfl
  have hlegal : (s.bank b).firstIllegal = none := by rw [h]; rfl
  have hschema : (s.bank b).schema = [] := by rw [h]; rfl
  rw [exec_encode_legal hpresent hlegal, recordToBuffer_of_schema_nil hschema]
  rfl

/-- Nothing is in flight at reset, so the first CMD write is taken at once (10_state.md R33). -/
theorem step_firstCommand (p : Params) (v : Word) :
    step { State.resetWith p with agenda := [.host (.write 0x00C 4 v)] } =
      .next { State.resetWith p with cmd := v, inflight := some v } :=
  step_writeReg (r := .cmd) rfl rfl rfl (.inl rfl)

/-- Settles O51: DECODE and ENCODE of an empty schema, the registers and memories of the launch state, its first CMD write,
and its two empty banks. -/
theorem resetValuesOfTheSpec : Obligations.ResetValuesOfTheSpec := by
  refine ⟨fun s b h => ⟨exec_decode_of_schema_nil (by rw [h]; rfl), exec_encode_empty h⟩, fun p => ?_⟩
  refine ⟨rfl, rfl, rfl, rfl, rfl, rfl, wordOfBits_single _, rfl, rfl, rfl, errWord_of_no_error rfl rfl, rfl, rfl,
    rfl, rfl, rfl, rfl, rfl, rfl, fun _ => rfl, fun _ => rfl, fun _ => rfl, rfl, rfl, step_firstCommand p, fun b => ?_⟩
  rw [State.resetWith_bank]
  exact ⟨rfl, rfl, rfl, fun _ => rfl, fun _ => rfl, fun _ => rfl, rfl⟩

/-! ## HOSTFAULT (70_reset_and_hazards.md R350) -/

@[simp] theorem State.writeReg_hostFault (s : State) (r : Reg) (v : Word) : (s.writeReg r v).hostFault = s.hostFault := by
  cases r with
  | status => rw [writeReg_status]
  | wlen => rw [writeReg_wlen]
  | blen => rw [writeReg_blen]
  | tlen => rw [writeReg_tlen]
  | _ => rfl

@[simp] theorem State.writeTarget_hostFault (s : State) (g : Target) (v : Word) :
    (s.writeTarget g v).hostFault = s.hostFault := by
  cases g with
  | reg r => rw [State.writeTarget, State.writeReg_hostFault]
  | present b k => exact State.setBank_hostFault _ _ _
  | val b i => rw [writeTarget_val, State.setBank_hostFault]
  | _ => rfl

@[simp] theorem State.violate_hostFault (s : State) (a : Access) : (s.violate a).hostFault = true := by
  cases a <;> rfl

@[simp] theorem State.access_hostFault (s : State) (a : Access) : (s.access a).hostFault = s.hostFault := by
  cases a with
  | read ad n => rfl
  | write ad n v => exact s.writeTarget_hostFault (targetAt ad) v

/-- The engine never writes HOSTFAULT. -/
theorem engineTurn_hostFault {s t : State} (h : engineTurn s = .next t) : t.hostFault = s.hostFault := by
  rcases engineTurn_cases h with ⟨-, rfl⟩ | ⟨c, i, -, -, hexec⟩ | ⟨c, e, -, -, rfl⟩
  · rfl
  · rcases exec_answers i s with ⟨s', hwrites, hok⟩ | ⟨e, -, herror⟩
    · obtain rfl := Host.Outcome.next.inj (hok.symm.trans hexec)
      simp [hwrites.frame]
    · obtain rfl := Host.Outcome.next.inj (herror.symm.trans hexec)
      rfl
  · rfl

/-- A host access leaves HOSTFAULT set: a violation sets it, and no other access writes it. -/
theorem busAccess_keeps_hostFault {s t : State} {a : Access} (h : busAccess a s = .next t) (hs : s.hostFault = true) :
    t.hostFault = true := by
  obtain ⟨-, ⟨-, rfl⟩ | ⟨-, rfl⟩⟩ := busAccess_cases h
  · exact s.violate_hostFault a
  · exact (s.access_hostFault a).trans hs

/-- Settles O48: a step is an engine's turn, which does not write HOSTFAULT, or a host access, which leaves it set. -/
theorem hostFaultIsNeverCleared : Obligations.HostFaultIsNeverCleared := by
  intro s t hstep hs
  rcases step_cases hstep with ⟨-, ht⟩ | ⟨rest, -, ht⟩ | ⟨a, rest, -, ht⟩
  · exact (engineTurn_hostFault ht).trans hs
  · exact (engineTurn_hostFault ht).trans hs
  · exact busAccess_keeps_hostFault ht hs

/-! ## Violations (20_memory.md R101, R109) -/

/-- What a host may access while a command is in flight: a read or a write of a register that allows it. -/
theorem allowedWhileBusy_cases {a : Access} (h : a.allowedWhileBusy = true) :
    (∃ ad n r, a = .read ad n ∧ targetAt ad = .reg r ∧ r.readableWhileBusy = true) ∨
      ∃ ad n v r, a = .write ad n v ∧ targetAt ad = .reg r ∧ r.writableWhileBusy = true := by
  cases a with
  | read ad n =>
    cases htarget : targetAt ad <;> simp only [Access.allowedWhileBusy, htarget, reduceCtorEq] at h
    exact .inl ⟨ad, n, _, rfl, htarget, h⟩
  | write ad n v =>
    cases htarget : targetAt ad <;> simp only [Access.allowedWhileBusy, htarget, reduceCtorEq] at h
    exact .inr ⟨ad, n, v, _, rfl, htarget, h⟩

/-- A violation is a step, whatever it violates (70_reset_and_hazards.md R350). -/
theorem step_violation {s : State} {a : Access} {rest : List Turn} (ha : s.agenda = .host a :: rest)
    (hw : a.addr < Config.windowSize) (hv : violates s a = true) :
    step s = .next (({ s with agenda := rest } : State).violate a) := by
  have hv' : violates { s with agenda := rest } a = true := hv
  simp only [step, ha, busAccess, hv', if_neg (Nat.not_le.2 hw), if_true]

/-- A violation writes HOSTFAULT, the word the host holds and the count of free values, and nothing else. -/
theorem State.violate_eq (s : State) (a : Access) :
    s.violate a = { s with hostFault := true, hostRead := (s.violate a).hostRead, draws := (s.violate a).draws } := by
  cases a <;> rfl

/-- Settles O52: each of the three kinds is a violation, and `State.violate` writes nothing else. -/
theorem violationsOnlySetHostFault : Obligations.ViolationsOnlySetHostFault := by
  intro s a rest ha hw hkind
  have hviolates : violates s a = true := by
    by_contra hno
    obtain ⟨hwidth, haligned, hallowed⟩ := violates_eq_false.1 (Bool.eq_false_iff.2 hno)
    rcases hkind with h | h | ⟨hbusy, hread, hwrite⟩
    · exact h hwidth
    · exact h haligned
    · rcases allowedWhileBusy_cases (hallowed (Option.isSome_iff_ne_none.2 hbusy)) with
        ⟨ad, n, r, rfl, htarget, hr⟩ | ⟨ad, n, v, r, rfl, htarget, hr⟩
      · exact hread n rfl (readableWhileBusy_addr (regAt_of_targetAt htarget) hr)
      · exact hwrite n v rfl (writableWhileBusy_addr (regAt_of_targetAt htarget) hr)
  refine ⟨_, step_violation ha hw hviolates, State.violate_eq _ a, ?_⟩
  rintro ad n v rfl
  rfl

/-! ## Progress (70_reset_and_hazards.md R357, 10_state.md R46) -/

/-- The engine's turn completes the word in flight, whether it spells a command or not. -/
theorem engineTurn_completes {s : State} {c : Word} (h : s.inflight = some c) :
    ∃ t, engineTurn s = .next t ∧ t.inflight = none ∧ t.done = true := by
  cases hdecode : decodeWord c with
  | ok i =>
    obtain ⟨t, hexec, hinflight, hdone, -⟩ := everyCommandCompletes i s
    exact ⟨t, (engineTurn_command h hdecode).trans hexec, hinflight, hdone⟩
  | error e => exact ⟨_, engineTurn_rejected h hdecode, rfl, rfl⟩

/-- A register that a host may write while busy is CTRL or STATUS, and neither write ends or replaces the command. -/
theorem writeReg_whileBusy (s : State) {r : Reg} (v : Word) (h : r.writableWhileBusy = true) :
    (s.writeReg r v).inflight = s.inflight ∧ (s.writeReg r v).agenda = s.agenda := by
  cases r with
  | ctrl => exact ⟨rfl, rfl⟩
  | status => rw [writeReg_status]; exact ⟨rfl, rfl⟩
  | _ => cases h

/-- An access that 20_memory.md R109 allows while busy leaves the command in flight. -/
theorem access_whileBusy (s : State) {a : Access} (h : a.allowedWhileBusy = true) :
    (s.access a).inflight = s.inflight ∧ (s.access a).agenda = s.agenda := by
  rcases allowedWhileBusy_cases h with ⟨ad, n, r, rfl, -, -⟩ | ⟨ad, n, v, r, rfl, htarget, hr⟩
  · exact ⟨rfl, rfl⟩
  · rw [State.access, htarget]
    exact writeReg_whileBusy s v hr

/-- A host turn inside the window leaves the command in flight, violations included. -/
theorem step_hostTurn_whileBusy {s : State} {a : Access} {rest : List Turn} (ha : s.agenda = .host a :: rest)
    (hw : a.addr < Config.windowSize) (hbusy : s.busy = true) :
    ∃ t, step s = .next t ∧ t.inflight = s.inflight ∧ t.agenda = rest := by
  cases hv : violates s a with
  | true => exact ⟨_, step_violation ha hw hv, by cases a <;> exact ⟨rfl, rfl⟩⟩
  | false =>
    obtain ⟨hwidth, haligned, hallowed⟩ := violates_eq_false.1 hv
    exact ⟨_, step_hostAccess ha hwidth haligned hw (.inr (hallowed hbusy)), access_whileBusy _ (hallowed hbusy)⟩

/-- A run that begins with a step to `t` goes on as the run from `t`. -/
theorem core_run_of_step {s t : State} (h : step s = .next t) (k : Nat) :
    Host.Core.run Sys2Proof.core (k + 1) s = Host.Core.run Sys2Proof.core k t := by
  have hcore : Sys2Proof.core.step s = .next t := h
  simp only [Host.Core.run, hcore]

/-- Settles O7, by induction on the agenda: each host turn leaves the command in flight, and the first engine's turn, at the
latest the one after the agenda, completes it. -/
theorem commandCompletesWithinTheAgenda : Obligations.CommandCompletesWithinTheAgenda := by
  intro s c hc hwindow
  generalize hagenda : s.agenda = turns at hwindow ⊢
  induction turns generalizing s with
  | nil =>
    obtain ⟨t, hturn, hdone⟩ := engineTurn_completes hc
    exact ⟨1, t, Nat.le_refl _, core_run_of_step ((step_agenda_nil hagenda).trans hturn) 0, hdone⟩
  | cons turn rest ih =>
    cases turn with
    | engine =>
      obtain ⟨t, hturn, hdone⟩ := engineTurn_completes (s := { s with agenda := rest }) hc
      exact ⟨1, t, by omega, core_run_of_step ((step_agenda_engine hagenda).trans hturn) 0, hdone⟩
    | host a =>
      have hbusy : s.busy = true := by rw [State.busy, hc, Option.isSome_some]
      obtain ⟨s', hstep, hinflight, hrest⟩ := step_hostTurn_whileBusy hagenda (hwindow a (.head _)) hbusy
      obtain ⟨k, t, hk, hrun, hdone⟩ := ih s' (hinflight.trans hc) hrest fun b hb => hwindow b (.tail _ hb)
      exact ⟨k + 1, t, Nat.succ_le_succ hk, (core_run_of_step hstep k).trans hrun, hdone⟩

end Sys2Proof.Machine
end
